-- ==== Sys2Proof/Word.lean ====
section
/-! DEFINITION. The word types of the WPAE: bus words, and the container of a wide register. -/

namespace Sys2Proof

/-- One byte. -/
abbrev Byte := BitVec 8

/-- One 32-bit bus word (20_memory.md R62). -/
abbrev Word := BitVec 32

/-- The container of a wide value: a field element (W bits) or the scalar (KW bits). W and KW are
parameters of an instance, multiples of 32 from 32 to 1024 (00_scope.md R7), so every legal width
fits; a value of an instance lies below 2^W (2^KW), which `Safety.lean` states as an invariant. -/
abbrev Wide := BitVec 1024

/-- `v` as a wide value, modulo 2^1024. -/
abbrev wide (v : Nat) : Wide := BitVec.ofNat 1024 v

end Sys2Proof
end

