-- ==== Sys2Proof/Config.lean ====
section
/-! DEFINITION. What one instance of the block fixes (00_scope.md R7), and the free values: constants
without a body, for the answers the spec leaves open. -/

namespace Sys2Proof

/-- The parameters of an instance: `nw` = W/32 words per field element, `nkw` = KW/32 words of K,
`base` the bus address of the register window (00_scope.md R7; log 1). -/
structure Config where
  nw   : Nat
  nkw  : Nat
  base : Nat
deriving DecidableEq, Repr

/-- W, the width of a field element in bits. -/
def Config.w (c : Config) : Nat := 32 * c.nw

/-- KW, the width of the scalar register in bits. -/
def Config.kw (c : Config) : Nat := 32 * c.nkw

/-- The legal values of the parameters (00_scope.md R7). -/
def Config.legal (c : Config) : Bool :=
  decide (1 ≤ c.nw ∧ c.nw ≤ 32 ∧ 1 ≤ c.nkw ∧ c.nkw ≤ 32 ∧ c.base % 0x800 = 0)

/-- The defaults of 00_scope.md R7: W = KW = 256. The spec gives BASE no default; 0 is a DESIGN
CHOICE (log 2). -/
def Config.default : Config := { nw := 8, nkw := 8, base := 0 }

/-- The VERSION parameter, "fixed by this spec" (00_scope.md R7). -/
def Config.version : BitVec 16 := 0x0001

/-- Free value: the coprocessor's answer to MADD, MSUB, MMUL (by request opcode) at modulus 0, where
"the contract says nothing" (40_coprocessor_ops.md R111, 93_implementation_defined.md U1; log 5). -/
opaque Config.copAtZero : BitVec 3 → Wide → Wide → Wide

/-- Free value: the coprocessor's answer to MINV at modulus 0, `none` for the `Err` answer (log 5). -/
opaque Config.invAtZero : Wide → Option Wide

/-- Free value: what a rejected read returns (20_memory.md R64: "a read returns an unspecified
value"), applied to the counter `freeIdx` of State (log 10). -/
opaque Config.illegalReadData : Nat → Nat

end Sys2Proof
end

