-- ==== Sys2Proof/Syntax.lean ====
section
/-! DEFINITION. The instructions: the four commands of format CMD32 (30_encoding.md R93) and the four
coprocessor requests of format MREQ (40_coprocessor_ops.md R112 to R116). -/

namespace Sys2Proof

/-- The index of a point register, PR0 to PR3 (10_state.md R22). -/
abbrev Reg := Fin 4

/-- One constructor per row of spec/opcode_table.json. A request carries the operand signals of the
port (40_coprocessor_ops.md R116). -/
inductive Instr where
  /-- PCHK PRa (41_validator.md R136). -/
  | pchk (ra : Reg)
  /-- PADD PRd, PRa, PRb (42_point_add.md R146). -/
  | padd (rd ra rb : Reg)
  /-- PDBL PRd, PRa (43_point_double.md R166). -/
  | pdbl (rd ra : Reg)
  /-- LADDER PRd, PRa; the scalar is K (44_ladder.md R183). -/
  | ladder (rd ra : Reg)
  /-- MADD(x, y, m) (40_coprocessor_ops.md R112). -/
  | madd (x y m : Wide)
  /-- MSUB(x, y, m) (40_coprocessor_ops.md R113). -/
  | msub (x y m : Wide)
  /-- MMUL(x, y, m) (40_coprocessor_ops.md R114). -/
  | mmul (x y m : Wide)
  /-- MINV(x, m); the y operand is sent as 0 and ignored (40_coprocessor_ops.md R115). -/
  | minv (x m : Wide)
deriving DecidableEq, Repr

/-- The request channel of the coprocessor port while `mreq_valid` = 1: `mreq_op`, `mreq_x`, `mreq_y`,
`mreq_m` (40_coprocessor_ops.md R116). -/
structure Request where
  op : BitVec 3
  x  : Wide
  y  : Wide
  m  : Wide
deriving DecidableEq, Repr

/-- What an instruction is encoded as: a command word (30_encoding.md R90) or the signals of a request
(40_coprocessor_ops.md R116). -/
inductive Encoded where
  | command (w : Word)
  | request (r : Request)
deriving DecidableEq, Repr

/-- Why the decoder rejects. -/
inductive Reject where
  /-- The word is no legal command (30_encoding.md R95). -/
  | illegalCommand
  /-- A request opcode 4 to 7, "never sent by the block" (40_coprocessor_ops.md R116). -/
  | reservedRequest
  /-- Not the four bytes of one command word (30_encoding.md R90: one length). -/
  | badLength
deriving DecidableEq, Repr

/-- What a decoder answers. -/
inductive Decoded where
  | ok (i : Instr)
  | reject (r : Reject)
deriving DecidableEq, Repr

end Sys2Proof
end

