-- ==== Sys2Proof/Machine/State.lean ====
section
/-! DEFINITION. The state of the WPAE as plain data: the block's own state (10_state.md R20, "the
following and nothing else"), its interfaces (20_memory.md R60), and the model's own fields; the stops;
the state after reset (10_state.md R43). -/

namespace Sys2Proof.Machine

/-- A point value: the identity or an affine pair (00_scope.md R10). -/
inductive Point where
  | inf
  | aff (x y : Wide)
deriving DecidableEq, Repr

/-- A point register: the tag INF and the coordinates X and Y (10_state.md R22). X and Y hold bits of
their own also while INF is 1 (R27). -/
structure PointReg where
  inf : Bool
  x   : Wide
  y   : Wide
deriving DecidableEq, Repr

/-- The error codes of STATUS.ERR (60_exceptions.md R220). Codes 6 to 15 are never produced. -/
inductive Err where
  /-- 0, NONE. -/
  | none
  /-- 1, INVALID_POINT. -/
  | invalidPoint
  /-- 2, EQUAL_POINTS. -/
  | equalPoints
  /-- 3, DOUBLING_UNDEFINED. -/
  | doublingUndefined
  /-- 4, ARITH. -/
  | arith
  /-- 5, ILLEGAL_CMD. -/
  | illegalCmd
deriving DecidableEq, Repr

/-- PH, the phase of the sequencer (10_state.md R34). -/
inductive Phase where
  /-- IDLE: no command runs. -/
  | idle
  /-- EXEC: a single step is due. -/
  | exec
  /-- L_ADD: the ladder's addition for bit LI is next. -/
  | lAdd
  /-- L_DBL: the ladder's doubling for bit LI is next. -/
  | lDbl
deriving DecidableEq, Repr

/-- The complete state of the block (10_state.md R20). -/
structure Block where
  /-- CA, the curve coefficient a (R21). -/
  ca   : Wide
  /-- CB, the curve coefficient b (R21). -/
  cb   : Wide
  /-- CP, the prime (R21). -/
  cp   : Wide
  /-- K, the scalar, write only (R28). -/
  k    : Wide
  /-- PR0 to PR3 (R22). -/
  pr   : Vector PointReg 4
  /-- CMDR, the command latch (R29). -/
  cmdr : Word
  /-- STATUS.DONE (R30). -/
  done : Bool
  /-- STATUS.ONC (R30, R31). -/
  onc  : Bool
  /-- STATUS.WERR (R30). -/
  werr : Bool
  /-- STATUS.ERR (R30, 60_exceptions.md R220). -/
  err  : Err
  /-- CTRL.IE (R32). -/
  ie   : Bool
  /-- PH (R34). -/
  ph   : Phase
  /-- LI, the ladder index (R35). -/
  li   : Nat
  /-- LR0, the accumulator that starts as the identity (R36). -/
  lr0  : Point
  /-- LR1, the accumulator that starts as the operand (R36). -/
  lr1  : Point
deriving DecidableEq, Repr

/-- The reset value of every piece of the block's state (10_state.md R43). -/
def Block.reset : Block where
  ca := 0
  cb := 0
  cp := 0
  k := 0
  pr := Vector.replicate 4 { inf := true, x := 0, y := 0 }
  cmdr := 0
  done := false
  onc := false
  werr := false
  err := .none
  ie := false
  ph := .idle
  li := 0
  lr0 := .inf
  lr1 := .inf

/-- The answer channel of the coprocessor port while `mrsp_valid` = 1 (40_coprocessor_ops.md R116).
On `Err` there is no result field (93_implementation_defined.md U6; log 6). -/
inductive Answer where
  | ok (r : Wide)
  | err
deriving DecidableEq, Repr

/-- A host bus access of `n` bytes at a bus address (20_memory.md R62, R63). The data of a write that
is not a 32-bit word never matters (R64), so only a word is kept. -/
inductive Access where
  | read  (addr n : Nat)
  | write (addr n : Nat) (v : Word)
deriving DecidableEq, Repr

/-- What the block answered the last host access (20_memory.md R62 to R64). -/
inductive BusAnswer where
  /-- The 32-bit value of a legal read. -/
  | data (v : Word)
  /-- A legal write was taken (performed or ignored by its rule). -/
  | written
  /-- Error response to a read; the returned value is a free value (R64; log 10). -/
  | readError (v : Nat)
  /-- Error response to a write (R64). -/
  | writeError
deriving DecidableEq, Repr

/-- What happens next at the block (log 3): the host's accesses, the `rst_n` pin, and the moments the
block's own agents get to move, in one total order (20_memory.md R71). -/
inductive Input where
  /-- A host bus access. -/
  | access (a : Access)
  /-- The block moves: the coprocessor answers an outstanding request, or else the engine takes its
  enabled step (60_exceptions.md R225), or else nothing. -/
  | advance
  /-- `rst_n` goes to 0 (70_reset_and_hazards.md R260). -/
  | resetLow
  /-- `rst_n` returns to 1 (R260). -/
  | resetHigh
deriving DecidableEq, Repr

/-- A wide register, which the host reaches word by word (10_state.md R42). -/
inductive WideReg where
  | ca
  | cb
  | cp
  | k
  | x (i : Reg)
  | y (i : Reg)
deriving DecidableEq, Repr

/-- What an offset of the register window names (10_state.md R42). -/
inductive Loc where
  | cmd
  | status
  | ctrl
  | id
  | ptag
  /-- Word `j` of a wide register. -/
  | wide (r : WideReg) (j : Nat)
  | reserved
deriving DecidableEq, Repr

/-- The result of an operation: `Ok(v)` or `Fault(c)` (00_scope.md R11). -/
inductive Result (α : Type) where
  | ok (v : α)
  | fault (c : Err)
deriving DecidableEq, Repr

/-- One evaluation inside an engine step: its result, and the coprocessor requests it sent, in order
(40_coprocessor_ops.md R117, R123). -/
structure Run (α : Type) where
  res : Result α
  log : List Request
deriving DecidableEq, Repr

/-- One event per sub-operation of the ladder (44_ladder.md R192). -/
inductive SubOp where
  | add
  | dbl
deriving DecidableEq, Repr

/-- The state of the machine: the block, its interfaces, and the model's own fields. -/
structure State where
  /-- The instance's parameters; no step changes them (log 1). -/
  cfg     : Config
  /-- The block's own state (10_state.md R20). -/
  blk     : Block
  /-- The input pin `rst_n` (20_memory.md R60). -/
  rstN    : Bool
  /-- The coprocessor's request channel; `none` is `mreq_valid` = 0 (40_coprocessor_ops.md R116). -/
  mreq    : Option Request
  /-- The coprocessor's answer channel; `none` is `mrsp_valid` = 0 (R116). -/
  mrsp    : Option Answer
  /-- MODEL: what happens next, oldest first (log 3). -/
  inputs  : List Input
  /-- MODEL: the answer to the last host access (log 14). -/
  bus     : Option BusAnswer
  /-- MODEL: the counter of the free values (log 10). -/
  freeIdx : Nat
  /-- MODEL: the requests answered so far, oldest first (40_coprocessor_ops.md R123; log 13). -/
  reqLog  : List Request
  /-- MODEL: the ladder's sub-operations so far, oldest first (44_ladder.md R192; log 13). -/
  subOps  : List SubOp
deriving DecidableEq, Repr

/-- The reset state of an instance (10_state.md R43). -/
def State.resetOf (c : Config) : State where
  cfg := c
  blk := Block.reset
  rstN := true
  mreq := none
  mrsp := none
  inputs := []
  bus := none
  freeIdx := 0
  reqLog := []
  subOps := []

/-- The machine right after reset, on the default instance (10_state.md R43, 00_scope.md R7). -/
def State.reset : State := State.resetOf Config.default

/-- Why the machine stops with a fault. -/
inductive Fault where
  /-- Raised by an engine step whose command is not the one its phase belongs to. 60_exceptions.md
  R225: "No other combination of PH and opcode can arise." Safe: no reachable state raises it (log 9). -/
  | noEngineStep
  /-- Raised when a request with opcode 4 to 7 stands on the coprocessor port. 40_coprocessor_ops.md
  R116: "never sent by the block". Safe: no reachable state raises it (log 8). -/
  | reservedRequest
deriving DecidableEq, Repr

/-- Why the machine refuses an instruction. -/
inductive Refusal where
  /-- Raised by `exec` for an instruction without a meaning yet. Safe. No arm raises it: every
  instruction is modelled. -/
  | notModelled (mnemonic : String)
deriving DecidableEq, Repr

end Sys2Proof.Machine
end

