-- ==== Sys2Proof/WellFormed.lean ====
section
/-! DEFINITION. Which instructions an instance can carry. A command's register indices are two-bit by
their type (30_encoding.md R92, R96: no restriction on which registers a command names); a request's
operands are W-bit numbers (40_coprocessor_ops.md R111). -/

namespace Sys2Proof

/-- A W-bit number of the instance. -/
def Config.fits (c : Config) (v : Wide) : Bool := decide (v.toNat < 2 ^ c.w)

/-- A KW-bit number of the instance. -/
def Config.fitsK (c : Config) (v : Wide) : Bool := decide (v.toNat < 2 ^ c.kw)

/-- Well-formed on an instance. -/
def Instr.wf (c : Config) : Instr → Bool
  | .pchk _ => true
  | .padd _ _ _ => true
  | .pdbl _ _ => true
  | .ladder _ _ => true
  | .madd x y m => c.fits x && c.fits y && c.fits m
  | .msub x y m => c.fits x && c.fits y && c.fits m
  | .mmul x y m => c.fits x && c.fits y && c.fits m
  | .minv x m => c.fits x && c.fits m

/-- The same of the request channel: every operand signal has W bits. -/
def Request.wf (c : Config) (r : Request) : Bool := c.fits r.x && c.fits r.y && c.fits r.m

end Sys2Proof
end

