-- ==== Sys2Proof/Machine/Ops.lean ====
section
/-! DEFINITION. The shared operations on registers: point registers, wide registers and their words,
the register map, the completion of a command (this block's "trap entry"), the host's acknowledgement
(its "trap return"), and the two resets. -/

namespace Sys2Proof.Machine

/-! ## Point registers -/

/-- A point register read as a value: `Inf` when INF is 1, whatever X and Y hold (10_state.md R24). -/
def PointReg.point (r : PointReg) : Point := if r.inf then .inf else .aff r.x r.y

/-- The canonical contents the block writes for a point value (10_state.md R25). -/
def PointReg.ofPoint : Point → PointReg
  | .inf => { inf := true, x := 0, y := 0 }
  | .aff x y => { inf := false, x := x, y := y }

/-- `PR[i]` (10_state.md R24). -/
def Block.point (b : Block) (i : Reg) : Point := (b.pr[i]).point

/-- `PR[i] <- P` (10_state.md R25). -/
def Block.setPoint (b : Block) (i : Reg) (P : Point) : Block :=
  { b with pr := b.pr.set i (PointReg.ofPoint P) }

/-! ## Wide registers, word by word -/

/-- `v[32j+31 : 32j]` (20_memory.md R66). -/
def wordAt (v : Wide) (j : Nat) : Word := v.extractLsb' (32 * j) 32

/-- `v` with `[32j+31 : 32j]` replaced by `x`; the other words keep their values (20_memory.md R63). -/
def setWord (v : Wide) (j : Nat) (x : Word) : Wide :=
  (v &&& ~~~((0xFFFFFFFF#32).setWidth 1024 <<< (32 * j))) ||| (x.setWidth 1024 <<< (32 * j))

/-- The contents of a wide register. -/
def Block.getWide (b : Block) : WideReg → Wide
  | .ca => b.ca
  | .cb => b.cb
  | .cp => b.cp
  | .k => b.k
  | .x i => (b.pr[i]).x
  | .y i => (b.pr[i]).y

/-- A wide register replaced. A write to X or Y does not change the INF bit (10_state.md R27). -/
def Block.setWide (b : Block) (r : WideReg) (v : Wide) : Block :=
  match r with
  | .ca => { b with ca := v }
  | .cb => { b with cb := v }
  | .cp => { b with cp := v }
  | .k => { b with k := v }
  | .x i => { b with pr := b.pr.set i { b.pr[i] with x := v } }
  | .y i => { b with pr := b.pr.set i { b.pr[i] with y := v } }

/-- How many words a wide register has: NW, or NKW for K (20_memory.md R66). -/
def WideReg.words (c : Config) : WideReg → Nat
  | .k => c.nkw
  | _ => c.nw

/-! ## The register map (10_state.md R42) -/

/-- The wide register whose window of 0x80 bytes is number `slot` of the register window. -/
def wideSlot (slot : Nat) : Option WideReg :=
  match slot with
  | 1 => some .ca
  | 2 => some .cb
  | 3 => some .cp
  | 4 => some .k
  | 5 => some (.x 0)
  | 6 => some (.y 0)
  | 7 => some (.x 1)
  | 8 => some (.y 1)
  | 9 => some (.x 2)
  | 10 => some (.y 2)
  | 11 => some (.x 3)
  | 12 => some (.y 3)
  | _ => none

/-- The offset of word 0 of a wide register (10_state.md R42). -/
def WideReg.offset : WideReg → Nat
  | .ca => 0x080
  | .cb => 0x100
  | .cp => 0x180
  | .k => 0x200
  | .x i => 0x280 + 0x100 * i.val
  | .y i => 0x300 + 0x100 * i.val

/-- What an aligned offset of the window names (10_state.md R42, 20_memory.md R67). -/
def locate (c : Config) (off : Nat) : Loc :=
  if off = 0x000 then .cmd
  else if off = 0x004 then .status
  else if off = 0x008 then .ctrl
  else if off = 0x00C then .id
  else if off = 0x010 then .ptag
  else
    match wideSlot (off / 0x80) with
    | some r => if off % 0x80 / 4 < r.words c then .wide r (off % 0x80 / 4) else .reserved
    | none => .reserved

/-! ## Completion and acknowledgement -/

/-- `complete(err)`, the last action of the last engine step of a command (60_exceptions.md R226). With
`err` other than NONE it is the block's only "trap entry": what is saved is the code, in STATUS.ERR,
and the command, still in CMDR (R232). -/
def Block.complete (b : Block) (e : Err) : Block :=
  { b with err := e, done := true, lr0 := .inf, lr1 := .inf, li := 0, ph := .idle }

/-- The host's acknowledgement, a write of 1 to STATUS.DONE: the nearest thing to a "trap return"
(60_exceptions.md R233). -/
def Block.acknowledge (b : Block) : Block := { b with done := false }

/-- The end of a command that yields a point: on `Ok(R)` the destination is written and the command
completes with 0, on `Fault(c)` it completes with `c` and writes no point register (42_point_add.md
R146, 43_point_double.md R166, 44_ladder.md R183). -/
def Block.finish (b : Block) (rd : Reg) : Result Point → Block
  | .ok R => (b.setPoint rd R).complete .none
  | .fault c => b.complete c

/-! ## Steps of the whole state -/

/-- An engine step's effect on the state: the block's new contents and the requests the step sent. No
answer stands on the port after it (40_coprocessor_ops.md R117). -/
def State.engine (s : State) (b : Block) (sent : List Request) : State :=
  { s with blk := b, mrsp := none, reqLog := s.reqLog ++ sent }

/-- The coprocessor's answer to the request `r` on the port (40_coprocessor_ops.md R116, R117): the
request is outstanding no more and the answer stands on the answer channel. -/
def State.answer (s : State) (r : Request) (a : Answer) : State :=
  { s with mreq := none, mrsp := some a, reqLog := s.reqLog ++ [r] }

/-- Soft reset (70_reset_and_hazards.md R261): the block holds its reset values, and an outstanding
request is withdrawn and its answer discarded. -/
def State.softReset (s : State) : State :=
  { s with blk := Block.reset, mreq := none, mrsp := none }

/-- `rst_n` at 0 (70_reset_and_hazards.md R260): the block holds its reset values and `mreq_valid` is 0. -/
def State.hardReset (s : State) : State :=
  { s with rstN := false, blk := Block.reset, mreq := none, mrsp := none }

/-- A result truncated to W bits: `mrsp_r` has W bits (40_coprocessor_ops.md R116). -/
def Config.trunc (c : Config) (v : Wide) : Wide := wide (v.toNat % 2 ^ c.w)

end Sys2Proof.Machine
end

