-- ==== Sys2Proof/Machine/Flags.lean ====
section
/-! DEFINITION. The status, control, identification and tag words (10_state.md R26, R30 to R33) and the
interrupt output (60_exceptions.md R230): how each is read from the state and what a host write to each
changes. -/

namespace Sys2Proof.Machine

/-- The number of an error code (60_exceptions.md R220). -/
def Err.code : Err → BitVec 4
  | .none => 0
  | .invalidPoint => 1
  | .equalPoints => 2
  | .doublingUndefined => 3
  | .arith => 4
  | .illegalCmd => 5

/-- STATUS.BUSY: 1 exactly when PH is not IDLE (10_state.md R30). -/
def Block.busy (b : Block) : Bool := b.ph != .idle

/-- STATUS as read: `{24'b0, ERR[3:0], WERR, ONC, DONE, BUSY}` (20_memory.md R62). -/
def Block.statusWord (b : Block) : Word :=
  0#24 ++ b.err.code ++ BitVec.ofBool b.werr ++ BitVec.ofBool b.onc ++ BitVec.ofBool b.done
    ++ BitVec.ofBool b.busy

/-- A host write to STATUS: write-one-to-clear of DONE and WERR, nothing else (10_state.md R30). -/
def Block.writeStatus (b : Block) (v : Word) : Block :=
  let b := if v.getLsbD 1 then b.acknowledge else b
  if v.getLsbD 3 then { b with werr := false } else b

/-- CTRL as read: `{31'b0, IE}`; SRST reads 0 (20_memory.md R62). -/
def Block.ctrlWord (b : Block) : Word := 0#31 ++ BitVec.ofBool b.ie

/-- ID: VERSION, NKW, NW (10_state.md R33). -/
def idWord (c : Config) : Word :=
  Config.version ++ BitVec.ofNat 8 c.nkw ++ BitVec.ofNat 8 c.nw

/-- PTAG as read: bit i is PRi.INF, bits 31 to 4 read as 0 (10_state.md R26). -/
def Block.ptagWord (b : Block) : Word :=
  0#28 ++ BitVec.ofBool (b.pr[3]).inf ++ BitVec.ofBool (b.pr[2]).inf
    ++ BitVec.ofBool (b.pr[1]).inf ++ BitVec.ofBool (b.pr[0]).inf

/-- A host write to PTAG: all four INF bits, no X or Y (10_state.md R26). -/
def Block.writePtag (b : Block) (v : Word) : Block :=
  { b with pr := Vector.ofFn fun i : Fin 4 => { b.pr[i] with inf := v.getLsbD i.val } }

/-- The interrupt output: `irq = CTRL.IE AND STATUS.DONE` at every instant (60_exceptions.md R230). -/
def Block.irq (b : Block) : Bool := b.ie && b.done

/-- The flags a launch clears: DONE, ERR and ONC; WERR is kept (60_exceptions.md R223). -/
def Block.clearFlags (b : Block) : Block := { b with done := false, err := .none, onc := false }

end Sys2Proof.Machine
end

