-- ==== Sys2Proof/Decode.lean ====
section
/-! DEFINITION. The decoder of command words (30_encoding.md R94) and of coprocessor requests
(40_coprocessor_ops.md R116), both total, and after them the encoder (30_encoding.md R98). -/

namespace Sys2Proof

/-- RD, bits 1:0 (30_encoding.md R91). -/
def fieldRD (w : Word) : Reg := (w.extractLsb' 0 2).toFin

/-- RA, bits 5:4 (30_encoding.md R91). -/
def fieldRA (w : Word) : Reg := (w.extractLsb' 4 2).toFin

/-- RB, bits 9:8 (30_encoding.md R91). -/
def fieldRB (w : Word) : Reg := (w.extractLsb' 8 2).toFin

/-- `Decode(w)` of 30_encoding.md R94, with the masks and matches of R93 (a mask covers the opcode
bits, so the test of `opc` is part of it). Every other word is ILLEGAL (R95). -/
def decodeCommand (w : Word) : Decoded :=
  if w &&& 0xFFFFFFCF#32 = 0x01000000#32 then .ok (.pchk (fieldRA w))
  else if w &&& 0xFFFFFCCC#32 = 0x02000000#32 then .ok (.padd (fieldRD w) (fieldRA w) (fieldRB w))
  else if w &&& 0xFFFFFFCC#32 = 0x03000000#32 then .ok (.pdbl (fieldRD w) (fieldRA w))
  else if w &&& 0xFFFFFFCC#32 = 0x04000000#32 then .ok (.ladder (fieldRD w) (fieldRA w))
  else .reject .illegalCommand

/-- The request on the port by its opcode (40_coprocessor_ops.md R116). MINV ignores `mreq_y` (R115). -/
def decodeRequest (r : Request) : Decoded :=
  if r.op = 0#3 then .ok (.madd r.x r.y r.m)
  else if r.op = 1#3 then .ok (.msub r.x r.y r.m)
  else if r.op = 2#3 then .ok (.mmul r.x r.y r.m)
  else if r.op = 3#3 then .ok (.minv r.x r.m)
  else .reject .reservedRequest

/-- The decoder of either format. -/
def decode : Encoded → Decoded
  | .command w => decodeCommand w
  | .request r => decodeRequest r

/-- Four bytes, lowest address first, as one word: little-endian (20_memory.md R65). -/
def wordOfBytes (b0 b1 b2 b3 : Byte) : Word := b3 ++ b2 ++ b1 ++ b0

/-- A command word given as the bytes a byte-addressed view shows (20_memory.md R65); any other number
of bytes is no command (30_encoding.md R90). -/
def decodeBytes : List Byte → Decoded
  | [b0, b1, b2, b3] => decodeCommand (wordOfBytes b0 b1 b2 b3)
  | _ => .reject .badLength

/-- A register index as a two-bit field (30_encoding.md R92). -/
def regBits (i : Reg) : BitVec 2 := BitVec.ofFin i

/-- The command word of a command (30_encoding.md R98): `0xOO000bad`. -/
def commandWord (opc : BitVec 8) (rb ra rd : Reg) : Word :=
  opc ++ 0#14 ++ regBits rb ++ 0#2 ++ regBits ra ++ 0#2 ++ regBits rd

/-- The encoder: a command as its word (30_encoding.md R98), a request as the signals on the port
(40_coprocessor_ops.md R116, with y sent as 0 for MINV). -/
def encode : Instr → Encoded
  | .pchk ra => .command (commandWord 0x01 0 ra 0)
  | .padd rd ra rb => .command (commandWord 0x02 rb ra rd)
  | .pdbl rd ra => .command (commandWord 0x03 0 ra rd)
  | .ladder rd ra => .command (commandWord 0x04 0 ra rd)
  | .madd x y m => .request { op := 0, x := x, y := y, m := m }
  | .msub x y m => .request { op := 1, x := x, y := y, m := m }
  | .mmul x y m => .request { op := 2, x := x, y := y, m := m }
  | .minv x m => .request { op := 3, x := x, y := 0, m := m }

/-- The bytes of a command word, lowest address first (20_memory.md R65). -/
def bytesOfWord (w : Word) : List Byte :=
  [w.extractLsb' 0 8, w.extractLsb' 8 8, w.extractLsb' 16 8, w.extractLsb' 24 8]

/-- The request whose opcode is `w` and whose operand signals are all zero. -/
def zeroRequest (w : Nat) : Request := { op := BitVec.ofNat 3 w, x := 0, y := 0, m := 0 }

/-- The instruction of an opcode-table row's word. Format CMD32 has 32 bits and goes to the decoder as
its four bytes; format MREQ is the 3-bit opcode (one byte, its upper bits absent), with operand signals
of zeros. -/
def decodeTableWord (nbits w : Nat) : Option Instr :=
  let d : Decoded :=
    if nbits ≤ 8 then
      if w < 8 then decodeRequest (zeroRequest w) else .reject .reservedRequest
    else if w < 2 ^ 32 then decodeBytes (bytesOfWord (BitVec.ofNat 32 w))
    else .reject .badLength
  match d with
  | .ok i => some i
  | .reject _ => none

end Sys2Proof
end

