-- ==== Sys2Proof/Machine/Coprocessor.lean ====
section
/-! DEFINITION. The coprocessor's four functions (40_coprocessor_ops.md R110 to R115), the engine's
requests to it (R116 to R118), and the meanings of MADD, MSUB, MMUL, MINV: the coprocessor answers the
request that stands on the port. -/

namespace Sys2Proof.Machine

/-! ## The functions -/

/-- `MAdd(x, y, m) = (x + y) mod m` over the integers (R112); a free value at m = 0 (R111, log 5). -/
def copAdd (x y m : Wide) : Wide :=
  if m = 0 then Config.copAtZero 0 x y else wide ((x.toNat + y.toNat) % m.toNat)

/-- `MSub(x, y, m) = (x - y) mod m`, the difference over the integers and `mod` never negative
(00_scope.md R9; R113); a free value at m = 0. -/
def copSub (x y m : Wide) : Wide :=
  if m = 0 then Config.copAtZero 1 x y
  else wide (((x.toNat : Int) - (y.toNat : Int)) % (m.toNat : Int)).toNat

/-- `MMul(x, y, m) = (x * y) mod m` over the integers (R114); a free value at m = 0. -/
def copMul (x y m : Wide) : Wide :=
  if m = 0 then Config.copAtZero 2 x y else wide ((x.toNat * y.toNat) % m.toNat)

/-- Euclid's algorithm on the remainders `r0`, `r1`, with `t0`, `t1` such that `t0 * x` and `t1 * x`
leave the same residues mod m. It ends at the gcd and its cofactor; `fuel` is at least `r1`. -/
def euclid (m : Nat) : Nat → Nat → Nat → Nat → Nat → Nat × Nat
  | 0, r0, _, t0, _ => (r0, t0)
  | fuel + 1, r0, r1, t0, t1 =>
    if r1 = 0 then (r0, t0)
    else euclid m fuel r1 (r0 % r1) t1 ((t0 + (m - r0 / r1 * t1 % m)) % m)

/-- The inverse of x mod m (m >= 1) where the gcd of `x mod m` and m is 1, and nothing otherwise. -/
def modInverse (x m : Nat) : Option Nat :=
  let g := euclid m m m (x % m) 0 (1 % m)
  if g.1 = 1 then some (g.2 % m) else none

/-- `MInv(x, m)`: the inverse, or nothing for the answer `Err` (R115); a free value at m = 0. -/
def copInv (x m : Wide) : Option Wide :=
  if m = 0 then Config.invAtZero x else (modInverse x.toNat m.toNat).map wide

/-! ## Sequences of requests inside one engine step -/

/-- A result without a request. -/
def Run.ret {α : Type} (v : α) : Run α := { res := .ok v, log := [] }

/-- `raise` (00_scope.md R11). -/
def Run.raise {α : Type} (c : Err) : Run α := { res := .fault c, log := [] }

/-- One evaluation and then another: a fault of the first is propagated at once and no further request
is sent (00_scope.md R11, 40_coprocessor_ops.md R122). -/
def Run.bind {α β : Type} (r : Run α) (f : α → Run β) : Run β :=
  match r.res with
  | .ok v => { res := (f v).res, log := r.log ++ (f v).log }
  | .fault c => { res := .fault c, log := r.log }

/-- The engine's request MADD and its answer (R112, R116). -/
def mAdd (x y m : Wide) : Run Wide :=
  { res := .ok (copAdd x y m), log := [{ op := 0, x := x, y := y, m := m }] }

/-- The engine's request MSUB and its answer (R113, R116). -/
def mSub (x y m : Wide) : Run Wide :=
  { res := .ok (copSub x y m), log := [{ op := 1, x := x, y := y, m := m }] }

/-- The engine's request MMUL and its answer (R114, R116). -/
def mMul (x y m : Wide) : Run Wide :=
  { res := .ok (copMul x y m), log := [{ op := 2, x := x, y := y, m := m }] }

/-- The engine's request MINV (y sent as 0) and its answer; `Err` raises ARITH (R115, R122). -/
def mInv (x m : Wide) : Run Wide :=
  { res := match copInv x m with
      | some r => .ok r
      | none => .fault .arith
    log := [{ op := 3, x := x, y := 0, m := m }] }

/-! ## The meanings of the four requests -/

/-- MADD: the answer is `(x + y) mod m`, `err` = 0 always (R112). -/
def execMadd (x y m : Wide) (s : State) : Host.Outcome State Fault Refusal :=
  .next (s.answer { op := 0, x := x, y := y, m := m } (.ok (Config.trunc s.cfg (copAdd x y m))))

/-- MSUB: the answer is `(x - y) mod m`, `err` = 0 always (R113). -/
def execMsub (x y m : Wide) (s : State) : Host.Outcome State Fault Refusal :=
  .next (s.answer { op := 1, x := x, y := y, m := m } (.ok (Config.trunc s.cfg (copSub x y m))))

/-- MMUL: the answer is `(x * y) mod m`, `err` = 0 always (R114). -/
def execMmul (x y m : Wide) (s : State) : Host.Outcome State Fault Refusal :=
  .next (s.answer { op := 2, x := x, y := y, m := m } (.ok (Config.trunc s.cfg (copMul x y m))))

/-- What the answer channel carries for MINV: a result, or `err` = 1 (R115, R116). -/
def invAnswer (c : Config) : Option Wide → Answer
  | some r => .ok (Config.trunc c r)
  | none => .err

/-- MINV: the answer is the inverse, or `Err` (R115). -/
def execMinv (x m : Wide) (s : State) : Host.Outcome State Fault Refusal :=
  .next (s.answer { op := 3, x := x, y := 0, m := m } (invAnswer s.cfg (copInv x m)))

end Sys2Proof.Machine
end

