-- ==== Sys2Proof/Machine/Operands.lean ====
section
/-! DEFINITION. The operand forms of the commands (30_encoding.md R92): a point operand by the index of
a point register (`Block.point`, in Ops), the curve always by CA, CB, CP, the scalar of LADDER always
by K, with the two accessors the controller computes itself (44_ladder.md R182). -/

namespace Sys2Proof.Machine

/-- `bitlen(k)`: 0 for 0, otherwise the n with 2^(n-1) <= k < 2^n (00_scope.md R9). -/
def bitlen (k : Nat) : Nat := if k = 0 then 0 else Nat.log2 k + 1

/-- `bitlen(K)` of the scalar register (44_ladder.md R182). -/
def Block.scalarLength (b : Block) : Nat := bitlen b.k.toNat

/-- `K[LI]`, the scalar bit of the pair of sub-operations in progress (44_ladder.md R186, R187). -/
def Block.scalarBit (b : Block) : Bool := b.k.getLsbD b.li

end Sys2Proof.Machine
end

