-- ==== Sys2Proof/Machine/Validator.lean ====
section
/-! DEFINITION. The curve validator and the command PCHK (41_validator.md). -/

namespace Sys2Proof.Machine

/-- `OnCurve(a, b, p, P)` (41_validator.md R130): true for `Inf` (R131), false out of range (R132), and
otherwise the congruence, by six requests in this order (R134). It never faults. -/
def onCurve (a b p : Wide) : Point → Run Bool
  | .inf => .ret true
  | .aff x y =>
    if p ≤ x ∨ p ≤ y then .ret false
    else
      (mMul y y p).bind fun t1 =>
      (mMul x x p).bind fun t2 =>
      (mMul t2 x p).bind fun t3 =>
      (mMul a x p).bind fun t4 =>
      (mAdd t3 t4 p).bind fun t5 =>
      (mAdd t5 b p).bind fun t6 =>
      .ret (decide (t1 = t6))

/-- PCHK's end (41_validator.md R136): ONC is the validator's answer and the command completes with 0.
The validator never faults; its `Fault` case is there for the type alone. -/
def Block.finishCheck (b : Block) : Result Bool → Block
  | .ok v => { b.complete .none with onc := v }
  | .fault c => b.complete c

/-- PCHK PRa, the single engine step of the command, taken with PH = EXEC (41_validator.md R136). -/
def execPchk (ra : Reg) (s : State) : Host.Outcome State Fault Refusal :=
  if s.blk.ph = .exec then
    let r := onCurve s.blk.ca s.blk.cb s.blk.cp (s.blk.point ra)
    .next (s.engine (s.blk.finishCheck r.res) r.log)
  else .fault .noEngineStep

end Sys2Proof.Machine
end

