-- ==== Sys2Proof/Machine/PointAdd.lean ====
section
/-! DEFINITION. The point-addition engine and the command PADD (42_point_add.md). -/

namespace Sys2Proof.Machine

/-- `PAdd(a, b, p, P, Q)` (42_point_add.md R140), its checks in the order of the rule: validation of
both (R141), identity (R142), equal points (R143), inverse pair (R144), the chord (R145; R153). -/
def pAdd (a b p : Wide) (P Q : Point) : Run Point :=
  (onCurve a b p P).bind fun okP =>
  if !okP then .raise .invalidPoint else
  (onCurve a b p Q).bind fun okQ =>
  if !okQ then .raise .invalidPoint else
  match P, Q with
  | .inf, _ => .ret Q
  | .aff _ _, .inf => .ret P
  | .aff xP yP, .aff xQ yQ =>
    if xP = xQ ∧ yP = yQ then .raise .equalPoints else
    (mAdd yP yQ p).bind fun s =>
    if xP = xQ ∧ s = 0 then .ret .inf else
    (mSub yQ yP p).bind fun n =>
    (mSub xQ xP p).bind fun d =>
    (mInv d p).bind fun i =>
    (mMul n i p).bind fun lam =>
    (mMul lam lam p).bind fun l2 =>
    (mSub l2 xP p).bind fun u =>
    (mSub u xQ p).bind fun xR =>
    (mSub xP xR p).bind fun v =>
    (mMul lam v p).bind fun w =>
    (mSub w yP p).bind fun yR =>
    .ret (.aff xR yR)

/-- PADD PRd, PRa, PRb, the single engine step of the command, taken with PH = EXEC (42_point_add.md
R146). The sources are read before the destination is written (R150). -/
def execPadd (rd ra rb : Reg) (s : State) : Host.Outcome State Fault Refusal :=
  if s.blk.ph = .exec then
    let r := pAdd s.blk.ca s.blk.cb s.blk.cp (s.blk.point ra) (s.blk.point rb)
    .next (s.engine (s.blk.finish rd r.res) r.log)
  else .fault .noEngineStep

end Sys2Proof.Machine
end

