-- ==== Sys2Proof/Machine/PointDouble.lean ====
section
/-! DEFINITION. The point-doubling engine and the command PDBL (43_point_double.md). -/

namespace Sys2Proof.Machine

/-- `PDbl(a, b, p, P)` (43_point_double.md R160), its checks in the order of the rule: validation
(R161), identity (R162), y = 0 (R163), the tangent (R164; R167). -/
def pDbl (a b p : Wide) (P : Point) : Run Point :=
  (onCurve a b p P).bind fun okP =>
  if !okP then .raise .invalidPoint else
  match P with
  | .inf => .ret .inf
  | .aff x y =>
    if y = 0 then .raise .doublingUndefined else
    (mMul x x p).bind fun t1 =>
    (mAdd t1 t1 p).bind fun t2 =>
    (mAdd t2 t1 p).bind fun t3 =>
    (mAdd t3 a p).bind fun t4 =>
    (mAdd y y p).bind fun t5 =>
    (mInv t5 p).bind fun t6 =>
    (mMul t4 t6 p).bind fun lam =>
    (mMul lam lam p).bind fun l2 =>
    (mSub l2 x p).bind fun u =>
    (mSub u x p).bind fun xR =>
    (mSub x xR p).bind fun v =>
    (mMul lam v p).bind fun w =>
    (mSub w y p).bind fun yR =>
    .ret (.aff xR yR)

/-- PDBL PRd, PRa, the single engine step of the command, taken with PH = EXEC (43_point_double.md
R166). -/
def execPdbl (rd ra : Reg) (s : State) : Host.Outcome State Fault Refusal :=
  if s.blk.ph = .exec then
    let r := pDbl s.blk.ca s.blk.cb s.blk.cp (s.blk.point ra)
    .next (s.engine (s.blk.finish rd r.res) r.log)
  else .fault .noEngineStep

end Sys2Proof.Machine
end

