-- ==== Sys2Proof/Machine/Ladder.lean ====
section
/-! DEFINITION. The Montgomery ladder: the function `Ladder`, the controller's two steps, and the command
LADDER (44_ladder.md). -/

namespace Sys2Proof.Machine

/-! ## The function -/

/-- The pair of sub-operations for a scalar bit (44_ladder.md R180): the addition and then the doubling,
the bit choosing only which accumulator each writes. -/
def ladderPair (a b p : Wide) (bit : Bool) (R0 R1 : Point) : Run (Point × Point) :=
  (pAdd a b p R0 R1).bind fun T =>
  if bit then (pDbl a b p R1).bind fun U => .ret (T, U)
  else (pDbl a b p R0).bind fun U => .ret (U, T)

/-- The ladder's loop over the bits `n - 1` down to 0 of `k` (44_ladder.md R180, R182). -/
def ladderLoop (a b p : Wide) (k : Nat) : Nat → Point → Point → Run Point
  | 0, R0, _ => .ret R0
  | n + 1, R0, R1 =>
    (ladderPair a b p (k.testBit n) R0 R1).bind fun R => ladderLoop a b p k n R.1 R.2

/-- `Ladder(a, b, p, P, k)` (44_ladder.md R180), with the early exit of R181. -/
def ladder (a b p : Wide) (P : Point) (k : Nat) : Run Point :=
  if P = .inf ∨ k = 0 then .ret .inf
  else ladderLoop a b p k (bitlen k) .inf P

/-! ## The controller -/

/-- The launch of a LADDER command (44_ladder.md R184). -/
def Block.launchLadder (b : Block) (ra : Reg) : Block :=
  if b.point ra = .inf ∨ b.k = 0 then { b with ph := .exec }
  else { b with lr0 := .inf, lr1 := b.point ra, li := b.scalarLength - 1, ph := .lAdd }

/-- What the L_ADD step does with the sum (44_ladder.md R186). -/
def Block.afterAdd (b : Block) : Result Point → Block
  | .fault c => b.complete c
  | .ok T => if b.scalarBit then { b with lr0 := T, ph := .lDbl } else { b with lr1 := T, ph := .lDbl }

/-- The operand of the doubling: LR1 when the bit is 1, LR0 when it is 0 (44_ladder.md R187). -/
def Block.doubleOperand (b : Block) : Point := if b.scalarBit then b.lr1 else b.lr0

/-- What the L_DBL step does with the double (44_ladder.md R187): it goes to the accumulator it was read
from; at index 0 the destination gets LR0 as just updated and the command completes. -/
def Block.afterDbl (b : Block) (rd : Reg) : Result Point → Block
  | .fault c => b.complete c
  | .ok T =>
    let b := if b.scalarBit then { b with lr1 := T } else { b with lr0 := T }
    if b.li = 0 then (b.setPoint rd b.lr0).complete .none
    else { b with li := b.li - 1, ph := .lAdd }

/-- The L_ADD step (44_ladder.md R186), with its event (R192). -/
def State.ladderAdd (s : State) : State :=
  let r := pAdd s.blk.ca s.blk.cb s.blk.cp s.blk.lr0 s.blk.lr1
  { s.engine (s.blk.afterAdd r.res) r.log with subOps := s.subOps ++ [.add] }

/-- The L_DBL step (44_ladder.md R187), with its event (R192). -/
def State.ladderDbl (s : State) (rd : Reg) : State :=
  let r := pDbl s.blk.ca s.blk.cb s.blk.cp s.blk.doubleOperand
  { s.engine (s.blk.afterDbl rd r.res) r.log with subOps := s.subOps ++ [.dbl] }

/-- LADDER PRd, PRa: the engine step the phase selects (60_exceptions.md R225): the early exit
(44_ladder.md R185), the addition (R186) or the doubling (R187). The source was read at launch (R201). -/
def execLadder (rd _ra : Reg) (s : State) : Host.Outcome State Fault Refusal :=
  match s.blk.ph with
  | .exec => .next (s.engine (s.blk.finish rd (.ok .inf)) [])
  | .lAdd => .next s.ladderAdd
  | .lDbl => .next (s.ladderDbl rd)
  | .idle => .fault .noEngineStep

end Sys2Proof.Machine
end

