-- ==== Sys2Proof/Machine/Bus.lean ====
section
/-! DEFINITION. The host's side: launches (60_exceptions.md R223, R224) and register accesses
(20_memory.md R62 to R69). -/

namespace Sys2Proof.Machine

/-- A launch: a host write of `w` to CMD when PH = IDLE (60_exceptions.md R223). A word that is no
command completes at once with ILLEGAL_CMD, PH stays IDLE (R224). -/
def Block.launch (b : Block) (w : Word) : Block :=
  let b := { b.clearFlags with cmdr := w }
  match decodeCommand w with
  | .ok (.pchk _) => { b with ph := .exec }
  | .ok (.padd _ _ _) => { b with ph := .exec }
  | .ok (.pdbl _ _) => { b with ph := .exec }
  | .ok (.ladder _ ra) => b.launchLadder ra
  -- a command word never decodes to a coprocessor request; these arms are the ILLEGAL case
  | .ok (.madd _ _ _) => { b with err := .illegalCmd, done := true }
  | .ok (.msub _ _ _) => { b with err := .illegalCmd, done := true }
  | .ok (.mmul _ _ _) => { b with err := .illegalCmd, done := true }
  | .ok (.minv _ _) => { b with err := .illegalCmd, done := true }
  | .reject _ => { b with err := .illegalCmd, done := true }

/-- What a legal read returns (20_memory.md R62). K reads as 0 (10_state.md R28). -/
def Block.readLoc (b : Block) (c : Config) : Loc → Word
  | .cmd => b.cmdr
  | .status => b.statusWord
  | .ctrl => b.ctrlWord
  | .id => idWord c
  | .ptag => b.ptagWord
  | .wide .k _ => 0
  | .wide r j => wordAt (b.getWide r) j
  | .reserved => 0

/-- A read of the window at an aligned offset. -/
def State.readOffset (s : State) (off : Nat) : Word := s.blk.readLoc s.cfg (locate s.cfg off)

/-- The byte a byte-addressed view shows at an offset: byte `b` of a word carries its bits 8b+7 to 8b
(20_memory.md R65). -/
def State.readByte (s : State) (off : Nat) : Byte :=
  (s.readOffset (4 * (off / 4))).extractLsb' (8 * (off % 4)) 8

/-- A write that the block blocks while busy: ignored, WERR set (20_memory.md R69); performed when idle. -/
def Block.unlessBusy (b : Block) (f : Block → Block) : Block :=
  if b.busy then { b with werr := true } else f b

/-- A legal write to a location (20_memory.md R63), but for the soft reset, which `State.writeOffset`
takes out first. -/
def Block.writeLoc (b : Block) (loc : Loc) (v : Word) : Block :=
  match loc with
  | .ctrl => { b with ie := v.getLsbD 0 }
  | .status => b.writeStatus v
  | .cmd => b.unlessBusy fun b => b.launch v
  | .ptag => b.unlessBusy fun b => b.writePtag v
  | .wide r j => b.unlessBusy fun b => b.setWide r (setWord (b.getWide r) j v)
  | .id => b
  | .reserved => b

/-- A legal write at an aligned offset (20_memory.md R63). A write to CTRL with bit 1 set is a soft
reset, and its IE bit is not stored (10_state.md R32). -/
def State.writeOffset (s : State) (off : Nat) (v : Word) : State :=
  if locate s.cfg off = .ctrl ∧ v.getLsbD 1 then s.softReset
  else { s with blk := s.blk.writeLoc (locate s.cfg off) v }

/-- The address lies in the block's window of 0x800 bytes at BASE (20_memory.md R67). -/
def State.inWindow (s : State) (addr : Nat) : Bool :=
  decide (s.cfg.base ≤ addr ∧ addr < s.cfg.base + 0x800)

/-- The only legal accesses: 4 bytes at a multiple of 4 (20_memory.md R64). -/
def legalAccess (addr n : Nat) : Bool := decide (n = 4 ∧ addr % 4 = 0)

/-- A rejected read: no register changes; the error response comes with a free value (R64; log 10). -/
def State.rejectRead (s : State) : State :=
  { s with bus := some (.readError (Config.illegalReadData s.freeIdx)), freeIdx := s.freeIdx + 1 }

/-- A host access. One that does not reach the window gets no answer from the block (20_memory.md R67;
log 11); while `rst_n` = 0 the block accepts none (70_reset_and_hazards.md R260; log 12). -/
def State.hostAccess (s : State) : Access → State
  | .read addr n =>
    if !s.rstN || !s.inWindow addr then { s with bus := none }
    else if legalAccess addr n then
      { s with bus := some (.data (s.readOffset (addr - s.cfg.base))) }
    else s.rejectRead
  | .write addr n v =>
    if !s.rstN || !s.inWindow addr then { s with bus := none }
    else if legalAccess addr n then
      { s.writeOffset (addr - s.cfg.base) v with bus := some .written }
    else { s with bus := some .writeError }

end Sys2Proof.Machine
end

