-- ==== Sys2Proof/Machine/Dispatch.lean ====
section
/-! DEFINITION. `exec`: one arm per instruction, each one call of its meaning. -/

namespace Sys2Proof.Machine

def exec (i : Instr) (s : State) : Host.Outcome State Fault Refusal :=
  match i with
  -- 41_validator.md R136
  | .pchk ra => Sys2Proof.Machine.execPchk ra s
  -- 42_point_add.md R146
  | .padd rd ra rb => Sys2Proof.Machine.execPadd rd ra rb s
  -- 43_point_double.md R166
  | .pdbl rd ra => Sys2Proof.Machine.execPdbl rd ra s
  -- 44_ladder.md R183 to R187
  | .ladder rd ra => Sys2Proof.Machine.execLadder rd ra s
  -- 40_coprocessor_ops.md R112 to R115
  | .madd x y m => Sys2Proof.Machine.execMadd x y m s
  | .msub x y m => Sys2Proof.Machine.execMsub x y m s
  | .mmul x y m => Sys2Proof.Machine.execMmul x y m s
  | .minv x m => Sys2Proof.Machine.execMinv x m s

end Sys2Proof.Machine
end

