-- ==== Sys2Proof/Machine/Sequencer.lean ====
section
/-! DEFINITION. Who moves: the instruction the block runs next, one move of the block's own agents
(60_exceptions.md R225), and one input. -/

namespace Sys2Proof.Machine

/-- The instruction the block's next move runs: the request outstanding on the coprocessor port, or else
the command in CMDR while PH is not IDLE (10_state.md R29, 60_exceptions.md R225), or else none. -/
def State.fetch (s : State) : Option Decoded :=
  match s.mreq with
  | some r => some (decodeRequest r)
  | none => if s.blk.busy then some (decodeCommand s.blk.cmdr) else none

/-- One move of the block. In reset and when idle nothing happens (70_reset_and_hazards.md R260,
60_exceptions.md R240). -/
def State.advance (s : State) : Host.Outcome State Fault Refusal :=
  if !s.rstN then .next s
  else
    match s.fetch with
    | none => .next s
    | some (.ok i) => exec i s
    | some (.reject .reservedRequest) => .fault .reservedRequest
    | some (.reject .illegalCommand) => .fault .noEngineStep
    | some (.reject .badLength) => .fault .noEngineStep

/-- One input taken (log 3). -/
def State.take (s : State) : Input → Host.Outcome State Fault Refusal
  | .access a => .next (s.hostAccess a)
  | .advance => s.advance
  | .resetLow => .next s.hardReset
  | .resetHigh => .next { s with rstN := true }

/-- The next move: the first input still to come, and with none left the block's own (weak fairness,
60_exceptions.md R225; log 3). -/
def State.move (s : State) : Host.Outcome State Fault Refusal :=
  match s.inputs with
  | [] => s.advance
  | i :: rest => State.take { s with inputs := rest } i

/-- A command word placed so that the next move runs it: the launch of 60_exceptions.md R223 from an
idle block, and the block's turn next (log 15). -/
def State.placeCommand (s : State) (w : Word) : State :=
  { s with
    rstN := true
    mreq := none
    blk := { s.blk with ph := .idle }.launch w
    inputs := .advance :: s.inputs }

/-- A request placed on the coprocessor port so that the next move answers it (log 7, log 15). -/
def State.placeRequest (s : State) (r : Request) : State :=
  { s with rstN := true, mreq := some r, inputs := .advance :: s.inputs }

end Sys2Proof.Machine
end

