-- ==== Sys2Proof/Machine/Step.lean ====
section
/-! DEFINITION. One step of the machine, and how a word of the opcode table is placed where the next
step runs it. -/

namespace Sys2Proof.Machine

/-- One step: one event of the total order of 20_memory.md R71. -/
def step (s : State) : Host.Outcome State Fault Refusal := s.move

/-- `s` with a row's word placed where the next step runs it: a request on the coprocessor port for
format MREQ (one byte), a launched command for format CMD32. -/
def State.withFetchWord (s : State) (nbits w : Nat) : State :=
  if nbits ≤ 8 then s.placeRequest (zeroRequest w) else s.placeCommand (BitVec.ofNat 32 w)

end Sys2Proof.Machine
end

