-- ==== Sys2Proof/Machine/HostScript.lean ====
section
/-! DEFINITION. The spec's own notation: the assembler text of an instruction (30_encoding.md R98) and
the host's pseudo-operations as lists of inputs (R99). Conventions for writing programs; no step of the
machine uses them. -/

namespace Sys2Proof.Machine

/-- `PRi` in assembler text. -/
def regText (i : Reg) : String := "PR" ++ toString i.val

/-- Assembler text, destination first (30_encoding.md R98); a request as 40_coprocessor_ops.md writes it. -/
def asmText : Instr → String
  | .pchk ra => "PCHK " ++ regText ra
  | .padd rd ra rb => "PADD " ++ regText rd ++ ", " ++ regText ra ++ ", " ++ regText rb
  | .pdbl rd ra => "PDBL " ++ regText rd ++ ", " ++ regText ra
  | .ladder rd ra => "LADDER " ++ regText rd ++ ", " ++ regText ra
  | .madd x y m => "MADD(" ++ toString x.toNat ++ ", " ++ toString y.toNat ++ ", " ++ toString m.toNat ++ ")"
  | .msub x y m => "MSUB(" ++ toString x.toNat ++ ", " ++ toString y.toNat ++ ", " ++ toString m.toNat ++ ")"
  | .mmul x y m => "MMUL(" ++ toString x.toNat ++ ", " ++ toString y.toNat ++ ", " ++ toString m.toNat ++ ")"
  | .minv x m => "MINV(" ++ toString x.toNat ++ ", " ++ toString m.toNat ++ ")"

/-- `WR reg, v` at an offset (30_encoding.md R99). -/
def wr (c : Config) (off : Nat) (v : Word) : Input := .access (.write (c.base + off) 4 v)

/-- `RD reg` at an offset (R99). -/
def rd (c : Config) (off : Nat) : Input := .access (.read (c.base + off) 4)

/-- `LDW reg, n`: every word of a wide register, word 0 first (R99). -/
def ldw (c : Config) (r : WideReg) (n : Wide) : List Input :=
  (List.range (r.words c)).map fun j => wr c (r.offset + 4 * j) (wordAt n j)

/-- `LDCURVE a, b, p` (R99). -/
def ldCurve (c : Config) (a b p : Wide) : List Input := ldw c .ca a ++ ldw c .cb b ++ ldw c .cp p

/-- `LDK k` (R99). -/
def ldk (c : Config) (k : Wide) : List Input := ldw c .k k

/-- `LDP PRi, (x, y)`, where `t` is the value the read of PTAG returns (R99). -/
def ldp (c : Config) (i : Reg) (x y : Wide) (t : Word) : List Input :=
  ldw c (.x i) x ++ ldw c (.y i) y ++ [rd c 0x010, wr c 0x010 (t &&& ~~~(1#32 <<< i.val))]

/-- `LDINF PRi`, where `t` is the value the read of PTAG returns (R99). -/
def ldInf (c : Config) (i : Reg) (t : Word) : List Input :=
  [rd c 0x010, wr c 0x010 (t ||| (1#32 <<< i.val))]

/-- `ISSUE <command>` (R99); a coprocessor request is no command and issues nothing. -/
def issue (c : Config) (i : Instr) : List Input :=
  match encode i with
  | .command w => [wr c 0x000 w]
  | .request _ => []

/-- `WAIT`, as `n` reads of STATUS with one move of the block before each (R99, 93_implementation_defined.md
U10): the host repeats until DONE reads 1. -/
def poll (c : Config) (n : Nat) : List Input :=
  (List.replicate n [Input.advance, rd c 0x004]).flatten

/-- `ACK` (R99). -/
def ack (c : Config) : List Input := [wr c 0x004 0x00000002]

/-- `SRST` (R99). -/
def srst (c : Config) : List Input := [wr c 0x008 0x00000002]

end Sys2Proof.Machine
end

