-- ==== Sys2Proof/Machine/Reference.lean ====
section
/-! DEFINITION. The reference function `Binary`, double-and-add (45_reference_binary.md R210). It is no
hardware: no state, no encoding, no step. -/

namespace Sys2Proof.Machine

/-- The loop over `n` more bits of `k`, from bit `i` up (45_reference_binary.md R210): the addition when
the bit is 1, then the doubling, "unconditionally". -/
def binaryLoop (a b p : Wide) (k : Nat) : Nat → Nat → Point → Point → Run Point
  | 0, _, Q, _ => .ret Q
  | n + 1, i, Q, T =>
    (if k.testBit i then pAdd a b p Q T else .ret Q).bind fun Q' =>
    (pDbl a b p T).bind fun T' => binaryLoop a b p k n (i + 1) Q' T'

/-- `Binary(a, b, p, P, k)` (45_reference_binary.md R210), with the early exit of R214. -/
def binary (a b p : Wide) (P : Point) (k : Nat) : Run Point :=
  if P = .inf ∨ k = 0 then .ret .inf
  else binaryLoop a b p k (bitlen k) 0 .inf P

end Sys2Proof.Machine
end

