-- ==== Sys2Proof/Safety.lean ====
section
/-! DEFINITION. The terms the claims use: what it is to be a point of the curve, the invariant of the
machine, and a safe run. -/

namespace Sys2Proof.Machine

/-- The spec's meaning of "on the curve", in plain arithmetic: the identity, or a pair below p with
y² ≡ x³ + a·x + b (mod p) (41_validator.md R130 to R132). -/
def Valid (a b p : Wide) : Point → Prop
  | .inf => True
  | .aff x y => x.toNat < p.toNat ∧ y.toNat < p.toNat ∧
      (y.toNat ^ 2) % p.toNat = (x.toNat ^ 3 + a.toNat * x.toNat + b.toNat) % p.toNat

/-- A point register of the block holds a point of the curve in its curve registers. -/
def Block.ValidPoint (b : Block) (P : Point) : Prop := Valid b.ca b.cb b.cp P

/-! ## Registers by their fields -/

/-- A point register is read as a value by its fields, whatever X and Y hold while INF is 1, and `PR[i]`
is register number i read so (10_state.md R24). -/
def ReadsPointsByFields : Prop :=
  (∀ r : PointReg, r.point = if r.inf then .inf else .aff r.x r.y) ∧
  (∀ (b : Block) (i : Reg), b.point i = (b.pr[i]).point)

/-- Each wide register is read from the field it names (10_state.md R42). -/
def ReadsWideByFields : Prop :=
  ∀ b : Block, b.getWide .ca = b.ca ∧ b.getWide .cb = b.cb ∧ b.getWide .cp = b.cp ∧ b.getWide .k = b.k ∧
    ∀ i : Reg, b.getWide (.x i) = (b.pr[i]).x ∧ b.getWide (.y i) = (b.pr[i]).y

/-- `t` is `b` with the wide register `r` holding `v`: every other wide register, every INF bit and all
else of the block are as in `b` (20_memory.md R63, 10_state.md R27). -/
structure Block.HoldsInstead (b : Block) (r : WideReg) (v : Wide) (t : Block) : Prop where
  named  : t.getWide r = v
  others : ∀ q, q ≠ r → t.getWide q = b.getWide q
  tags   : ∀ i : Reg, (t.pr[i]).inf = (b.pr[i]).inf
  rest   : t = { b with ca := t.ca, cb := t.cb, cp := t.cp, k := t.k, pr := t.pr }

/-- The two register files differ at most in X and Y of registers whose INF is 1 (10_state.md R24, R27). -/
def SamePoints (u v : Vector PointReg 4) : Prop :=
  ∀ i : Reg, (u[i]).inf = (v[i]).inf ∧
    ((v[i]).inf = false → (u[i]).x = (v[i]).x ∧ (u[i]).y = (v[i]).y)

/-! ## The curve's group (44_ladder.md R197, 45_reference_binary.md R213) -/

/-- The curve y² = x³ + a·x + b over the integers mod p (00_scope.md R1), as Mathlib's Weierstrass curve. -/
def curveOf (a b p : Wide) : WeierstrassCurve.Affine (ZMod p.toNat) :=
  { a₁ := 0, a₂ := 0, a₃ := 0, a₄ := a.toNat, a₆ := b.toNat }

/-- A valid curve: p an odd prime, 4a³ + 27b² not 0 mod p (00_scope.md R6). -/
def ValidCurve (a b p : Wide) : Prop :=
  p.toNat.Prime ∧ p.toNat ≠ 2 ∧ (4 * a.toNat ^ 3 + 27 * b.toNat ^ 2) % p.toNat ≠ 0

/-- A point value stands for an element of the curve's group: `Inf` for the neutral element, a pair
below p for the point with those coordinates. -/
def Represents {a b p : Wide} (P : Point) (M : (curveOf a b p).Point) : Prop :=
  match P, M with
  | .inf, .zero => True
  | .aff x y, .some u v _ => x.toNat < p.toNat ∧ y.toNat < p.toNat ∧
      (x.toNat : ZMod p.toNat) = u ∧ (y.toNat : ZMod p.toNat) = v
  | .inf, .some _ _ _ => False
  | .aff _ _, .zero => False

/-! ## The invariant -/

/-- The coordinates of a point value have W bits (10_state.md R36). -/
def Point.Fits (c : Config) : Point → Prop
  | .inf => True
  | .aff x y => x.toNat < 2 ^ c.w ∧ y.toNat < 2 ^ c.w

/-- Every wide register holds a value of its width (10_state.md R20: W bits, and KW for K). -/
structure Block.Fits (c : Config) (b : Block) : Prop where
  ca  : b.ca.toNat < 2 ^ c.w
  cb  : b.cb.toNat < 2 ^ c.w
  cp  : b.cp.toNat < 2 ^ c.w
  k   : b.k.toNat < 2 ^ c.kw
  x   : ∀ i : Reg, (b.pr[i]).x.toNat < 2 ^ c.w
  y   : ∀ i : Reg, (b.pr[i]).y.toNat < 2 ^ c.w
  lr0 : b.lr0.Fits c
  lr1 : b.lr1.Fits c

/-- The phase belongs to the command in CMDR (60_exceptions.md R225) and LI is an index of the scalar's
bits (10_state.md R35, R40). -/
def Block.PhaseMatches (b : Block) : Prop :=
  match b.ph with
  | .idle => True
  | .exec => ∃ i, decodeCommand b.cmdr = .ok i
  | .lAdd => (∃ rd ra, decodeCommand b.cmdr = .ok (.ladder rd ra)) ∧ b.li < b.scalarLength
  | .lDbl => (∃ rd ra, decodeCommand b.cmdr = .ok (.ladder rd ra)) ∧ b.li < b.scalarLength

/-- The sequencer is in order: the phase matches, the ladder's registers are clear outside the ladder's
phases (44_ladder.md R190), and the flags are clear while a command runs (60_exceptions.md R223). -/
structure Block.Sequenced (b : Block) : Prop where
  phase   : b.PhaseMatches
  quiet   : b.ph = .idle ∨ b.ph = .exec → b.lr0 = .inf ∧ b.lr1 = .inf ∧ b.li = 0
  running : b.ph ≠ .idle → b.done = false ∧ b.onc = false ∧ b.err = .none

/-- A request the port can carry: an opcode 0 to 3 and W-bit operands (40_coprocessor_ops.md R111, R116). -/
def RequestOk (c : Config) (r : Request) : Prop := r.op.toNat < 4 ∧ r.wf c = true

/-- An answer the port can carry: a W-bit result (40_coprocessor_ops.md R116). -/
def AnswerOk (c : Config) : Answer → Prop
  | .ok r => r.toNat < 2 ^ c.w
  | .err => True

/-- The invariant of the machine. -/
structure State.Inv (s : State) : Prop where
  cfg       : s.cfg.legal = true
  fits      : s.blk.Fits s.cfg
  sequenced : s.blk.Sequenced
  request   : ∀ r, s.mreq = some r → RequestOk s.cfg r
  answer    : ∀ a, s.mrsp = some a → AnswerOk s.cfg a
  held      : s.rstN = false → s.blk = Block.reset ∧ s.mreq = none
  sent      : ∀ r, r ∈ s.reqLog → RequestOk s.cfg r

/-- Every piece of the state holds the value the spec gives it after a reset (10_state.md R43), the
words the host reads included. -/
structure State.HoldsResetValues (s : State) : Prop where
  curve     : s.blk.ca = 0 ∧ s.blk.cb = 0 ∧ s.blk.cp = 0
  scalar    : s.blk.k = 0
  registers : ∀ i : Reg, s.blk.pr[i] = { inf := true, x := 0, y := 0 }
  points    : ∀ i : Reg, s.blk.point i = .inf
  latch     : s.blk.cmdr = 0
  flags     : s.blk.done = false ∧ s.blk.onc = false ∧ s.blk.werr = false ∧ s.blk.err = .none
  words     : s.blk.statusWord = 0x00000000 ∧ s.blk.ctrlWord = 0x00000000 ∧ s.blk.ptagWord = 0x0000000F
  enable    : s.blk.ie = false
  sequencer : s.blk.ph = .idle ∧ s.blk.li = 0 ∧ s.blk.lr0 = .inf ∧ s.blk.lr1 = .inf
  port      : s.mreq = none
  irq       : s.blk.irq = false

/-- The offsets of the register map that name a word of a wide register the host can read back
(10_state.md R42): the register and the word's number. -/
inductive NamesWide (c : Config) : Nat → WideReg → Nat → Prop where
  | ca (j : Nat) : j < c.nw → NamesWide c (0x080 + 4 * j) .ca j
  | cb (j : Nat) : j < c.nw → NamesWide c (0x100 + 4 * j) .cb j
  | cp (j : Nat) : j < c.nw → NamesWide c (0x180 + 4 * j) .cp j
  | k (j : Nat) : j < c.nkw → NamesWide c (0x200 + 4 * j) .k j
  | x (i : Reg) (j : Nat) : j < c.nw → NamesWide c (0x280 + 0x100 * i.val + 4 * j) (.x i) j
  | y (i : Reg) (j : Nat) : j < c.nw → NamesWide c (0x300 + 0x100 * i.val + 4 * j) (.y i) j

/-- The state with one host read of a 32-bit word at `BASE + off` as its first input. -/
def State.withRead (s : State) (off : Nat) (rest : List Input) : State :=
  { s with inputs := .access (.read (s.cfg.base + off) 4) :: rest }

/-- The state with one host write of a 32-bit word at `BASE + off` as its first input. -/
def State.withWrite (s : State) (off : Nat) (v : Word) (rest : List Input) : State :=
  { s with inputs := .access (.write (s.cfg.base + off) 4 v) :: rest }

/-- The state after a host write that changed the block to `b` and nothing else. -/
def State.written (s : State) (b : Block) (rest : List Input) : State :=
  { s with blk := b, inputs := rest, bus := some .written }

/-- `new` is `old` with word `j` replaced by `v`: word `j` reads `v`, every bit outside it is as before
(20_memory.md R63, R66). -/
def ReplacesWord (old new : Wide) (j : Nat) (v : Word) : Prop :=
  new.extractLsb' (32 * j) 32 = v ∧
    ∀ n, n < 32 * j ∨ 32 * j + 32 ≤ n → new.getLsbD n = old.getLsbD n

/-- The state with another scalar in K. -/
def State.withK (s : State) (k : Wide) : State := { s with blk := { s.blk with k := k } }

/-- The state with other contents in the point registers. -/
def State.withPR (s : State) (pr : Vector PointReg 4) : State :=
  { s with blk := { s.blk with pr := pr } }

/-- The destination register of an instruction (30_encoding.md R93), if it has one. -/
def dest : Instr → Option Reg
  | .pchk _ => none
  | .padd rd _ _ => some rd
  | .pdbl rd _ => some rd
  | .ladder rd _ => some rd
  | .madd _ _ _ => none
  | .msub _ _ _ => none
  | .mmul _ _ _ => none
  | .minv _ _ => none

/-- One of the four commands (30_encoding.md R93), not a coprocessor request. -/
def IsCommand : Instr → Prop
  | .pchk _ => True
  | .padd _ _ _ => True
  | .pdbl _ _ => True
  | .ladder _ _ => True
  | .madd _ _ _ => False
  | .msub _ _ _ => False
  | .mmul _ _ _ => False
  | .minv _ _ => False

/-- The block after the completion of a command (60_exceptions.md R226): the point registers, ONC and
ERR as given, DONE set, the sequencer idle and cleared, all else as before. -/
def Block.completed (b : Block) (pr : Vector PointReg 4) (onc : Bool) (e : Err) : Block :=
  { b with pr := pr, onc := onc, err := e, done := true, lr0 := .inf, lr1 := .inf, li := 0, ph := .idle }

/-- The block after a command that yields a point (42_point_add.md R146): on `Ok(R)` the destination
holds R in the canonical encoding (10_state.md R25), on a fault no point register changes. -/
def Block.completedWith (b : Block) (rd : Reg) : Result Point → Block
  | .ok .inf => b.completed (b.pr.set rd { inf := true, x := 0, y := 0 }) b.onc .none
  | .ok (.aff x y) => b.completed (b.pr.set rd { inf := false, x := x, y := y }) b.onc .none
  | .fault c => b.completed b.pr b.onc c

/-- What the addition engine answers, in plain arithmetic on the operands (42_point_add.md R141 to
R145, R153): which fault, or which point. -/
def AddAnswers (a b p : Wide) (P Q : Point) (r : Result Point) : Prop :=
  (¬ (Valid a b p P ∧ Valid a b p Q) → r = .fault .invalidPoint) ∧
  (Valid a b p P ∧ Valid a b p Q →
    match P, Q with
    | .inf, _ => r = .ok Q
    | .aff _ _, .inf => r = .ok P
    | .aff xP yP, .aff xQ yQ =>
      if xP = xQ ∧ yP = yQ then r = .fault .equalPoints
      else if xP = xQ ∧ (yP.toNat + yQ.toNat) % p.toNat = 0 then r = .ok .inf
      else if Int.gcd ((xQ.toNat : Int) - xP.toNat) p.toNat ≠ 1 then r = .fault .arith
      else ∃ (lam : Int) (xR yR : Wide), r = .ok (.aff xR yR) ∧
        (lam * ((xQ.toNat : Int) - xP.toNat)) % p.toNat = ((yQ.toNat : Int) - yP.toNat) % p.toNat ∧
        (xR.toNat : Int) = (lam ^ 2 - xP.toNat - xQ.toNat) % p.toNat ∧
        (yR.toNat : Int) = (lam * ((xP.toNat : Int) - xR.toNat) - yP.toNat) % p.toNat)

/-- What the doubling engine answers, in plain arithmetic on the operand (43_point_double.md R161 to
R164, R167). -/
def DoubleAnswers (a b p : Wide) (P : Point) (r : Result Point) : Prop :=
  (¬ Valid a b p P → r = .fault .invalidPoint) ∧
  (Valid a b p P →
    match P with
    | .inf => r = .ok .inf
    | .aff x y =>
      if y = 0 then r = .fault .doublingUndefined
      else if Nat.gcd (2 * y.toNat) p.toNat ≠ 1 then r = .fault .arith
      else ∃ (lam : Int) (xR yR : Wide), r = .ok (.aff xR yR) ∧
        (lam * (2 * (y.toNat : Int))) % p.toNat = (3 * (x.toNat : Int) ^ 2 + a.toNat) % p.toNat ∧
        (xR.toNat : Int) = (lam ^ 2 - 2 * x.toNat) % p.toNat ∧
        (yR.toNat : Int) = (lam * ((x.toNat : Int) - xR.toNat) - y.toNat) % p.toNat)

/-- The opcodes of a sequence of requests, in order (40_coprocessor_ops.md R116). -/
def ops (l : List Request) : List Nat := l.map fun r => r.op.toNat

/-- The opcodes the validator sends for an operand: none for `Inf` or a coordinate out of range, else
MMUL four times and MADD twice (41_validator.md R134). -/
def validatorOps (p : Wide) : Point → List Nat
  | .inf => []
  | .aff x y => if x.toNat < p.toNat ∧ y.toNat < p.toNat then [2, 2, 2, 2, 0, 0] else []

/-- Every run from the state goes on: no number of steps ends in a fault or a refusal. -/
def State.RunsForever (s : State) : Prop := ∀ n, ∃ t, Host.Core.run Sys2Proof.core n s = .next t

end Sys2Proof.Machine
end

