-- ==== Sys2Proof/Certificates/Slice0/Obligations.lean ====
section
/-! DEFINITION. The statements for the provers, from the numbered rules of spec/. -/

open Sys2Proof Sys2Proof.Machine

/-! ## Encodings -/

/-- 30_encoding.md R100: the worked encodings, and the six illegal words. -/
def Obligations.WorkedEncodings : Prop :=
  (decodeCommand 0x01000020 = .ok (.pchk 2) ∧ encode (.pchk 2) = .command 0x01000020) ∧
  (decodeCommand 0x02000213 = .ok (.padd 3 1 2) ∧ encode (.padd 3 1 2) = .command 0x02000213) ∧
  (decodeCommand 0x02000100 = .ok (.padd 0 0 1) ∧ encode (.padd 0 0 1) = .command 0x02000100) ∧
  (decodeCommand 0x03000001 = .ok (.pdbl 1 0) ∧ encode (.pdbl 1 0) = .command 0x03000001) ∧
  (decodeCommand 0x03000000 = .ok (.pdbl 0 0) ∧ encode (.pdbl 0 0) = .command 0x03000000) ∧
  (decodeCommand 0x04000020 = .ok (.ladder 0 2) ∧ encode (.ladder 0 2) = .command 0x04000020) ∧
  (decodeCommand 0x04000033 = .ok (.ladder 3 3) ∧ encode (.ladder 3 3) = .command 0x04000033) ∧
  decodeCommand 0x00000000 = .reject .illegalCommand ∧
  decodeCommand 0x05000000 = .reject .illegalCommand ∧
  decodeCommand 0x02000400 = .reject .illegalCommand ∧
  decodeCommand 0x01000021 = .reject .illegalCommand ∧
  decodeCommand 0x03000100 = .reject .illegalCommand ∧
  decodeCommand 0x02000004 = .reject .illegalCommand

/-- Both directions of decode and encode (30_encoding.md R93, R94, R98; 40_coprocessor_ops.md R115,
R116): a word decodes to an instruction exactly when it is that instruction's encoding; a request on the
port exactly when its opcode is 0 to 3 and, with the ignored y of MINV read as 0, it is the encoding. -/
def Obligations.DecodeIsTheInverseOfEncode : Prop :=
  (∀ (w : Word) (i : Instr), decodeCommand w = .ok i ↔ encode i = .command w) ∧
  (∀ (r : Request) (i : Instr), decodeRequest r = .ok i ↔
    encode i = .request { r with y := if r.op = 3 then 0 else r.y })

/-- 30_encoding.md R95: which words are illegal, field by field, and what writing one to an idle block
does. -/
def Obligations.IllegalWordsFieldByField : Prop :=
  ∀ w : Word,
    (decodeCommand w = .reject .illegalCommand ↔
      let opc := (w.extractLsb' 24 8).toNat
      (opc < 0x01 ∨ 0x04 < opc) ∨
      w.extractLsb' 10 14 ≠ 0 ∨ w.extractLsb' 6 2 ≠ 0 ∨ w.extractLsb' 2 2 ≠ 0 ∨
      (opc = 0x01 ∧ (w.extractLsb' 0 2 ≠ 0 ∨ w.extractLsb' 8 2 ≠ 0)) ∨
      ((opc = 0x03 ∨ opc = 0x04) ∧ w.extractLsb' 8 2 ≠ 0)) ∧
    ((∃ i, decodeCommand w = .ok i) ∨ decodeCommand w = .reject .illegalCommand) ∧
    ∀ (s : State) (rest : List Input), s.cfg.legal = true → s.rstN = true → s.blk.ph = .idle →
      decodeCommand w = .reject .illegalCommand →
      step (s.withWrite 0x000 w rest) =
        .next (s.written { s.blk with cmdr := w, err := .illegalCmd, done := true, onc := false } rest)

/-- 20_memory.md R65: the byte at offset A + b of the word at A carries bits 8b+7 to 8b, the four bytes
of a command word are in that order, and they decode as the word. -/
def Obligations.BytesAreLittleEndian : Prop :=
  (∀ (s : State) (off b : Nat), off % 4 = 0 → b < 4 → ∀ n, n < 8 →
    (s.readByte (off + b)).getLsbD n = (s.readOffset off).getLsbD (8 * b + n)) ∧
  (∀ w : Word, (bytesOfWord w).length = 4 ∧ decodeBytes (bytesOfWord w) = decodeCommand w ∧
    ∀ b, b < 4 → ∃ x : Byte, (bytesOfWord w)[b]? = some x ∧
      ∀ n, n < 8 → x.getLsbD n = w.getLsbD (8 * b + n))

/-! ## Reset -/

/-- 10_state.md R43: the reset values, after either reset, on every instance. -/
def Obligations.ResetValuesAfterEitherReset : Prop :=
  (∀ c : Config, (State.resetOf c).HoldsResetValues) ∧
  (∀ (s : State) (v : Word) (rest : List Input), s.cfg.legal = true → s.rstN = true →
    v.getLsbD 1 = true →
    ∃ t, step (s.withWrite 0x008 v rest) = .next t ∧ t.HoldsResetValues) ∧
  (∀ (s : State) (rest : List Input),
    ∃ t, step { s with inputs := .resetLow :: rest } = .next t ∧ t.HoldsResetValues)

/-- 70_reset_and_hazards.md R261: a soft reset from any state, busy or not: the reset values, the
running command abandoned without a completion, an outstanding request withdrawn and no late answer
seen, SRST reading 0. -/
def Obligations.SoftResetAbandonsEverything : Prop :=
  ∀ (s : State) (v : Word) (rest : List Input), s.cfg.legal = true → s.rstN = true →
    v.getLsbD 1 = true →
    ∃ t, step (s.withWrite 0x008 v rest) = .next t ∧ t.HoldsResetValues ∧
      t.mreq = none ∧ t.mrsp = none ∧ t.readOffset 0x008 = 0 ∧
      t = { s with blk := t.blk, mreq := none, mrsp := none, inputs := rest, bus := some .written }

/-- 70_reset_and_hazards.md R260: `rst_n` at 0 puts the block in its reset state and keeps it there
whatever the host or the block's own turn would do; when it returns to 1 the block is in the reset state
and its own turn changes nothing. (That an access in reset gets no answer is the model's choice, log 12.) -/
def Obligations.HardwareResetHoldsTheBlock : Prop :=
  (∀ (s : State) (rest : List Input),
    step { s with inputs := .resetLow :: rest } =
      .next { s with blk := Block.reset, rstN := false, mreq := none, mrsp := none, inputs := rest }) ∧
  (∀ (s : State) (rest : List Input), s.rstN = false →
    (∀ a, ∃ t, step { s with inputs := .access a :: rest } = .next t ∧ t.blk = s.blk ∧ t.rstN = false ∧
      t.mreq = s.mreq) ∧
    step { s with inputs := .advance :: rest } = .next { s with inputs := rest } ∧
    step { s with inputs := [] } = .next { s with inputs := [] } ∧
    step { s with inputs := .resetHigh :: rest } = .next { s with rstN := true, inputs := rest }) ∧
  (∀ (s : State) (rest : List Input), s.rstN = true → s.blk = Block.reset → s.mreq = none →
    step { s with inputs := .advance :: rest } = .next { s with inputs := rest } ∧
    step { s with inputs := [] } = .next { s with inputs := [] })

/-- 70_reset_and_hazards.md R263: straight after reset every command is accepted and completes, PCHK
with ONC = 1, the others with `Inf` in the destination, none sends a request and none looks at CA, CB
or CP (here: whatever the three hold). -/
def Obligations.EveryCommandRunsFromReset : Prop :=
  ∀ (c : Config) (i : Instr) (w : Word) (a b p : Wide), c.legal = true → encode i = .command w →
    ∃ t, Host.Core.run Sys2Proof.core 2
        { State.resetOf c with
          blk := { Block.reset with ca := a, cb := b, cp := p }
          inputs := [wr c 0x000 w] } = .next t ∧
      t.reqLog = [] ∧ t.bus = some .written ∧
      t.blk = { Block.reset with
        ca := a, cb := b, cp := p, cmdr := w, done := true, onc := decide (dest i = none) }

/-! ## Register accesses -/

/-- 20_memory.md R62: what a legal read returns, offset by offset, and that it changes no state of the
block (only the model's own record of the answer). The numbers of ERR are those of 60_exceptions.md R220. -/
def Obligations.ReadsFollowTheRegisterMap : Prop :=
  ReadsWideByFields ∧
  (Err.code .none = 0 ∧ Err.code .invalidPoint = 1 ∧ Err.code .equalPoints = 2 ∧
    Err.code .doublingUndefined = 3 ∧ Err.code .arith = 4 ∧ Err.code .illegalCmd = 5) ∧
  ∀ (s : State) (off : Nat) (rest : List Input), s.cfg.legal = true → s.rstN = true →
    off % 4 = 0 → off < 0x800 →
    ∃ v, step (s.withRead off rest) = .next { s with inputs := rest, bus := some (.data v) } ∧
      (off = 0x000 → v = s.blk.cmdr) ∧
      (off = 0x004 → v = 0#24 ++ s.blk.err.code ++ BitVec.ofBool s.blk.werr ++ BitVec.ofBool s.blk.onc
        ++ BitVec.ofBool s.blk.done ++ BitVec.ofBool (decide (s.blk.ph ≠ .idle))) ∧
      (off = 0x008 → v = 0#31 ++ BitVec.ofBool s.blk.ie) ∧
      (off = 0x00C → v.toNat = 0x10000 + 0x100 * s.cfg.nkw + s.cfg.nw) ∧
      (off = 0x010 → v = 0#28 ++ BitVec.ofBool s.blk.pr[3].inf ++ BitVec.ofBool s.blk.pr[2].inf
        ++ BitVec.ofBool s.blk.pr[1].inf ++ BitVec.ofBool s.blk.pr[0].inf) ∧
      (∀ r j, NamesWide s.cfg off r j →
        v = if r = .k then 0 else (s.blk.getWide r).extractLsb' (32 * j) 32) ∧
      (off ∉ [0x000, 0x004, 0x008, 0x00C, 0x010] → (¬ ∃ r j, NamesWide s.cfg off r j) → v = 0)

/-- 20_memory.md R63 and R69: what a legal write does, offset by offset: CTRL and STATUS at all times,
a blocked register only when idle (else ignored, WERR set), nothing anywhere else. The launch by CMD has
its own statement (`LaunchByCommand`). -/
def Obligations.WritesFollowTheRegisterMap : Prop :=
  ReadsWideByFields ∧
  ∀ (s : State) (off : Nat) (v : Word) (rest : List Input), s.cfg.legal = true → s.rstN = true →
    off % 4 = 0 → off < 0x800 →
    (off = 0x008 → v.getLsbD 1 = true → ∃ t, step (s.withWrite off v rest) = .next t ∧
      t.blk = Block.reset ∧ t.mreq = none) ∧
    (off = 0x008 → v.getLsbD 1 = false →
      step (s.withWrite off v rest) = .next (s.written { s.blk with ie := v.getLsbD 0 } rest)) ∧
    (off = 0x004 → step (s.withWrite off v rest) = .next (s.written
      { s.blk with
        done := if v.getLsbD 1 then false else s.blk.done
        werr := if v.getLsbD 3 then false else s.blk.werr } rest)) ∧
    (s.blk.ph ≠ .idle → (off = 0x000 ∨ off = 0x010 ∨ ∃ r j, NamesWide s.cfg off r j) →
      step (s.withWrite off v rest) = .next (s.written { s.blk with werr := true } rest)) ∧
    (s.blk.ph = .idle → off = 0x000 →
      step (s.withWrite off v rest) = .next (s.written (s.blk.launch v) rest)) ∧
    (s.blk.ph = .idle → off = 0x010 → ∃ pr : Vector PointReg 4, (∀ i : Reg, pr[i] = { s.blk.pr[i] with inf := v.getLsbD i.val }) ∧
      step (s.withWrite off v rest) = .next (s.written { s.blk with pr := pr } rest)) ∧
    (s.blk.ph = .idle → ∀ r j, NamesWide s.cfg off r j →
      ∃ new b, ReplacesWord (s.blk.getWide r) new j v ∧ s.blk.HoldsInstead r new b ∧
        step (s.withWrite off v rest) = .next (s.written b rest)) ∧
    (off ∉ [0x000, 0x004, 0x008, 0x010] → (¬ ∃ r j, NamesWide s.cfg off r j) →
      step (s.withWrite off v rest) = .next (s.written s.blk rest))

/-- 20_memory.md R64: an access that is not 4 bytes at a multiple of 4 changes no state of the block and
no interface but for the error response; the value a read returns is unspecified. -/
def Obligations.IllegalAccessesAreRejected : Prop :=
  ∀ (s : State) (addr n : Nat) (v : Word) (rest : List Input), s.rstN = true →
    s.cfg.base ≤ addr → addr < s.cfg.base + 0x800 → ¬ (n = 4 ∧ addr % 4 = 0) →
    (∃ u k, step { s with inputs := .access (.read addr n) :: rest } =
      .next { s with inputs := rest, bus := some (.readError u), freeIdx := k }) ∧
    step { s with inputs := .access (.write addr n v) :: rest } =
      .next { s with inputs := rest, bus := some .writeError }

/-- Derived from 20_memory.md R67 ("Addresses outside the window do not reach the block"; that an access
is placed by its first address is the model's choice, log 11). -/
def Obligations.AccessesOutsideTheWindowDoNothing : Prop :=
  ∀ (s : State) (addr n : Nat) (v : Word) (rest : List Input),
    addr < s.cfg.base ∨ s.cfg.base + 0x800 ≤ addr →
    step { s with inputs := .access (.read addr n) :: rest } = .next { s with inputs := rest, bus := none } ∧
    step { s with inputs := .access (.write addr n v) :: rest } = .next { s with inputs := rest, bus := none }

/-- Derived from 20_memory.md R66 and 30_encoding.md R99: the pseudo-operation LDW, a write of every word
of a wide register of an idle block, leaves that register holding the value and changes nothing else. -/
def Obligations.LoadingEveryWordLoadsTheValue : Prop :=
  ReadsWideByFields ∧
  ∀ (s : State) (r : WideReg) (n : Wide) (rest : List Input), s.Inv → s.rstN = true → s.blk.ph = .idle →
    n.toNat < 2 ^ (32 * r.words s.cfg) →
    ∃ b, s.blk.HoldsInstead r n b ∧
      Host.Core.run Sys2Proof.core (r.words s.cfg) { s with inputs := ldw s.cfg r n ++ rest } =
        .next (s.written b rest)

/-! ## Launch, completion, interrupt -/

/-- 60_exceptions.md R223 with 44_ladder.md R184: the launch of a legal command by a write to CMD. WERR
and every other field are kept; BUSY reads 1 from here. -/
def Obligations.LaunchByCommand : Prop :=
  ReadsPointsByFields ∧
  ∀ (s : State) (w : Word) (rest : List Input), s.cfg.legal = true → s.rstN = true →
    s.blk.ph = .idle →
    (∀ ra, decodeCommand w = .ok (.pchk ra) → step (s.withWrite 0x000 w rest) = .next (s.written
      { s.blk with cmdr := w, done := false, err := .none, onc := false, ph := .exec } rest)) ∧
    (∀ rd ra rb, decodeCommand w = .ok (.padd rd ra rb) → step (s.withWrite 0x000 w rest) = .next (s.written
      { s.blk with cmdr := w, done := false, err := .none, onc := false, ph := .exec } rest)) ∧
    (∀ rd ra, decodeCommand w = .ok (.pdbl rd ra) → step (s.withWrite 0x000 w rest) = .next (s.written
      { s.blk with cmdr := w, done := false, err := .none, onc := false, ph := .exec } rest)) ∧
    (∀ rd ra, decodeCommand w = .ok (.ladder rd ra) → s.blk.point ra = .inf ∨ s.blk.k = 0 →
      step (s.withWrite 0x000 w rest) = .next (s.written
        { s.blk with cmdr := w, done := false, err := .none, onc := false, ph := .exec } rest)) ∧
    (∀ rd ra, decodeCommand w = .ok (.ladder rd ra) → s.blk.point ra ≠ .inf → s.blk.k ≠ 0 →
      ∃ n, 2 ^ n ≤ s.blk.k.toNat ∧ s.blk.k.toNat < 2 ^ (n + 1) ∧
        step (s.withWrite 0x000 w rest) = .next (s.written
          { s.blk with
            cmdr := w, done := false, err := .none, onc := false
            lr0 := .inf, lr1 := s.blk.point ra, li := n, ph := .lAdd } rest)) ∧
    (decodeCommand w = .reject .illegalCommand → step (s.withWrite 0x000 w rest) = .next (s.written
      { s.blk with cmdr := w, done := true, err := .illegalCmd, onc := false } rest))

/-- 60_exceptions.md R226: the completion. An engine step of a running command (DONE is 0 while it runs)
sets DONE exactly when it makes PH idle; then ERR is 0 to 4, the accumulators and LI are clear, and a
point register or ONC is written only when ERR is 0. CMDR, K, the curve, WERR and IE stay. -/
def Obligations.CompletionIsOneTransition : Prop :=
  ∀ (i : Instr) (s t : State), IsCommand i → s.blk.done = false → exec i s = .next t →
    (t.blk.done = true ↔ t.blk.ph = .idle) ∧
    (t.blk.ph = .idle →
      t.blk.err ≠ .illegalCmd ∧ t.blk.lr0 = .inf ∧ t.blk.lr1 = .inf ∧ t.blk.li = 0 ∧
      (t.blk.err ≠ .none → t.blk.pr = s.blk.pr ∧ t.blk.onc = s.blk.onc)) ∧
    (t.blk.ph ≠ .idle → t.blk.pr = s.blk.pr ∧ t.blk.onc = s.blk.onc ∧ t.blk.err = s.blk.err) ∧
    t.blk.cmdr = s.blk.cmdr ∧ t.blk.k = s.blk.k ∧ t.blk.ca = s.blk.ca ∧ t.blk.cb = s.blk.cb ∧
    t.blk.cp = s.blk.cp ∧ t.blk.werr = s.blk.werr ∧ t.blk.ie = s.blk.ie

/-- 60_exceptions.md R228: a command that faults changes nothing but ERR, DONE and the hidden sequencer
state at its completion, and nothing but ERR, DONE, ONC and CMDR when the fault is its launch. -/
def Obligations.FaultsArePrecise : Prop :=
  (∀ (i : Instr) (s t : State), IsCommand i → s.blk.done = false → exec i s = .next t →
    t.blk.done = true → t.blk.err ≠ .none → t.blk = s.blk.completed s.blk.pr s.blk.onc t.blk.err) ∧
  (∀ (s : State) (w : Word) (rest : List Input), s.cfg.legal = true → s.rstN = true →
    s.blk.ph = .idle →
    decodeCommand w = .reject .illegalCommand →
    ∃ t, step (s.withWrite 0x000 w rest) = .next t ∧
      t.blk = { s.blk with err := t.blk.err, done := t.blk.done, onc := t.blk.onc, cmdr := w })

/-- 60_exceptions.md R230: `irq` is raised by every completion while IE is 1, by setting IE while DONE is
1, and by an illegal command; it is lowered by clearing DONE, by a launch, by clearing IE, and by reset. -/
def Obligations.IrqIsALevel : Prop :=
  (∀ b : Block, b.irq = (b.ie && b.done)) ∧
  (∀ (i : Instr) (s t : State), IsCommand i → exec i s = .next t → t.blk.ph = .idle →
    t.blk.irq = s.blk.ie) ∧
  (∀ (s : State) (w : Word) (rest : List Input), s.cfg.legal = true → s.rstN = true →
    s.blk.ph = .idle →
    ∃ t, step (s.withWrite 0x000 w rest) = .next t ∧
      (decodeCommand w = .reject .illegalCommand → t.blk.irq = s.blk.ie) ∧
      ((∃ i, decodeCommand w = .ok i) → t.blk.irq = false)) ∧
  (∀ (s : State) (v : Word) (rest : List Input), s.cfg.legal = true → s.rstN = true →
    v.getLsbD 1 = true →
    ∃ t, step (s.withWrite 0x004 v rest) = .next t ∧ t.blk.irq = false) ∧
  (∀ (s : State) (v : Word) (rest : List Input), s.cfg.legal = true → s.rstN = true →
    ∃ t, step (s.withWrite 0x008 v rest) = .next t ∧
      t.blk.irq = (!v.getLsbD 1 && v.getLsbD 0 && s.blk.done)) ∧
  (∀ (s : State) (rest : List Input),
    ∃ t, step { s with inputs := .resetLow :: rest } = .next t ∧ t.blk.irq = false)

/-! ## The coprocessor's requests -/

/-- 40_coprocessor_ops.md R112: MADD, for every pair of W-bit operands and every modulus m >= 1. -/
def Obligations.MaddAddsModulo : Prop :=
  (∀ x y m : Wide, encode (.madd x y m) = .request { op := 0, x := x, y := y, m := m }) ∧
  ∀ (x y m : Wide) (s : State), (Instr.madd x y m).wf s.cfg = true → m ≠ 0 →
    ∃ r : Wide, r.toNat = (x.toNat + y.toNat) % m.toNat ∧
      exec (.madd x y m) s = .next { s with
        mreq := none, mrsp := some (.ok r)
        reqLog := s.reqLog ++ [{ op := 0, x := x, y := y, m := m }] }

/-- 40_coprocessor_ops.md R113: MSUB, the difference over the integers, never a negative result. -/
def Obligations.MsubSubtractsModulo : Prop :=
  (∀ x y m : Wide, encode (.msub x y m) = .request { op := 1, x := x, y := y, m := m }) ∧
  ∀ (x y m : Wide) (s : State), (Instr.msub x y m).wf s.cfg = true → m ≠ 0 →
    ∃ r : Wide, (r.toNat : Int) = ((x.toNat : Int) - y.toNat) % m.toNat ∧
      exec (.msub x y m) s = .next { s with
        mreq := none, mrsp := some (.ok r)
        reqLog := s.reqLog ++ [{ op := 1, x := x, y := y, m := m }] }

/-- 40_coprocessor_ops.md R114: MMUL, the product over the integers before reduction. -/
def Obligations.MmulMultipliesModulo : Prop :=
  (∀ x y m : Wide, encode (.mmul x y m) = .request { op := 2, x := x, y := y, m := m }) ∧
  ∀ (x y m : Wide) (s : State), (Instr.mmul x y m).wf s.cfg = true → m ≠ 0 →
    ∃ r : Wide, r.toNat = (x.toNat * y.toNat) % m.toNat ∧
      exec (.mmul x y m) s = .next { s with
        mreq := none, mrsp := some (.ok r)
        reqLog := s.reqLog ++ [{ op := 2, x := x, y := y, m := m }] }

/-- 40_coprocessor_ops.md R115: MINV, the unique inverse below m where the gcd is 1, and `Err` otherwise;
the y operand is sent as 0 and ignored. -/
def Obligations.MinvInvertsOrRejects : Prop :=
  (∀ x m : Wide, encode (.minv x m) = .request { op := 3, x := x, y := 0, m := m }) ∧
  (∀ x y m : Wide, decodeRequest { op := 3, x := x, y := y, m := m } = .ok (.minv x m)) ∧
  ∀ (x m : Wide) (s : State), (Instr.minv x m).wf s.cfg = true → m ≠ 0 →
    (Nat.gcd (x.toNat % m.toNat) m.toNat = 1 →
      ∃ r : Wide, r.toNat < m.toNat ∧ (x.toNat * r.toNat) % m.toNat = 1 % m.toNat ∧
        (∀ q, q < m.toNat → (x.toNat * q) % m.toNat = 1 % m.toNat → q = r.toNat) ∧
        exec (.minv x m) s = .next { s with
          mreq := none, mrsp := some (.ok r)
          reqLog := s.reqLog ++ [{ op := 3, x := x, y := 0, m := m }] }) ∧
    (Nat.gcd (x.toNat % m.toNat) m.toNat ≠ 1 →
      exec (.minv x m) s = .next { s with
        mreq := none, mrsp := some .err
        reqLog := s.reqLog ++ [{ op := 3, x := x, y := 0, m := m }] })

/-- Derived from 40_coprocessor_ops.md R111 and 93_implementation_defined.md U1: at modulus 0 the answer
is left open, the request is still answered, and nothing else changes. -/
def Obligations.ZeroModulusIsAnswered : Prop :=
  ∀ (x y : Wide) (s : State), ∀ i ∈ [Instr.madd x y 0, Instr.msub x y 0, Instr.mmul x y 0, Instr.minv x 0],
    ∃ a r, AnswerOk s.cfg a ∧ encode i = .request r ∧
      exec i s = .next { s with mreq := none, mrsp := some a, reqLog := s.reqLog ++ [r] }

/-- 40_coprocessor_ops.md R118, with R111 and R115 (derived): every request an engine step sends carries
the modulus CP, which is not 0 then; its opcode is 0 to 3 and MINV's y is 0. -/
def Obligations.EngineRequestsCarryTheModulus : Prop :=
  ∀ (i : Instr) (s t : State), IsCommand i → exec i s = .next t →
    t.blk.cp = s.blk.cp ∧ ∃ sent, t.reqLog = s.reqLog ++ sent ∧
      ∀ r ∈ sent, r.m = s.blk.cp ∧ r.m ≠ 0 ∧ r.op.toNat < 4 ∧ (r.op = 3 → r.y = 0)

/-! ## PCHK -/

/-- 41_validator.md R136: PCHK completes, with ONC saying whether the register holds a point of the
curve and ERR = 0; nothing but ONC, ERR, DONE and the sequencer changes; no request is sent for `Inf`
or a coordinate out of range. -/
def Obligations.PchkAnswersWhetherOnCurve : Prop :=
  ReadsPointsByFields ∧
  (∀ ra : Reg, encode (.pchk ra) = .command (0x01000000#32 ||| (BitVec.ofNat 32 ra.val <<< 4))) ∧
  ∀ (ra : Reg) (s : State), s.blk.ph = .exec →
    ∃ (v : Bool) (sent : List Request),
      (v = true ↔ s.blk.ValidPoint (s.blk.point ra)) ∧
      ops sent = validatorOps s.blk.cp (s.blk.point ra) ∧
      exec (.pchk ra) s = .next { s with
        blk := s.blk.completed s.blk.pr v .none, mrsp := none, reqLog := s.reqLog ++ sent }

/-- 41_validator.md R134: the validator sends no request for `Inf` or a coordinate out of range, and else
MMUL, MMUL, MMUL, MMUL, MADD, MADD, whatever the answer. -/
def Obligations.ValidatorRequestSequence : Prop :=
  ∀ (a b p : Wide) (P : Point),
    ops (onCurve a b p P).log =
      match P with
      | .inf => []
      | .aff x y => if x.toNat < p.toNat ∧ y.toNat < p.toNat then [2, 2, 2, 2, 0, 0] else []

/-! ## PADD -/

/-- 42_point_add.md R146, with R141 to R143 and R145: PADD completes with the answer of the addition law
in plain arithmetic, in the destination or in ERR; the frame is the equality of the whole state. -/
def Obligations.PaddAddsPoints : Prop :=
  ReadsPointsByFields ∧
  (∀ rd ra rb : Reg, encode (.padd rd ra rb) = .command
    (0x02000000#32 ||| (BitVec.ofNat 32 rb.val <<< 8) ||| (BitVec.ofNat 32 ra.val <<< 4)
      ||| BitVec.ofNat 32 rd.val)) ∧
  ∀ (rd ra rb : Reg) (s : State), s.blk.ph = .exec →
    ∃ r : Result Point,
      AddAnswers s.blk.ca s.blk.cb s.blk.cp (s.blk.point ra) (s.blk.point rb) r ∧
      exec (.padd rd ra rb) s = .next { s with
        blk := s.blk.completedWith rd r, mrsp := none
        reqLog := s.reqLog ++ (pAdd s.blk.ca s.blk.cb s.blk.cp (s.blk.point ra) (s.blk.point rb)).log }

/-- 42_point_add.md R147: the requests of each case of PAdd. -/
def Obligations.PaddRequestSequences : Prop :=
  ∀ (a b p : Wide) (P Q : Point),
    (¬ Valid a b p P → ops (pAdd a b p P Q).log = validatorOps p P) ∧
    (Valid a b p P → ¬ Valid a b p Q →
      ops (pAdd a b p P Q).log = validatorOps p P ++ validatorOps p Q) ∧
    (Valid a b p P → Valid a b p Q → P = .inf ∨ Q = .inf →
      ops (pAdd a b p P Q).log = validatorOps p P ++ validatorOps p Q) ∧
    (∀ xP yP xQ yQ, P = .aff xP yP → Q = .aff xQ yQ → Valid a b p P → Valid a b p Q →
      (P = Q → ops (pAdd a b p P Q).log = [2, 2, 2, 2, 0, 0, 2, 2, 2, 2, 0, 0]) ∧
      (P ≠ Q → xP = xQ → (yP.toNat + yQ.toNat) % p.toNat = 0 →
        ops (pAdd a b p P Q).log = [2, 2, 2, 2, 0, 0, 2, 2, 2, 2, 0, 0] ++ [0]) ∧
      (P ≠ Q → ¬ (xP = xQ ∧ (yP.toNat + yQ.toNat) % p.toNat = 0) →
        (Int.gcd ((xQ.toNat : Int) - xP.toNat) p.toNat = 1 →
          ops (pAdd a b p P Q).log =
            [2, 2, 2, 2, 0, 0, 2, 2, 2, 2, 0, 0] ++ [0, 1, 1, 3, 2, 2, 1, 1, 1, 2, 1]) ∧
        (Int.gcd ((xQ.toNat : Int) - xP.toNat) p.toNat ≠ 1 →
          ops (pAdd a b p P Q).log = [2, 2, 2, 2, 0, 0, 2, 2, 2, 2, 0, 0] ++ [0, 1, 1, 3])))

/-- 42_point_add.md R148: for a prime CP, valid distinct non-inverse affine points differ in x, and PAdd
returns `Ok`. -/
def Obligations.PaddSucceedsForPrimeModulus : Prop :=
  ∀ (a b p xP yP xQ yQ : Wide), Nat.Prime p.toNat →
    Valid a b p (.aff xP yP) → Valid a b p (.aff xQ yQ) → ¬ (xP = xQ ∧ yP = yQ) →
    ¬ (xP = xQ ∧ (yP.toNat + yQ.toNat) % p.toNat = 0) →
    xP ≠ xQ ∧ ∃ R, (pAdd a b p (.aff xP yP) (.aff xQ yQ)).res = .ok R

/-- Derived from 42_point_add.md R151: PAdd gives the same value or the same fault code with its operands
exchanged, for all points and all curve registers. -/
def Obligations.PaddIsCommutative : Prop :=
  ∀ (a b p : Wide) (P Q : Point), (pAdd a b p P Q).res = (pAdd a b p Q P).res

/-! ## PDBL -/

/-- 43_point_double.md R166, with R161 to R164: PDBL completes with the answer of the tangent law in
plain arithmetic, in the destination or in ERR; nothing is sent for the identity, and the test y = 0
comes before the tangent's requests. -/
def Obligations.PdblDoublesAPoint : Prop :=
  ReadsPointsByFields ∧
  (∀ rd ra : Reg, encode (.pdbl rd ra) = .command
    (0x03000000#32 ||| (BitVec.ofNat 32 ra.val <<< 4) ||| BitVec.ofNat 32 rd.val)) ∧
  ∀ (rd ra : Reg) (s : State), s.blk.ph = .exec →
    ∃ (r : Result Point) (sent : List Request),
      DoubleAnswers s.blk.ca s.blk.cb s.blk.cp (s.blk.point ra) r ∧
      sent = (pDbl s.blk.ca s.blk.cb s.blk.cp (s.blk.point ra)).log ∧
      (s.blk.point ra = .inf → sent = []) ∧
      (∀ x, s.blk.point ra = .aff x 0 → ops sent = validatorOps s.blk.cp (.aff x 0)) ∧
      exec (.pdbl rd ra) s = .next { s with
        blk := s.blk.completedWith rd r, mrsp := none, reqLog := s.reqLog ++ sent }

/-- 43_point_double.md R168: the requests of each case of PDbl. -/
def Obligations.PdblRequestSequences : Prop :=
  ∀ (a b p : Wide) (P : Point),
    (P = .inf → (pDbl a b p P).log = []) ∧
    (¬ Valid a b p P → ops (pDbl a b p P).log = validatorOps p P) ∧
    (∀ x y, P = .aff x y → Valid a b p P →
      (y = 0 → ops (pDbl a b p P).log = [2, 2, 2, 2, 0, 0]) ∧
      (y ≠ 0 → Nat.gcd (2 * y.toNat) p.toNat = 1 →
        ops (pDbl a b p P).log = [2, 2, 2, 2, 0, 0] ++ [2, 0, 0, 0, 0, 3, 2, 2, 1, 1, 1, 2, 1]) ∧
      (y ≠ 0 → Nat.gcd (2 * y.toNat) p.toNat ≠ 1 →
        ops (pDbl a b p P).log = [2, 2, 2, 2, 0, 0] ++ [2, 0, 0, 0, 0, 3]))

/-- 43_point_double.md R165: for an odd prime CP, a valid affine point with y != 0 doubles, and PDbl
faults only with INVALID_POINT or DOUBLING_UNDEFINED. -/
def Obligations.PdblSucceedsForOddPrimeModulus : Prop :=
  ∀ (a b p : Wide), Nat.Prime p.toNat → p.toNat ≠ 2 →
    (∀ x y, Valid a b p (.aff x y) → y ≠ 0 → ∃ R, (pDbl a b p (.aff x y)).res = .ok R) ∧
    (∀ (P : Point) (c : Err), (pDbl a b p P).res = .fault c → c = .invalidPoint ∨ c = .doublingUndefined)

/-! ## LADDER -/

/-- 44_ladder.md R185, with R181 and R200: the EXEC step of a LADDER writes the identity and completes
without a request, and the function returns the identity for K = 0 and for the identity, whatever the
curve and also for a point that is not on it. -/
def Obligations.LadderEarlyExit : Prop :=
  (∀ (rd ra : Reg) (s : State), s.blk.ph = .exec →
    exec (.ladder rd ra) s = .next { s with
      blk := s.blk.completedWith rd (.ok .inf), mrsp := none }) ∧
  (∀ (a b p : Wide) (P : Point), (ladder a b p P 0).res = .ok .inf ∧ (ladder a b p P 0).log = []) ∧
  (∀ (a b p : Wide) (k : Nat), (ladder a b p .inf k).res = .ok .inf ∧ (ladder a b p .inf k).log = [])

/-- 44_ladder.md R186: the L_ADD step, in both values of the scalar bit and on a fault, with its event. -/
def Obligations.LadderAdditionStep : Prop :=
  ∀ (rd ra : Reg) (s : State), s.blk.ph = .lAdd →
    ∃ (r : Result Point) (sent : List Request),
      AddAnswers s.blk.ca s.blk.cb s.blk.cp s.blk.lr0 s.blk.lr1 r ∧
      sent = (pAdd s.blk.ca s.blk.cb s.blk.cp s.blk.lr0 s.blk.lr1).log ∧
      (∀ c, r = .fault c → exec (.ladder rd ra) s = .next { s with
        blk := s.blk.completedWith rd (.fault c)
        mrsp := none, reqLog := s.reqLog ++ sent, subOps := s.subOps ++ [.add] }) ∧
      (∀ T, r = .ok T → s.blk.k.getLsbD s.blk.li = false → exec (.ladder rd ra) s = .next { s with
        blk := { s.blk with lr1 := T, ph := .lDbl }
        mrsp := none, reqLog := s.reqLog ++ sent, subOps := s.subOps ++ [.add] }) ∧
      (∀ T, r = .ok T → s.blk.k.getLsbD s.blk.li = true → exec (.ladder rd ra) s = .next { s with
        blk := { s.blk with lr0 := T, ph := .lDbl }
        mrsp := none, reqLog := s.reqLog ++ sent, subOps := s.subOps ++ [.add] })

/-- 44_ladder.md R187: the L_DBL step: its operand and its accumulator by the scalar bit, the next bit,
and at index 0 the completion with LR0 as just updated. -/
def Obligations.LadderDoublingStep : Prop :=
  ∀ (rd ra : Reg) (s : State), s.blk.ph = .lDbl →
    ∃ (r : Result Point) (sent : List Request),
      DoubleAnswers s.blk.ca s.blk.cb s.blk.cp
        (if s.blk.k.getLsbD s.blk.li then s.blk.lr1 else s.blk.lr0) r ∧
      sent = (pDbl s.blk.ca s.blk.cb s.blk.cp
        (if s.blk.k.getLsbD s.blk.li then s.blk.lr1 else s.blk.lr0)).log ∧
      ∀ t : State, t = { s with mrsp := none, reqLog := s.reqLog ++ sent, subOps := s.subOps ++ [.dbl] } →
        (∀ c, r = .fault c →
          exec (.ladder rd ra) s = .next { t with blk := s.blk.completedWith rd (.fault c) }) ∧
        (∀ T, r = .ok T → s.blk.li ≠ 0 → s.blk.k.getLsbD s.blk.li = false →
          exec (.ladder rd ra) s =
            .next { t with blk := { s.blk with lr0 := T, li := s.blk.li - 1, ph := .lAdd } }) ∧
        (∀ T, r = .ok T → s.blk.li ≠ 0 → s.blk.k.getLsbD s.blk.li = true →
          exec (.ladder rd ra) s =
            .next { t with blk := { s.blk with lr1 := T, li := s.blk.li - 1, ph := .lAdd } }) ∧
        (∀ T, r = .ok T → s.blk.li = 0 → s.blk.k.getLsbD 0 = false →
          exec (.ladder rd ra) s = .next { t with blk := s.blk.completedWith rd (.ok T) }) ∧
        (∀ T, r = .ok T → s.blk.li = 0 → s.blk.k.getLsbD 0 = true →
          exec (.ladder rd ra) s = .next { t with blk := s.blk.completedWith rd (.ok s.blk.lr0) })

/-- 44_ladder.md R183 and R189: from the host's write of a LADDER word to an idle block, the controller's
steps end in the completion with the result of the function `Ladder`, after one step on the early exit,
after 2·bitlen(K) steps when no sub-operation faults; at every point between, the block is busy and
only the hidden accumulators, LI and PH differ from the launch. -/
def Obligations.LadderStepsRefineTheFunction : Prop :=
  ReadsPointsByFields ∧
  (∀ rd ra : Reg, encode (.ladder rd ra) = .command
    (0x04000000#32 ||| (BitVec.ofNat 32 ra.val <<< 4) ||| BitVec.ofNat 32 rd.val)) ∧
  ∀ (s : State) (rd ra : Reg) (w : Word), s.cfg.legal = true → s.rstN = true → s.mreq = none → s.blk.ph = .idle →
    encode (.ladder rd ra) = .command w →
    ∃ (n : Nat) (t : State), 1 ≤ n ∧
      Host.Core.run Sys2Proof.core (n + 1) (s.withWrite 0x000 w []) = .next t ∧
      t.blk = { s.blk with cmdr := w, onc := false }.completedWith rd
        (ladder s.blk.ca s.blk.cb s.blk.cp (s.blk.point ra) s.blk.k.toNat).res ∧
      t.reqLog = s.reqLog ++
        (ladder s.blk.ca s.blk.cb s.blk.cp (s.blk.point ra) s.blk.k.toNat).log ∧
      (∀ m, m < n → ∃ u, Host.Core.run Sys2Proof.core (m + 1) (s.withWrite 0x000 w []) = .next u ∧
        u.blk.busy = true ∧ u.blk = { s.blk with
          cmdr := w, done := false, err := .none, onc := false
          lr0 := u.blk.lr0, lr1 := u.blk.lr1, li := u.blk.li, ph := u.blk.ph }) ∧
      (s.blk.point ra = .inf ∨ s.blk.k = 0 → n = 1) ∧
      n ≤ max 1 (2 * bitlen s.blk.k.toNat) ∧
      (s.blk.point ra ≠ .inf → s.blk.k ≠ 0 →
        (∃ R, (ladder s.blk.ca s.blk.cb s.blk.cp (s.blk.point ra) s.blk.k.toNat).res = .ok R) →
        n = 2 * bitlen s.blk.k.toNat)

/-- 44_ladder.md R192: a LADDER that takes no early exit and does not fault makes exactly bitlen(K) pairs
of an addition and a doubling, whatever the bits of K and the points. -/
def Obligations.LadderEventsDependOnBitLengthAlone : Prop :=
  ReadsPointsByFields ∧
  ∀ (s : State) (rd ra : Reg) (w : Word), s.cfg.legal = true → s.rstN = true → s.mreq = none → s.blk.ph = .idle →
    encode (.ladder rd ra) = .command w → s.blk.point ra ≠ .inf → s.blk.k ≠ 0 →
    (∃ R, (ladder s.blk.ca s.blk.cb s.blk.cp (s.blk.point ra) s.blk.k.toNat).res = .ok R) →
    ∃ t, Host.Core.run Sys2Proof.core (2 * bitlen s.blk.k.toNat + 1) (s.withWrite 0x000 w []) = .next t ∧
      t.blk.ph = .idle ∧
      t.subOps = s.subOps ++ (List.replicate (bitlen s.blk.k.toNat) [SubOp.add, SubOp.dbl]).flatten

/-- 44_ladder.md R195: a point that is not on the curve with any k > 0 raises InvalidPoint, in the
function and in the controller's first L_ADD step, which completes with ERR = 1 and writes no register. -/
def Obligations.LadderRejectsAnInvalidPoint : Prop :=
  (∀ (a b p : Wide) (P : Point) (k : Nat), ¬ Valid a b p P → 0 < k →
    (ladder a b p P k).res = .fault .invalidPoint) ∧
  (∀ (rd ra : Reg) (s : State), s.blk.ph = .lAdd → s.blk.lr0 = .inf → ¬ s.blk.ValidPoint s.blk.lr1 →
    ∃ t, exec (.ladder rd ra) s = .next t ∧
      t.blk = s.blk.completedWith rd (.fault .invalidPoint))

/-- 44_ladder.md R196: leading zero bits change nothing: a ladder started at any index from bitlen(k) − 1
up returns the same result as `Ladder`, for a valid point. -/
def Obligations.LadderLeadingZerosChangeNothing : Prop :=
  ∀ (a b p : Wide) (P : Point) (k n : Nat), Valid a b p P → bitlen k ≤ n →
    (pAdd a b p .inf P).res = .ok P ∧ (pDbl a b p .inf).res = .ok .inf ∧
    (ladderLoop a b p k n .inf P).res = (ladder a b p P k).res

/-- Derived from 44_ladder.md R198, case (1): a valid point with y = 0 faults with DOUBLING_UNDEFINED for
every k > 0. -/
def Obligations.LadderFaultsOnTwoTorsion : Prop :=
  ∀ (a b p x : Wide) (k : Nat), Valid a b p (.aff x 0) → 0 < k →
    (ladder a b p (.aff x 0) k).res = .fault .doublingUndefined

/-- Derived from 44_ladder.md R191 with 60_exceptions.md R225, under the liveness assumption COP_LIVE
(40_coprocessor_ops.md R119, 93_implementation_defined.md U9): a busy block in order completes within 2·KW
engine steps. The model has COP_LIVE built in (log 4: the coprocessor answers inside the step), and that
the block moves when no input is left is its choice (log 3). A step stands for no duration (R277). -/
def Obligations.EveryCommandCompletes : Prop :=
  ∀ s : State, s.Inv → s.rstN = true → s.mreq = none → s.inputs = [] → s.blk.ph ≠ .idle →
    ∃ n t, 1 ≤ n ∧ n ≤ 2 * s.cfg.kw ∧ Host.Core.run Sys2Proof.core n s = .next t ∧
      t.blk.ph = .idle ∧ t.blk.done = true

/-- Derived from 45_reference_binary.md R214 and 44_ladder.md R199: the reference function returns the
identity for k = 0 and for the identity, as the ladder does, and for k = 1 both return the same result. -/
def Obligations.BinaryAgreesWithLadderBelowTwo : Prop :=
  (∀ (a b p : Wide) (P : Point), (binary a b p P 0).res = .ok .inf ∧ (binary a b p P 0).log = []) ∧
  (∀ (a b p : Wide) (k : Nat), (binary a b p .inf k).res = .ok .inf) ∧
  (∀ (a b p : Wide) (P : Point), (binary a b p P 1).res = (ladder a b p P 1).res)

/-- Derived from 45_reference_binary.md R213 and R212 and 44_ladder.md R197; the group, the order of a point
and k·P are those of log 19 (PRESUMED). On a valid curve, for a valid point of odd order n and k < n, `Binary`
and `Ladder` return the same point, k·P (R213). For a point of any order n and k < n `Binary` meets no equal
points (R212). Outside those hypotheses they can differ in faults: the rules' three examples, U17 with a point
of order 4 and k = 2 and 5, and T17 with k = 45 above the order 19. -/
def Obligations.BinaryAgreesWithLadderBelowTheOrder : Prop :=
  (∀ (a b p : Wide) [Fact p.toNat.Prime], ValidCurve a b p → ∀ P : Point, Valid a b p P →
    ∃ M : (curveOf a b p).Point, Represents P M ∧ ∀ k : Nat, k < addOrderOf M →
      (Odd (addOrderOf M) → ∃ R, Represents R (k • M) ∧
        (binary a b p P k).res = .ok R ∧ (ladder a b p P k).res = .ok R) ∧
      (binary a b p P k).res ≠ .fault .equalPoints) ∧
  ((ladder 1 0 17 (.aff 1 6) 2).res = .ok (.aff 0 0) ∧
    (binary 1 0 17 (.aff 1 6) 2).res = .fault .doublingUndefined ∧
    (ladder 1 0 17 (.aff 1 6) 5).res = .ok (.aff 1 6) ∧
    (binary 1 0 17 (.aff 1 6) 5).res = .fault .doublingUndefined) ∧
  ((binary 2 2 17 (.aff 5 1) 45).res = .fault .equalPoints ∧
    (ladder 2 2 17 (.aff 5 1) 45).res = .ok (.aff 0 6))

/-- 44_ladder.md R197, with R198 (3). On a valid curve, for a valid point P: a pair of sub-operations that
does not fault takes the accumulators m·P and (m+1)·P to m'·P and (m'+1)·P with m' = 2m + bit; so a result
of `Ladder` is k·P, for every k, also at or above the order of P. `Ladder` never meets equal points, and it
never faults for a point of odd order. -/
def Obligations.LadderComputesTheMultiple : Prop :=
  ∀ (a b p : Wide) [Fact p.toNat.Prime], ValidCurve a b p → ∀ P : Point, Valid a b p P →
    ∃ M : (curveOf a b p).Point, Represents P M ∧
      (∀ (bit : Bool) (m : Nat) (R0 R1 : Point) (R : Point × Point),
        Represents R0 (m • M) → Represents R1 ((m + 1) • M) → (ladderPair a b p bit R0 R1).res = .ok R →
        Represents R.1 ((2 * m + bit.toNat) • M) ∧ Represents R.2 ((2 * m + bit.toNat + 1) • M)) ∧
      ∀ k : Nat,
        (∀ R, (ladder a b p P k).res = .ok R → Represents R (k • M)) ∧
        (ladder a b p P k).res ≠ .fault .equalPoints ∧
        (Odd (addOrderOf M) → ∃ R, (ladder a b p P k).res = .ok R)

/-! ## The whole machine -/

/-- The step runs the decoded instruction (10_state.md R29, 60_exceptions.md R225): when it is the
block's turn, the request outstanding on the port, or else the command in CMDR of a busy block; an idle
block does nothing. The step adds nothing to `exec` but the input taken. -/
def Obligations.StepRunsTheDecodedInstruction : Prop :=
  ∀ (s : State) (rest : List Input), s.rstN = true →
    (s.inputs = .advance :: rest ∨ (s.inputs = [] ∧ rest = [])) →
    (∀ q i, s.mreq = some q → decodeRequest q = .ok i → step s = exec i { s with inputs := rest }) ∧
    (∀ i, s.mreq = none → s.blk.ph ≠ .idle → decodeCommand s.blk.cmdr = .ok i →
      step s = exec i { s with inputs := rest }) ∧
    (s.mreq = none → s.blk.ph = .idle → step s = .next { s with inputs := rest })

/-- Derived from 60_exceptions.md R225 and 40_coprocessor_ops.md R116 (logs 8 and 9): where the machine
stops: a command whose phase is another's, a busy block without a legal command, a request opcode 4 to 7. -/
def Obligations.WhereTheMachineStops : Prop :=
  (∀ (ra : Reg) (s : State), s.blk.ph ≠ .exec → exec (.pchk ra) s = .fault .noEngineStep) ∧
  (∀ (rd ra rb : Reg) (s : State), s.blk.ph ≠ .exec → exec (.padd rd ra rb) s = .fault .noEngineStep) ∧
  (∀ (rd ra : Reg) (s : State), s.blk.ph ≠ .exec → exec (.pdbl rd ra) s = .fault .noEngineStep) ∧
  (∀ (rd ra : Reg) (s : State), s.blk.ph = .idle → exec (.ladder rd ra) s = .fault .noEngineStep) ∧
  (∀ (s : State) (rest : List Input), s.rstN = true → s.inputs = .advance :: rest → s.mreq = none →
    s.blk.ph ≠ .idle → decodeCommand s.blk.cmdr = .reject .illegalCommand →
    step s = .fault .noEngineStep) ∧
  (∀ (s : State) (rest : List Input) (q : Request), s.rstN = true → s.inputs = .advance :: rest →
    s.mreq = some q → 4 ≤ q.op.toNat → step s = .fault .reservedRequest)

/-- The invariant holds in the reset state of every legal instance. -/
def Obligations.InvariantHoldsAtReset : Prop :=
  State.reset.Inv ∧ ∀ c : Config, c.legal = true → (State.resetOf c).Inv

/-- The headline (derived from 10_state.md R20, R34 to R36, 60_exceptions.md R225, R226, 40_coprocessor_ops.md
R111, R116): from every state that meets the invariant every step goes on, whatever input it takes, and
the next state meets the invariant: widths, phases, flags and the port stay in order, and the two faults
of the model are never raised. -/
def Obligations.EveryStepGoesOnAndKeepsTheInvariant : Prop :=
  ∀ s : State, s.Inv → ∃ t, step s = .next t ∧ t.Inv

/-- Derived from 10_state.md R21, R28, R25 and 60_exceptions.md R226: what no instruction changes, and
that only the destination register can change. -/
def Obligations.InstructionFrame : Prop :=
  ∀ (i : Instr) (s t : State), exec i s = .next t →
    (t.blk.ca = s.blk.ca ∧ t.blk.cb = s.blk.cb ∧ t.blk.cp = s.blk.cp ∧ t.blk.k = s.blk.k ∧
      t.blk.cmdr = s.blk.cmdr ∧ t.blk.werr = s.blk.werr ∧ t.blk.ie = s.blk.ie) ∧
    (t.cfg = s.cfg ∧ t.rstN = s.rstN ∧ t.inputs = s.inputs ∧ t.bus = s.bus ∧ t.freeIdx = s.freeIdx) ∧
    (∀ j : Reg, dest i ≠ some j → t.blk.pr[j] = s.blk.pr[j]) ∧
    (¬ IsCommand i → t.blk = s.blk) ∧
    (∀ off, off < 0x280 ∨ 0x680 ≤ off → off ≠ 0x004 → off ≠ 0x010 → t.readOffset off = s.readOffset off)

/-- Derived from 10_state.md R31: only a PCHK completion sets ONC. -/
def Obligations.OnlyPchkSetsOnc : Prop :=
  ∀ (i : Instr) (s t : State), exec i s = .next t → s.blk.onc = false → t.blk.onc = true →
    ∃ ra, i = .pchk ra

/-- Derived from 10_state.md R28 (secrecy of K): a read of an aligned word gets the same answer whatever K
holds; any read, also one that is rejected and answered with a value the spec leaves open, leaves the same
state but for that answer; and every instruction but LADDER takes the same step with another value in K. -/
def Obligations.OnlyLadderDependsOnTheScalar : Prop :=
  (∀ (s : State) (k : Wide) (addr n : Nat) (rest : List Input), ∃ t u,
    step { s with inputs := .access (.read addr n) :: rest } = .next t ∧
    step { s.withK k with inputs := .access (.read addr n) :: rest } = .next u ∧
    u = { t.withK k with bus := u.bus } ∧ (n = 4 → addr % 4 = 0 → u.bus = t.bus)) ∧
  (∀ (i : Instr) (s t : State) (k : Wide), (∀ rd ra, i ≠ .ladder rd ra) → exec i s = .next t →
    exec i (s.withK k) = .next (t.withK k))

/-- Derived from 10_state.md R24 and R27: the bits of X and Y of a register whose INF is 1 have no effect
on any operation: register files that differ in such bits alone give the same step, up to such bits. -/
def Obligations.HiddenCoordinatesHaveNoEffect : Prop :=
  ∀ (i : Instr) (s t : State) (pr : Vector PointReg 4),
    SamePoints pr s.blk.pr → exec i s = .next t →
    ∃ pr' : Vector PointReg 4, exec i (s.withPR pr) = .next (t.withPR pr') ∧ SamePoints pr' t.blk.pr

/-- Derived from 20_memory.md R71 (c): between launch and completion no host-visible register changes but
STATUS.WERR, STATUS.DONE and CTRL: across any step that leaves the block busy, every other offset and
the other bits of STATUS read the same. -/
def Obligations.HostViewIsStableWhileBusy : Prop :=
  ∀ (s t : State), s.rstN = true → s.blk.busy = true → step s = .next t → t.blk.busy = true →
    (∀ off, off ≠ 0x004 → off ≠ 0x008 → t.readOffset off = s.readOffset off) ∧
    (∀ n, n ≠ 1 → n ≠ 3 → (t.readOffset 0x004).getLsbD n = (s.readOffset 0x004).getLsbD n)

/-- Derived from 40_coprocessor_ops.md R119: without the block's own turn only a reset ends BUSY: every
host access that is no soft reset leaves a busy block busy, at the same place of the same command. -/
def Obligations.OnlyAResetAbandonsACommand : Prop :=
  ∀ (s : State) (a : Access) (rest : List Input), s.cfg.legal = true → s.blk.busy = true →
    (∀ v, a = .write (s.cfg.base + 0x008) 4 v → v.getLsbD 1 = false) →
    ∃ t, step { s with inputs := .access a :: rest } = .next t ∧
      t.blk = { s.blk with done := t.blk.done, werr := t.blk.werr, ie := t.blk.ie } ∧
      t.mreq = s.mreq
end

