-- ==== Sys2Proof/Laws/Registers.lean ====
section
/-! SUPPORT. Words of wide registers: a written word reads back, every other bit is as before, and the
value keeps its width. -/

namespace Sys2Proof.Machine

/-- Bit `n` of a wide value after word `j` was replaced. -/
theorem getLsbD_setWord (v : Wide) (j : Nat) (x : Word) (n : Nat) (hn : n < 1024) :
    (setWord v j x).getLsbD n =
      if 32 * j ≤ n ∧ n < 32 * j + 32 then x.getLsbD (n - 32 * j) else v.getLsbD n := by
  have hones : ∀ i, i < 32 → (0xFFFFFFFF#32).getLsbD i = true := by decide
  simp only [setWord, BitVec.getLsbD_or, BitVec.getLsbD_and, BitVec.getLsbD_not, BitVec.getLsbD_shiftLeft,
    BitVec.getLsbD_setWidth]
  by_cases h1 : n < 32 * j
  · have : ¬ (32 * j ≤ n) := by omega
    simp [h1, hn, this]
  · by_cases h2 : n < 32 * j + 32
    · have h3 : n - 32 * j < 32 := by omega
      have h4 : 32 * j ≤ n := by omega
      have h5 : n - 32 * j < 1024 := by omega
      rw [hones _ h3]
      simp [h1, hn, h2, h4, h5]
    · have h3 : 32 ≤ n - 32 * j := by omega
      have h6 : (0xFFFFFFFF#32).getLsbD (n - 32 * j) = false := BitVec.getLsbD_of_ge _ _ h3
      have h7 : x.getLsbD (n - 32 * j) = false := BitVec.getLsbD_of_ge _ _ h3
      rw [h6, h7]
      simp [h1, hn, h2]

/-- The written word reads back (20_memory.md R66). -/
theorem wordAt_setWord_self (v : Wide) {j : Nat} (x : Word) (hj : j < 32) : wordAt (setWord v j x) j = x := by
  apply BitVec.eq_of_getLsbD_eq
  intro i hi
  have h1 : 32 * j + i < 1024 := by omega
  have h2 : 32 * j ≤ 32 * j + i ∧ 32 * j + i < 32 * j + 32 := by omega
  rw [wordAt, BitVec.getLsbD_extractLsb', getLsbD_setWord v j x _ h1, if_pos h2]
  simp [hi]

/-- Every other word keeps its value (20_memory.md R63). -/
theorem wordAt_setWord_ne (v : Wide) {j l : Nat} (x : Word) (hl : l < 32) (h : j ≠ l) :
    wordAt (setWord v j x) l = wordAt v l := by
  apply BitVec.eq_of_getLsbD_eq
  intro i hi
  have h1 : 32 * l + i < 1024 := by omega
  have h2 : ¬ (32 * j ≤ 32 * l + i ∧ 32 * l + i < 32 * j + 32) := by omega
  rw [wordAt, BitVec.getLsbD_extractLsb', getLsbD_setWord v j x _ h1, if_neg h2, wordAt,
    BitVec.getLsbD_extractLsb']

/-- A value below 2^n has no bit from n up, and the other way round. -/
theorem lt_two_pow_iff_bits (v : Wide) (n : Nat) :
    v.toNat < 2 ^ n ↔ ∀ i, n ≤ i → v.getLsbD i = false := by
  constructor
  · intro h i hi
    rw [BitVec.getLsbD]
    exact Nat.testBit_lt_two_pow (h.trans_le (Nat.pow_le_pow_right (by omega) hi))
  · intro h
    exact Nat.lt_pow_two_of_testBit _ fun i hi => by simpa [BitVec.getLsbD] using h i hi

/-- A word written inside a register of `n` words keeps the value below 2^(32 n). -/
theorem setWord_fits {v : Wide} {j n : Nat} (x : Word) (hj : j < n) (hv : v.toNat < 2 ^ (32 * n)) :
    (setWord v j x).toNat < 2 ^ (32 * n) := by
  rw [lt_two_pow_iff_bits] at hv ⊢
  intro i hi
  by_cases hb : i < 1024
  · have h2 : ¬ (32 * j ≤ i ∧ i < 32 * j + 32) := by omega
    rw [getLsbD_setWord v j x i hb, if_neg h2]
    exact hv i hi
  · exact BitVec.getLsbD_of_ge _ _ (by omega)

/-! ## Wide registers by name -/

@[simp] theorem Block.getWide_setWide_self (b : Block) (r : WideReg) (v : Wide) :
    (b.setWide r v).getWide r = v := by
  cases r <;> simp [Block.setWide, Block.getWide]

/-- A write to a coordinate does not change the tag (10_state.md R27). -/
theorem Block.setWide_inf (b : Block) (r : WideReg) (v : Wide) (i : Reg) :
    ((b.setWide r v).pr[i]).inf = (b.pr[i]).inf := by
  cases r <;> simp only [Block.setWide]
  case x j =>
    by_cases h : j = i
    · subst h; simp
    · have hv : j.val ≠ i.val := fun e => h (Fin.ext e)
      simp [hv]
  case y j =>
    by_cases h : j = i
    · subst h; simp
    · have hv : j.val ≠ i.val := fun e => h (Fin.ext e)
      simp [hv]

end Sys2Proof.Machine
end

