-- ==== Sys2Proof/Laws/State.lean ====
section
/-! SUPPORT. One lemma per field per named update of the state, each true by unfolding, so that no later
proof unfolds a record update. -/

namespace Sys2Proof.Machine

/-! ## The block -/

@[simp] theorem Block.complete_ca (b : Block) (e : Err) : (b.complete e).ca = b.ca := rfl
@[simp] theorem Block.complete_cb (b : Block) (e : Err) : (b.complete e).cb = b.cb := rfl
@[simp] theorem Block.complete_cp (b : Block) (e : Err) : (b.complete e).cp = b.cp := rfl
@[simp] theorem Block.complete_k (b : Block) (e : Err) : (b.complete e).k = b.k := rfl
@[simp] theorem Block.complete_pr (b : Block) (e : Err) : (b.complete e).pr = b.pr := rfl
@[simp] theorem Block.complete_cmdr (b : Block) (e : Err) : (b.complete e).cmdr = b.cmdr := rfl
@[simp] theorem Block.complete_done (b : Block) (e : Err) : (b.complete e).done = true := rfl
@[simp] theorem Block.complete_onc (b : Block) (e : Err) : (b.complete e).onc = b.onc := rfl
@[simp] theorem Block.complete_werr (b : Block) (e : Err) : (b.complete e).werr = b.werr := rfl
@[simp] theorem Block.complete_err (b : Block) (e : Err) : (b.complete e).err = e := rfl
@[simp] theorem Block.complete_ie (b : Block) (e : Err) : (b.complete e).ie = b.ie := rfl
@[simp] theorem Block.complete_ph (b : Block) (e : Err) : (b.complete e).ph = .idle := rfl
@[simp] theorem Block.complete_li (b : Block) (e : Err) : (b.complete e).li = 0 := rfl
@[simp] theorem Block.complete_lr0 (b : Block) (e : Err) : (b.complete e).lr0 = .inf := rfl
@[simp] theorem Block.complete_lr1 (b : Block) (e : Err) : (b.complete e).lr1 = .inf := rfl

@[simp] theorem Block.acknowledge_ca (b : Block) : (b.acknowledge).ca = b.ca := rfl
@[simp] theorem Block.acknowledge_cb (b : Block) : (b.acknowledge).cb = b.cb := rfl
@[simp] theorem Block.acknowledge_cp (b : Block) : (b.acknowledge).cp = b.cp := rfl
@[simp] theorem Block.acknowledge_k (b : Block) : (b.acknowledge).k = b.k := rfl
@[simp] theorem Block.acknowledge_pr (b : Block) : (b.acknowledge).pr = b.pr := rfl
@[simp] theorem Block.acknowledge_cmdr (b : Block) : (b.acknowledge).cmdr = b.cmdr := rfl
@[simp] theorem Block.acknowledge_done (b : Block) : (b.acknowledge).done = false := rfl
@[simp] theorem Block.acknowledge_onc (b : Block) : (b.acknowledge).onc = b.onc := rfl
@[simp] theorem Block.acknowledge_werr (b : Block) : (b.acknowledge).werr = b.werr := rfl
@[simp] theorem Block.acknowledge_err (b : Block) : (b.acknowledge).err = b.err := rfl
@[simp] theorem Block.acknowledge_ie (b : Block) : (b.acknowledge).ie = b.ie := rfl
@[simp] theorem Block.acknowledge_ph (b : Block) : (b.acknowledge).ph = b.ph := rfl
@[simp] theorem Block.acknowledge_li (b : Block) : (b.acknowledge).li = b.li := rfl
@[simp] theorem Block.acknowledge_lr0 (b : Block) : (b.acknowledge).lr0 = b.lr0 := rfl
@[simp] theorem Block.acknowledge_lr1 (b : Block) : (b.acknowledge).lr1 = b.lr1 := rfl

@[simp] theorem Block.clearFlags_ca (b : Block) : (b.clearFlags).ca = b.ca := rfl
@[simp] theorem Block.clearFlags_cb (b : Block) : (b.clearFlags).cb = b.cb := rfl
@[simp] theorem Block.clearFlags_cp (b : Block) : (b.clearFlags).cp = b.cp := rfl
@[simp] theorem Block.clearFlags_k (b : Block) : (b.clearFlags).k = b.k := rfl
@[simp] theorem Block.clearFlags_pr (b : Block) : (b.clearFlags).pr = b.pr := rfl
@[simp] theorem Block.clearFlags_cmdr (b : Block) : (b.clearFlags).cmdr = b.cmdr := rfl
@[simp] theorem Block.clearFlags_done (b : Block) : (b.clearFlags).done = false := rfl
@[simp] theorem Block.clearFlags_onc (b : Block) : (b.clearFlags).onc = false := rfl
@[simp] theorem Block.clearFlags_werr (b : Block) : (b.clearFlags).werr = b.werr := rfl
@[simp] theorem Block.clearFlags_err (b : Block) : (b.clearFlags).err = .none := rfl
@[simp] theorem Block.clearFlags_ie (b : Block) : (b.clearFlags).ie = b.ie := rfl
@[simp] theorem Block.clearFlags_ph (b : Block) : (b.clearFlags).ph = b.ph := rfl
@[simp] theorem Block.clearFlags_li (b : Block) : (b.clearFlags).li = b.li := rfl
@[simp] theorem Block.clearFlags_lr0 (b : Block) : (b.clearFlags).lr0 = b.lr0 := rfl
@[simp] theorem Block.clearFlags_lr1 (b : Block) : (b.clearFlags).lr1 = b.lr1 := rfl

@[simp] theorem Block.setPoint_ca (b : Block) (i : Reg) (P : Point) : (b.setPoint i P).ca = b.ca := rfl
@[simp] theorem Block.setPoint_cb (b : Block) (i : Reg) (P : Point) : (b.setPoint i P).cb = b.cb := rfl
@[simp] theorem Block.setPoint_cp (b : Block) (i : Reg) (P : Point) : (b.setPoint i P).cp = b.cp := rfl
@[simp] theorem Block.setPoint_k (b : Block) (i : Reg) (P : Point) : (b.setPoint i P).k = b.k := rfl
@[simp] theorem Block.setPoint_pr (b : Block) (i : Reg) (P : Point) : (b.setPoint i P).pr = b.pr.set i (PointReg.ofPoint P) := rfl
@[simp] theorem Block.setPoint_cmdr (b : Block) (i : Reg) (P : Point) : (b.setPoint i P).cmdr = b.cmdr := rfl
@[simp] theorem Block.setPoint_done (b : Block) (i : Reg) (P : Point) : (b.setPoint i P).done = b.done := rfl
@[simp] theorem Block.setPoint_onc (b : Block) (i : Reg) (P : Point) : (b.setPoint i P).onc = b.onc := rfl
@[simp] theorem Block.setPoint_werr (b : Block) (i : Reg) (P : Point) : (b.setPoint i P).werr = b.werr := rfl
@[simp] theorem Block.setPoint_err (b : Block) (i : Reg) (P : Point) : (b.setPoint i P).err = b.err := rfl
@[simp] theorem Block.setPoint_ie (b : Block) (i : Reg) (P : Point) : (b.setPoint i P).ie = b.ie := rfl
@[simp] theorem Block.setPoint_ph (b : Block) (i : Reg) (P : Point) : (b.setPoint i P).ph = b.ph := rfl
@[simp] theorem Block.setPoint_li (b : Block) (i : Reg) (P : Point) : (b.setPoint i P).li = b.li := rfl
@[simp] theorem Block.setPoint_lr0 (b : Block) (i : Reg) (P : Point) : (b.setPoint i P).lr0 = b.lr0 := rfl
@[simp] theorem Block.setPoint_lr1 (b : Block) (i : Reg) (P : Point) : (b.setPoint i P).lr1 = b.lr1 := rfl

/-! ## The state -/

@[simp] theorem State.engine_cfg (s : State) (b : Block) (l : List Request) : (s.engine b l).cfg = s.cfg := rfl
@[simp] theorem State.engine_blk (s : State) (b : Block) (l : List Request) : (s.engine b l).blk = b := rfl
@[simp] theorem State.engine_rstN (s : State) (b : Block) (l : List Request) : (s.engine b l).rstN = s.rstN := rfl
@[simp] theorem State.engine_mreq (s : State) (b : Block) (l : List Request) : (s.engine b l).mreq = s.mreq := rfl
@[simp] theorem State.engine_mrsp (s : State) (b : Block) (l : List Request) : (s.engine b l).mrsp = none := rfl
@[simp] theorem State.engine_inputs (s : State) (b : Block) (l : List Request) : (s.engine b l).inputs = s.inputs := rfl
@[simp] theorem State.engine_bus (s : State) (b : Block) (l : List Request) : (s.engine b l).bus = s.bus := rfl
@[simp] theorem State.engine_freeIdx (s : State) (b : Block) (l : List Request) : (s.engine b l).freeIdx = s.freeIdx := rfl
@[simp] theorem State.engine_reqLog (s : State) (b : Block) (l : List Request) : (s.engine b l).reqLog = s.reqLog ++ l := rfl
@[simp] theorem State.engine_subOps (s : State) (b : Block) (l : List Request) : (s.engine b l).subOps = s.subOps := rfl

@[simp] theorem State.answer_cfg (s : State) (r : Request) (a : Answer) : (s.answer r a).cfg = s.cfg := rfl
@[simp] theorem State.answer_blk (s : State) (r : Request) (a : Answer) : (s.answer r a).blk = s.blk := rfl
@[simp] theorem State.answer_rstN (s : State) (r : Request) (a : Answer) : (s.answer r a).rstN = s.rstN := rfl
@[simp] theorem State.answer_mreq (s : State) (r : Request) (a : Answer) : (s.answer r a).mreq = none := rfl
@[simp] theorem State.answer_mrsp (s : State) (r : Request) (a : Answer) : (s.answer r a).mrsp = some a := rfl
@[simp] theorem State.answer_inputs (s : State) (r : Request) (a : Answer) : (s.answer r a).inputs = s.inputs := rfl
@[simp] theorem State.answer_bus (s : State) (r : Request) (a : Answer) : (s.answer r a).bus = s.bus := rfl
@[simp] theorem State.answer_freeIdx (s : State) (r : Request) (a : Answer) : (s.answer r a).freeIdx = s.freeIdx := rfl
@[simp] theorem State.answer_reqLog (s : State) (r : Request) (a : Answer) : (s.answer r a).reqLog = s.reqLog ++ [r] := rfl
@[simp] theorem State.answer_subOps (s : State) (r : Request) (a : Answer) : (s.answer r a).subOps = s.subOps := rfl

@[simp] theorem State.softReset_cfg (s : State) : (s.softReset).cfg = s.cfg := rfl
@[simp] theorem State.softReset_blk (s : State) : (s.softReset).blk = Block.reset := rfl
@[simp] theorem State.softReset_rstN (s : State) : (s.softReset).rstN = s.rstN := rfl
@[simp] theorem State.softReset_mreq (s : State) : (s.softReset).mreq = none := rfl
@[simp] theorem State.softReset_mrsp (s : State) : (s.softReset).mrsp = none := rfl
@[simp] theorem State.softReset_inputs (s : State) : (s.softReset).inputs = s.inputs := rfl
@[simp] theorem State.softReset_bus (s : State) : (s.softReset).bus = s.bus := rfl
@[simp] theorem State.softReset_freeIdx (s : State) : (s.softReset).freeIdx = s.freeIdx := rfl
@[simp] theorem State.softReset_reqLog (s : State) : (s.softReset).reqLog = s.reqLog := rfl
@[simp] theorem State.softReset_subOps (s : State) : (s.softReset).subOps = s.subOps := rfl

@[simp] theorem State.hardReset_cfg (s : State) : (s.hardReset).cfg = s.cfg := rfl
@[simp] theorem State.hardReset_blk (s : State) : (s.hardReset).blk = Block.reset := rfl
@[simp] theorem State.hardReset_rstN (s : State) : (s.hardReset).rstN = false := rfl
@[simp] theorem State.hardReset_mreq (s : State) : (s.hardReset).mreq = none := rfl
@[simp] theorem State.hardReset_mrsp (s : State) : (s.hardReset).mrsp = none := rfl
@[simp] theorem State.hardReset_inputs (s : State) : (s.hardReset).inputs = s.inputs := rfl
@[simp] theorem State.hardReset_bus (s : State) : (s.hardReset).bus = s.bus := rfl
@[simp] theorem State.hardReset_freeIdx (s : State) : (s.hardReset).freeIdx = s.freeIdx := rfl
@[simp] theorem State.hardReset_reqLog (s : State) : (s.hardReset).reqLog = s.reqLog := rfl
@[simp] theorem State.hardReset_subOps (s : State) : (s.hardReset).subOps = s.subOps := rfl

@[simp] theorem State.rejectRead_cfg (s : State) : (s.rejectRead).cfg = s.cfg := rfl
@[simp] theorem State.rejectRead_blk (s : State) : (s.rejectRead).blk = s.blk := rfl
@[simp] theorem State.rejectRead_rstN (s : State) : (s.rejectRead).rstN = s.rstN := rfl
@[simp] theorem State.rejectRead_mreq (s : State) : (s.rejectRead).mreq = s.mreq := rfl
@[simp] theorem State.rejectRead_mrsp (s : State) : (s.rejectRead).mrsp = s.mrsp := rfl
@[simp] theorem State.rejectRead_inputs (s : State) : (s.rejectRead).inputs = s.inputs := rfl
@[simp] theorem State.rejectRead_bus (s : State) : (s.rejectRead).bus = some (.readError (Config.illegalReadData s.freeIdx)) := rfl
@[simp] theorem State.rejectRead_freeIdx (s : State) : (s.rejectRead).freeIdx = s.freeIdx + 1 := rfl
@[simp] theorem State.rejectRead_reqLog (s : State) : (s.rejectRead).reqLog = s.reqLog := rfl
@[simp] theorem State.rejectRead_subOps (s : State) : (s.rejectRead).subOps = s.subOps := rfl

/-! ## Completion with a result -/

@[simp] theorem Block.finish_ok (b : Block) (rd : Reg) (P : Point) :
    b.finish rd (.ok P) = (b.setPoint rd P).complete .none := rfl

@[simp] theorem Block.finish_fault (b : Block) (rd : Reg) (c : Err) : b.finish rd (.fault c) = b.complete c := rfl

@[simp] theorem Block.finishCheck_ok (b : Block) (v : Bool) :
    b.finishCheck (.ok v) = { b.complete .none with onc := v } := rfl

@[simp] theorem Block.finishCheck_fault (b : Block) (c : Err) : b.finishCheck (.fault c) = b.complete c := rfl

@[simp] theorem Block.afterAdd_fault (b : Block) (c : Err) : b.afterAdd (.fault c) = b.complete c := rfl

@[simp] theorem Block.afterDbl_fault (b : Block) (rd : Reg) (c : Err) : b.afterDbl rd (.fault c) = b.complete c := rfl

/-- The sum goes to LR0 when the scalar bit is 1 and to LR1 when it is 0. -/
theorem Block.afterAdd_ok (b : Block) (T : Point) :
    b.afterAdd (.ok T) =
      { b with lr0 := if b.scalarBit then T else b.lr0, lr1 := if b.scalarBit then b.lr1 else T, ph := .lDbl } := by
  unfold Block.afterAdd
  cases h : b.scalarBit <;> simp

/-- The double goes back to the accumulator it came from; index 0 ends the command. -/
theorem Block.afterDbl_ok (b : Block) (rd : Reg) (T : Point) :
    b.afterDbl rd (.ok T) =
      if b.li = 0 then (b.setPoint rd (if b.scalarBit then b.lr0 else T)).complete .none
      else { b with lr0 := if b.scalarBit then b.lr0 else T, lr1 := if b.scalarBit then T else b.lr1,
                    li := b.li - 1, ph := .lAdd } := by
  unfold Block.afterDbl
  cases h : b.scalarBit <;> simp [Block.complete, Block.setPoint]

end Sys2Proof.Machine
end

