-- ==== Sys2Proof/Laws/Bus.lean ====
section
/-! SUPPORT. The register map (10_state.md R42): what each offset names, and what one host access does. -/

namespace Sys2Proof.Machine

@[simp] theorem locate_cmd (c : Config) : locate c 0x000 = .cmd := rfl
@[simp] theorem locate_status (c : Config) : locate c 0x004 = .status := rfl
@[simp] theorem locate_ctrl (c : Config) : locate c 0x008 = .ctrl := rfl
@[simp] theorem locate_id (c : Config) : locate c 0x00C = .id := rfl
@[simp] theorem locate_ptag (c : Config) : locate c 0x010 = .ptag := rfl

/-- A register has at most 32 words on a legal instance. -/
theorem WideReg.words_le {c : Config} (h : c.legal = true) (r : WideReg) : r.words c ≤ 32 := by
  simp only [Config.legal, decide_eq_true_eq] at h
  cases r <;> simp only [WideReg.words] <;> omega

theorem WideReg.one_le_words {c : Config} (h : c.legal = true) (r : WideReg) : 1 ≤ r.words c := by
  simp only [Config.legal, decide_eq_true_eq] at h
  cases r <;> simp only [WideReg.words] <;> omega

/-- The window of a wide register is its slot of 0x80 bytes (10_state.md R42). -/
theorem wideSlot_offset (r : WideReg) : wideSlot (r.offset / 0x80) = some r ∧ r.offset % 0x80 = 0 ∧
    0x80 ≤ r.offset := by
  have hx : ∀ i : Reg, wideSlot (WideReg.offset (.x i) / 0x80) = some (.x i) ∧
    WideReg.offset (.x i) % 0x80 = 0 ∧ 0x80 ≤ WideReg.offset (.x i) := by decide
  have hy : ∀ i : Reg, wideSlot (WideReg.offset (.y i) / 0x80) = some (.y i) ∧
    WideReg.offset (.y i) % 0x80 = 0 ∧ 0x80 ≤ WideReg.offset (.y i) := by decide
  cases r
  case x i => exact hx i
  case y i => exact hy i
  all_goals decide

/-- Word `j` of a wide register stands at its offset plus 4 j (20_memory.md R66). -/
theorem locate_wide {c : Config} (hc : c.legal = true) (r : WideReg) {j : Nat} (hj : j < r.words c) :
    locate c (r.offset + 4 * j) = .wide r j := by
  have hw := r.words_le hc
  obtain ⟨hs, hm, hl⟩ := wideSlot_offset r
  have h1 : (r.offset + 4 * j) / 0x80 = r.offset / 0x80 := by omega
  have h2 : (r.offset + 4 * j) % 0x80 / 4 = j := by omega
  unfold locate
  rw [if_neg (by omega), if_neg (by omega), if_neg (by omega), if_neg (by omega), if_neg (by omega), h1, hs, h2]
  simp [hj]

/-- A named offset is that word of that register, and the word exists. -/
theorem NamesWide.eq {c : Config} {off j : Nat} {r : WideReg} (h : NamesWide c off r j) :
    off = r.offset + 4 * j ∧ j < r.words c := by
  cases h <;> exact ⟨rfl, ‹_›⟩

theorem NamesWide.locate_eq {c : Config} {off j : Nat} {r : WideReg} (hc : c.legal = true)
    (h : NamesWide c off r j) : locate c off = .wide r j := by
  obtain ⟨rfl, hj⟩ := h.eq
  exact locate_wide hc r hj

theorem namesWide_of_lt {c : Config} (r : WideReg) {j : Nat} (hj : j < r.words c) :
    NamesWide c (r.offset + 4 * j) r j := by
  cases r
  case ca => exact .ca j hj
  case cb => exact .cb j hj
  case cp => exact .cp j hj
  case k => exact .k j hj
  case x i => exact .x i j hj
  case y i => exact .y i j hj

/-- The slots that hold a register are those of the map. -/
theorem wideSlot_some {n : Nat} {r : WideReg} (h : wideSlot n = some r) : r.offset = 0x80 * n := by
  unfold wideSlot at h
  split at h <;> first | (cases h; rfl) | cases h

/-- Only a named offset locates a word of a wide register. -/
theorem namesWide_of_locate {c : Config} {off j : Nat} {r : WideReg} (ha : off % 4 = 0)
    (h : locate c off = .wide r j) : NamesWide c off r j := by
  unfold locate at h
  split at h; · cases h
  split at h; · cases h
  split at h; · cases h
  split at h; · cases h
  split at h; · cases h
  split at h
  · rename_i r' hs
    split at h
    · cases h
      have ho := wideSlot_some hs
      have : off = r.offset + 4 * (off % 0x80 / 4) := by omega
      rw [this]
      have e : (r.offset + 4 * (off % 128 / 4)) % 128 / 4 = off % 128 / 4 := by omega
      rw [e]
      exact namesWide_of_lt r ‹_›
    · cases h
  · cases h

/-- An aligned offset is one of the five control registers, a named word, or reserved. -/
theorem locate_cases (c : Config) (off : Nat) (ha : off % 4 = 0) :
    off ∈ [0x000, 0x004, 0x008, 0x00C, 0x010] ∨ (∃ r j, NamesWide c off r j ∧ locate c off = .wide r j) ∨
      locate c off = .reserved := by
  by_cases h5 : off ∈ [0x000, 0x004, 0x008, 0x00C, 0x010]
  · exact .inl h5
  · simp only [List.mem_cons, List.not_mem_nil, or_false, not_or] at h5
    right
    cases h : locate c off
    case wide r j => exact .inl ⟨r, j, namesWide_of_locate ha h, rfl⟩
    case reserved => exact .inr rfl
    all_goals
      exfalso
      unfold locate at h
      rw [if_neg h5.1, if_neg h5.2.1, if_neg h5.2.2.1, if_neg h5.2.2.2.1, if_neg h5.2.2.2.2] at h
      split at h
      · split at h <;> cases h
      · cases h

/-! ## One access -/

/-- A legal instance has its window at a multiple of 4. -/
theorem Config.base_mod_four {c : Config} (h : c.legal = true) : c.base % 4 = 0 := by
  simp only [Config.legal, decide_eq_true_eq] at h
  omega

/-- A legal read inside the window answers its word and changes nothing else. -/
theorem hostAccess_read {s : State} {off : Nat} (hc : s.cfg.legal = true) (hr : s.rstN = true)
    (ha : off % 4 = 0) (ho : off < 0x800) :
    s.hostAccess (.read (s.cfg.base + off) 4) = { s with bus := some (.data (s.readOffset off)) } := by
  have hb := Config.base_mod_four hc
  have hw : s.inWindow (s.cfg.base + off) = true := by simp [State.inWindow]; omega
  have hl : legalAccess (s.cfg.base + off) 4 = true := by simp [legalAccess]; omega
  simp [State.hostAccess, hr, hw, hl]

/-- A legal write inside the window is a write at its offset. -/
theorem hostAccess_write {s : State} {off : Nat} (v : Word) (hc : s.cfg.legal = true) (hr : s.rstN = true)
    (ha : off % 4 = 0) (ho : off < 0x800) :
    s.hostAccess (.write (s.cfg.base + off) 4 v) = { s.writeOffset off v with bus := some .written } := by
  have hb := Config.base_mod_four hc
  have hw : s.inWindow (s.cfg.base + off) = true := by simp [State.inWindow]; omega
  have hl : legalAccess (s.cfg.base + off) 4 = true := by simp [legalAccess]; omega
  simp [State.hostAccess, hr, hw, hl]

/-- A rejected access changes no register (20_memory.md R64). -/
theorem hostAccess_illegal_write {s : State} {addr n : Nat} (v : Word) (hr : s.rstN = true)
    (hw : s.inWindow addr = true) (hl : legalAccess addr n = false) :
    s.hostAccess (.write addr n v) = { s with bus := some .writeError } := by
  simp [State.hostAccess, hr, hw, hl]

theorem hostAccess_illegal_read {s : State} {addr n : Nat} (hr : s.rstN = true)
    (hw : s.inWindow addr = true) (hl : legalAccess addr n = false) :
    s.hostAccess (.read addr n) = s.rejectRead := by
  simp [State.hostAccess, hr, hw, hl]

/-- What a host access can do: nothing but an answer, a soft reset, or one write to one location. -/
theorem hostAccess_cases (s : State) (a : Access) :
    (∃ o n, s.hostAccess a = { s with bus := o, freeIdx := n }) ∨
    (s.rstN = true ∧ s.hostAccess a = { s.softReset with bus := some .written }) ∨
    (s.rstN = true ∧ ∃ off v, s.hostAccess a =
      { s with blk := s.blk.writeLoc (locate s.cfg off) v, bus := some .written }) := by
  cases a with
  | read addr n =>
    left
    simp only [State.hostAccess]
    split
    · exact ⟨none, s.freeIdx, rfl⟩
    · split
      · exact ⟨_, s.freeIdx, rfl⟩
      · exact ⟨_, _, rfl⟩
  | write addr n v =>
    simp only [State.hostAccess]
    split
    · exact .inl ⟨none, s.freeIdx, rfl⟩
    · rename_i h
      have hr : s.rstN = true := by
        by_contra hn
        simp_all
      split
      · right
        unfold State.writeOffset
        split
        · exact .inl ⟨hr, rfl⟩
        · exact .inr ⟨hr, _, v, rfl⟩
      · exact .inl ⟨_, s.freeIdx, rfl⟩

end Sys2Proof.Machine
end

