-- ==== Sys2Proof/Laws/Run.lean ====
section
/-! SUPPORT. Evaluations inside an engine step: how a result, a fault and each request pass through
`Run.bind`. -/

namespace Sys2Proof.Machine

variable {α β : Type}

@[simp] theorem Run.ret_res (v : α) : (Run.ret v).res = .ok v := rfl
@[simp] theorem Run.ret_log (v : α) : (Run.ret v).log = [] := rfl
@[simp] theorem Run.raise_res (c : Err) : (Run.raise c : Run α).res = .fault c := rfl
@[simp] theorem Run.raise_log (c : Err) : (Run.raise c : Run α).log = [] := rfl
@[simp] theorem mAdd_res (x y m : Wide) : (mAdd x y m).res = .ok (copAdd x y m) := rfl
@[simp] theorem mSub_res (x y m : Wide) : (mSub x y m).res = .ok (copSub x y m) := rfl
@[simp] theorem mMul_res (x y m : Wide) : (mMul x y m).res = .ok (copMul x y m) := rfl
@[simp] theorem mAdd_log (x y m : Wide) : (mAdd x y m).log = [{ op := 0, x := x, y := y, m := m }] := rfl
@[simp] theorem mSub_log (x y m : Wide) : (mSub x y m).log = [{ op := 1, x := x, y := y, m := m }] := rfl
@[simp] theorem mMul_log (x y m : Wide) : (mMul x y m).log = [{ op := 2, x := x, y := y, m := m }] := rfl
@[simp] theorem mInv_log (x m : Wide) : (mInv x m).log = [{ op := 3, x := x, y := 0, m := m }] := rfl

/-- MINV with an inverse answers it. -/
theorem mInv_res_some {x m r : Wide} (h : copInv x m = some r) : (mInv x m).res = .ok r := by
  simp [mInv, h]

/-- MINV without one raises ARITH (40_coprocessor_ops.md R122). -/
theorem mInv_res_none {x m : Wide} (h : copInv x m = none) : (mInv x m).res = .fault .arith := by
  simp [mInv, h]

/-- A first evaluation that answers `v`: the second goes on from `v`, after the first one's requests. -/
theorem Run.bind_of_ok {r : Run α} {v : α} (h : r.res = .ok v) (f : α → Run β) :
    r.bind f = { res := (f v).res, log := r.log ++ (f v).log } := by
  simp [Run.bind, h]

/-- A first evaluation that faults ends the whole with its fault and its requests (00_scope.md R11). -/
theorem Run.bind_of_fault {r : Run α} {c : Err} (h : r.res = .fault c) (f : α → Run β) :
    r.bind f = { res := .fault c, log := r.log } := by
  simp [Run.bind, h]

@[simp] theorem Run.ret_bind (v : α) (f : α → Run β) : (Run.ret v).bind f = f v := by
  simp [Run.bind_of_ok (Run.ret_res v)]

@[simp] theorem Run.raise_bind (c : Err) (f : α → Run β) : (Run.raise c : Run α).bind f = Run.raise c := rfl

@[simp] theorem mAdd_bind (x y m : Wide) (f : Wide → Run β) : (mAdd x y m).bind f =
    { res := (f (copAdd x y m)).res
      log := { op := 0, x := x, y := y, m := m } :: (f (copAdd x y m)).log } := rfl

@[simp] theorem mSub_bind (x y m : Wide) (f : Wide → Run β) : (mSub x y m).bind f =
    { res := (f (copSub x y m)).res
      log := { op := 1, x := x, y := y, m := m } :: (f (copSub x y m)).log } := rfl

@[simp] theorem mMul_bind (x y m : Wide) (f : Wide → Run β) : (mMul x y m).bind f =
    { res := (f (copMul x y m)).res
      log := { op := 2, x := x, y := y, m := m } :: (f (copMul x y m)).log } := rfl

theorem mInv_bind_some {x m r : Wide} (h : copInv x m = some r) (f : Wide → Run β) : (mInv x m).bind f =
    { res := (f r).res, log := { op := 3, x := x, y := 0, m := m } :: (f r).log } :=
  Run.bind_of_ok (mInv_res_some h) f

theorem mInv_bind_none {x m : Wide} (h : copInv x m = none) (f : Wide → Run β) : (mInv x m).bind f =
    { res := .fault .arith, log := [{ op := 3, x := x, y := 0, m := m }] } :=
  Run.bind_of_fault (mInv_res_none h) f

/-- What a sequence of two evaluations can do: answer through both, or stop at the first fault. -/
theorem Run.bind_res_ok {r : Run α} {f : α → Run β} {w : β} (h : (r.bind f).res = .ok w) :
    ∃ v, r.res = .ok v ∧ (f v).res = .ok w := by
  unfold Run.bind at h
  split at h
  · exact ⟨_, ‹_›, h⟩
  · cases h

theorem Run.bind_res_fault {r : Run α} {f : α → Run β} {c : Err} (h : (r.bind f).res = .fault c) :
    r.res = .fault c ∨ ∃ v, r.res = .ok v ∧ (f v).res = .fault c := by
  unfold Run.bind at h
  split at h
  · exact .inr ⟨_, ‹_›, h⟩
  · cases h; exact .inl ‹_›

/-- Every request of a sequence is one of the first or one of the second. -/
theorem Run.mem_bind_log {r : Run α} {f : α → Run β} {q : Request} (h : q ∈ (r.bind f).log) :
    q ∈ r.log ∨ ∃ v, r.res = .ok v ∧ q ∈ (f v).log := by
  unfold Run.bind at h
  split at h
  · rcases List.mem_append.1 h with h | h
    · exact .inl h
    · exact .inr ⟨_, ‹_›, h⟩
  · exact .inl h

end Sys2Proof.Machine
end

