-- ==== Sys2Proof/Laws/Coprocessor.lean ====
section
/-! SUPPORT. The coprocessor's functions as arithmetic on numbers (40_coprocessor_ops.md R112 to R115),
for a modulus that is not 0. -/

namespace Sys2Proof.Machine

theorem wide_toNat_of_lt {n : Nat} {m : Wide} (h : n < m.toNat) : (wide n).toNat = n := by
  rw [wide, BitVec.toNat_ofNat]
  exact Nat.mod_eq_of_lt (h.trans m.isLt)

theorem wide_zero_toNat : (0 : Wide).toNat = 0 := by
  simp only [BitVec.ofNat_eq_ofNat, BitVec.toNat_ofNat, Nat.zero_mod]

theorem toNat_pos {m : Wide} (h : m ≠ 0) : 0 < m.toNat := by
  rcases Nat.eq_zero_or_pos m.toNat with e | e
  · exact absurd (BitVec.eq_of_toNat_eq (e.trans wide_zero_toNat.symm)) h
  · exact e

theorem copAdd_toNat (x y : Wide) {m : Wide} (h : m ≠ 0) :
    (copAdd x y m).toNat = (x.toNat + y.toNat) % m.toNat := by
  rw [copAdd, if_neg h]
  exact wide_toNat_of_lt (Nat.mod_lt _ (toNat_pos h))

theorem copMul_toNat (x y : Wide) {m : Wide} (h : m ≠ 0) :
    (copMul x y m).toNat = (x.toNat * y.toNat) % m.toNat := by
  rw [copMul, if_neg h]
  exact wide_toNat_of_lt (Nat.mod_lt _ (toNat_pos h))

theorem copSub_toNat (x y : Wide) {m : Wide} (h : m ≠ 0) :
    ((copSub x y m).toNat : Int) = ((x.toNat : Int) - y.toNat) % m.toNat := by
  have hm : (0 : Int) < m.toNat := by exact_mod_cast toNat_pos h
  have h0 := Int.emod_nonneg ((x.toNat : Int) - y.toNat) hm.ne'
  have h1 := Int.emod_lt_of_pos ((x.toNat : Int) - y.toNat) hm
  rw [copSub, if_neg h, wide_toNat_of_lt (m := m) (by omega), Int.toNat_of_nonneg h0]

theorem copAdd_lt (x y : Wide) {m : Wide} (h : m ≠ 0) : (copAdd x y m).toNat < m.toNat := by
  rw [copAdd_toNat x y h]; exact Nat.mod_lt _ (toNat_pos h)

theorem copMul_lt (x y : Wide) {m : Wide} (h : m ≠ 0) : (copMul x y m).toNat < m.toNat := by
  rw [copMul_toNat x y h]; exact Nat.mod_lt _ (toNat_pos h)

theorem copSub_lt (x y : Wide) {m : Wide} (h : m ≠ 0) : (copSub x y m).toNat < m.toNat := by
  have := copSub_toNat x y h
  have hm : (0 : Int) < m.toNat := by exact_mod_cast toNat_pos h
  have := Int.emod_lt_of_pos ((x.toNat : Int) - y.toNat) hm
  omega

/-! ## Euclid's algorithm -/

/-- What the algorithm keeps: the cofactors stand for the remainders mod m, and the gcd of the two
remainders is the gcd it ends at. -/
theorem euclid_spec (m x : Nat) (hm : 0 < m) : ∀ (fuel r0 r1 t0 t1 : Nat), r1 ≤ fuel →
    (t0 * x ≡ r0 [MOD m]) → (t1 * x ≡ r1 [MOD m]) →
    (euclid m fuel r0 r1 t0 t1).1 = Nat.gcd r0 r1 ∧
      (euclid m fuel r0 r1 t0 t1).2 * x ≡ Nat.gcd r0 r1 [MOD m] := by
  intro fuel
  induction fuel with
  | zero =>
    intro r0 r1 t0 t1 hf h0 _
    have : r1 = 0 := by omega
    subst this
    simpa [euclid] using h0
  | succ fuel ih =>
    intro r0 r1 t0 t1 hf h0 h1
    unfold euclid
    split
    · rename_i e; subst e; simpa using h0
    · rename_i hne
      have hlt : r0 % r1 < r1 := Nat.mod_lt _ (by omega)
      have hstep : (t0 + (m - r0 / r1 * t1 % m)) % m * x ≡ r0 % r1 [MOD m] := by
        refine ((Nat.mod_modEq _ _).mul_right x).trans ?_
        have hq : r0 / r1 * t1 % m < m := Nat.mod_lt _ hm
        have hadd : (t0 + (m - r0 / r1 * t1 % m)) + r0 / r1 * t1 % m = t0 + m := by omega
        have hsum : (t0 + (m - r0 / r1 * t1 % m)) * x + r0 / r1 * r1 ≡ r0 % r1 + r0 / r1 * r1 [MOD m] := by
          calc (t0 + (m - r0 / r1 * t1 % m)) * x + r0 / r1 * r1
              ≡ (t0 + (m - r0 / r1 * t1 % m)) * x + r0 / r1 * (t1 * x) [MOD m] :=
                Nat.ModEq.add_left _ (Nat.ModEq.mul_left _ h1.symm)
            _ = (t0 + (m - r0 / r1 * t1 % m)) * x + (r0 / r1 * t1) * x := by ring
            _ ≡ (t0 + (m - r0 / r1 * t1 % m)) * x + (r0 / r1 * t1 % m) * x [MOD m] :=
                Nat.ModEq.add_left _ (Nat.ModEq.mul_right _ (Nat.mod_modEq _ _).symm)
            _ = (t0 + m) * x := by rw [← Nat.add_mul, hadd]
            _ ≡ t0 * x [MOD m] := by
                have : (t0 + m) * x = t0 * x + m * x := by ring
                rw [this]
                exact Nat.add_modEq_left_iff.2 (Dvd.intro _ rfl) |>.symm.trans (by rfl) |>.symm
            _ ≡ r0 [MOD m] := h0
            _ = r0 % r1 + r0 / r1 * r1 := by rw [Nat.mul_comm]; exact (Nat.mod_add_div r0 r1).symm
        exact Nat.ModEq.add_right_cancel' _ hsum
      have := ih r1 (r0 % r1) t1 _ (by omega) h1 hstep
      rwa [show Nat.gcd r0 r1 = Nat.gcd r1 (r0 % r1) by
        rw [Nat.gcd_comm r0 r1, Nat.gcd_rec r1 r0, Nat.gcd_comm]]

/-- `modInverse` answers a value below m that inverts x mod m. -/
theorem modInverse_some {x m r : Nat} (hm : 0 < m) (h : modInverse x m = some r) :
    r < m ∧ (x * r) % m = 1 % m := by
  have hs := euclid_spec m x hm m m (x % m) 0 (1 % m) (Nat.mod_lt _ hm).le
    (by simp [Nat.ModEq]) (by simpa using ((Nat.mod_modEq 1 m).mul_right x).trans (by simpa using (Nat.mod_modEq x m).symm))
  unfold modInverse at h
  simp only at h
  split at h
  · rename_i hg
    cases h
    refine ⟨Nat.mod_lt _ hm, ?_⟩
    rw [← hs.1, hg] at hs
    have := ((Nat.mod_modEq (euclid m m m (x % m) 0 (1 % m)).2 m).mul_right x).trans hs.2
    rwa [Nat.mul_comm] at this
  · cases h

/-- `modInverse` answers nothing exactly when x mod m and m have a common factor. -/
theorem modInverse_isSome (x : Nat) {m : Nat} (hm : 0 < m) :
    (modInverse x m).isSome = true ↔ Nat.gcd (x % m) m = 1 := by
  have hs := euclid_spec m x hm m m (x % m) 0 (1 % m) (Nat.mod_lt _ hm).le
    (by simp [Nat.ModEq]) (by simpa using ((Nat.mod_modEq 1 m).mul_right x).trans (by simpa using (Nat.mod_modEq x m).symm))
  unfold modInverse
  simp only
  rw [Nat.gcd_comm, ← hs.1]
  split <;> simp_all

/-- MINV with an answer: below m, and an inverse of x (40_coprocessor_ops.md R115). -/
theorem copInv_some {x m r : Wide} (h : m ≠ 0) (hr : copInv x m = some r) :
    r.toNat < m.toNat ∧ (x.toNat * r.toNat) % m.toNat = 1 % m.toNat := by
  rw [copInv, if_neg h, Option.map_eq_some_iff] at hr
  obtain ⟨n, hn, rfl⟩ := hr
  have hi := modInverse_some (toNat_pos h) hn
  rw [wide_toNat_of_lt hi.1]
  exact hi

/-- MINV answers `Err` exactly when x mod m and m have a common factor (40_coprocessor_ops.md R115). -/
theorem copInv_none_iff (x : Wide) {m : Wide} (h : m ≠ 0) :
    copInv x m = none ↔ Nat.gcd (x.toNat % m.toNat) m.toNat ≠ 1 := by
  rw [copInv, if_neg h, Ne, ← modInverse_isSome x.toNat (toNat_pos h)]
  cases modInverse x.toNat m.toNat <;> simp

end Sys2Proof.Machine
end

