-- ==== Sys2Proof/Laws/Decode.lean ====
section
/-! SUPPORT. What the decoder can answer: a command word is one of the four commands or ILLEGAL, never a
request. -/

namespace Sys2Proof

theorem decodeCommand_cases (w : Word) :
    decodeCommand w = .ok (.pchk (fieldRA w)) ∨
    decodeCommand w = .ok (.padd (fieldRD w) (fieldRA w) (fieldRB w)) ∨
    decodeCommand w = .ok (.pdbl (fieldRD w) (fieldRA w)) ∨
    decodeCommand w = .ok (.ladder (fieldRD w) (fieldRA w)) ∨
    decodeCommand w = .reject .illegalCommand := by
  unfold decodeCommand
  split; · exact .inl rfl
  split; · exact .inr (.inl rfl)
  split; · exact .inr (.inr (.inl rfl))
  split; · exact .inr (.inr (.inr (.inl rfl)))
  exact .inr (.inr (.inr (.inr rfl)))

theorem decodeRequest_cases (r : Request) :
    (r.op = 0 ∧ decodeRequest r = .ok (.madd r.x r.y r.m)) ∨
    (r.op = 1 ∧ decodeRequest r = .ok (.msub r.x r.y r.m)) ∨
    (r.op = 2 ∧ decodeRequest r = .ok (.mmul r.x r.y r.m)) ∨
    (r.op = 3 ∧ decodeRequest r = .ok (.minv r.x r.m)) ∨
    (4 ≤ r.op.toNat ∧ decodeRequest r = .reject .reservedRequest) := by
  have all : ∀ o : BitVec 3, o = 0#3 ∨ o = 1#3 ∨ o = 2#3 ∨ o = 3#3 ∨ 4 ≤ o.toNat := by decide
  have hne : ∀ o : BitVec 3, 4 ≤ o.toNat → o ≠ 0#3 ∧ o ≠ 1#3 ∧ o ≠ 2#3 ∧ o ≠ 3#3 := by decide
  rcases all r.op with h | h | h | h | h
  · exact .inl ⟨h, by simp [decodeRequest, h]⟩
  · exact .inr (.inl ⟨h, by simp [decodeRequest, h]⟩)
  · exact .inr (.inr (.inl ⟨h, by simp [decodeRequest, h]⟩))
  · exact .inr (.inr (.inr (.inl ⟨h, by simp [decodeRequest, h]⟩)))
  · obtain ⟨h0, h1, h2, h3⟩ := hne _ h
    refine .inr (.inr (.inr (.inr ⟨h, ?_⟩)))
    unfold decodeRequest
    rw [if_neg h0, if_neg h1, if_neg h2, if_neg h3]

/-- The four rows of 30_encoding.md R93 share no word. -/
theorem command_rows_disjoint :
    List.Pairwise (fun a b : Word × Word => (a.1 &&& b.1) &&& (a.2 ^^^ b.2) ≠ 0)
      [(0xFFFFFFCF, 0x01000000), (0xFFFFFCCC, 0x02000000), (0xFFFFFFCC, 0x03000000),
        (0xFFFFFFCC, 0x04000000)] := by decide

end Sys2Proof
end

