-- ==== Sys2Proof/Laws/Validator.lean ====
section
/-! SUPPORT. The validator (41_validator.md R130 to R134): it never faults, and its answer is the plain
arithmetic of the curve equation. -/

namespace Sys2Proof.Machine

/-- A modulus above some W-bit number is not 0, so the validator never asks at modulus 0 (R133). -/
theorem ne_zero_of_lt {x p : Wide} (h : x.toNat < p.toNat) : p ≠ 0 := by
  rintro rfl
  rw [wide_zero_toNat] at h
  exact Nat.not_lt_zero _ h

@[simp] theorem onCurve_inf (a b p : Wide) : onCurve a b p .inf = .ret true := rfl

/-- Out of range: false, without a request (R132). -/
theorem onCurve_out {a b p x y : Wide} (h : ¬ (x.toNat < p.toNat ∧ y.toNat < p.toNat)) :
    onCurve a b p (.aff x y) = .ret false := by
  have : p ≤ x ∨ p ≤ y := by simp only [BitVec.le_def]; omega
  simp [onCurve, this]

/-- In range: six requests and the comparison of the two sides (R130). -/
theorem onCurve_in {a b p x y : Wide} (h : x.toNat < p.toNat ∧ y.toNat < p.toNat) :
    onCurve a b p (.aff x y) =
      { res := .ok (decide (copMul y y p =
          copAdd (copAdd (copMul (copMul x x p) x p) (copMul a x p) p) b p))
        log := [⟨2, y, y, p⟩, ⟨2, x, x, p⟩, ⟨2, copMul x x p, x, p⟩, ⟨2, a, x, p⟩,
          ⟨0, copMul (copMul x x p) x p, copMul a x p, p⟩,
          ⟨0, copAdd (copMul (copMul x x p) x p) (copMul a x p) p, b, p⟩] } := by
  have : ¬ (p ≤ x ∨ p ≤ y) := by simp only [BitVec.le_def]; omega
  simp [onCurve, this]

/-- The two sides of the validator's comparison are the two sides of the curve equation mod p. -/
theorem onCurve_sides {a b p x y : Wide} (hp : p ≠ 0) :
    copMul y y p = copAdd (copAdd (copMul (copMul x x p) x p) (copMul a x p) p) b p ↔
      (y.toNat ^ 2) % p.toNat = (x.toNat ^ 3 + a.toNat * x.toNat + b.toNat) % p.toNat := by
  have e : ∀ u v : Wide, u = v ↔ u.toNat = v.toNat :=
    fun u v => ⟨congrArg _, BitVec.eq_of_toNat_eq⟩
  rw [e, copMul_toNat _ _ hp, copAdd_toNat _ _ hp, copAdd_toNat _ _ hp, copMul_toNat _ _ hp,
    copMul_toNat _ _ hp, copMul_toNat _ _ hp]
  have h3 : (((x.toNat * x.toNat) % p.toNat * x.toNat) % p.toNat + (a.toNat * x.toNat) % p.toNat) % p.toNat
      = (x.toNat ^ 3 + a.toNat * x.toNat) % p.toNat := by
    rw [← Nat.add_mod, Nat.add_mod, Nat.mod_mul_mod, ← Nat.add_mod]
    congr 2; ring
  rw [h3, Nat.mod_add_mod, pow_two]

/-- The validator's answer, and that it always has one (R130 to R132). -/
theorem onCurve_answers (a b p : Wide) (P : Point) :
    ∃ v : Bool, (onCurve a b p P).res = .ok v ∧ (v = true ↔ Valid a b p P) := by
  cases P with
  | inf => exact ⟨true, rfl, by simp [Valid]⟩
  | aff x y =>
    by_cases h : x.toNat < p.toNat ∧ y.toNat < p.toNat
    · rw [onCurve_in h]
      refine ⟨_, rfl, ?_⟩
      rw [decide_eq_true_iff, onCurve_sides (ne_zero_of_lt h.1)]
      exact ⟨fun e => ⟨h.1, h.2, e⟩, fun e => e.2.2⟩
    · rw [onCurve_out h]
      exact ⟨false, rfl, by simpa using fun hv : Valid a b p (.aff x y) => h ⟨hv.1, hv.2.1⟩⟩

theorem onCurve_of_valid {a b p : Wide} {P : Point} (h : Valid a b p P) :
    (onCurve a b p P).res = .ok true := by
  obtain ⟨v, hv, hiff⟩ := onCurve_answers a b p P
  rw [hv, hiff.2 h]

theorem onCurve_of_not_valid {a b p : Wide} {P : Point} (h : ¬ Valid a b p P) :
    (onCurve a b p P).res = .ok false := by
  obtain ⟨v, hv, hiff⟩ := onCurve_answers a b p P
  cases v
  · exact hv
  · exact absurd (hiff.1 rfl) h

end Sys2Proof.Machine
end

