-- ==== Sys2Proof/Laws/PointAdd.lean ====
section
/-! SUPPORT. The addition function case by case (42_point_add.md R140): result and requests. -/

namespace Sys2Proof.Machine

variable {a b p : Wide} {P Q : Point} {xP yP xQ yQ : Wide}

/-- P off the curve: INVALID_POINT, Q not validated (R141). -/
theorem pAdd_invalid_left (h : ¬ Valid a b p P) :
    pAdd a b p P Q = { res := .fault .invalidPoint, log := (onCurve a b p P).log } := by
  simp [pAdd, Run.bind_of_ok (onCurve_of_not_valid h)]

/-- Q off the curve: INVALID_POINT, also when P is the identity (R141). -/
theorem pAdd_invalid_right (hP : Valid a b p P) (h : ¬ Valid a b p Q) :
    pAdd a b p P Q =
      { res := .fault .invalidPoint, log := (onCurve a b p P).log ++ (onCurve a b p Q).log } := by
  simp [pAdd, Run.bind_of_ok (onCurve_of_valid hP), Run.bind_of_ok (onCurve_of_not_valid h)]

/-- The identity is neutral on the left (R142). -/
theorem pAdd_inf_left (hQ : Valid a b p Q) :
    pAdd a b p .inf Q = { res := .ok Q, log := (onCurve a b p Q).log } := by
  simp [pAdd, Run.bind_of_ok (onCurve_of_valid hQ)]

/-- The identity is neutral on the right (R142). -/
theorem pAdd_inf_right (hP : Valid a b p P) :
    pAdd a b p P .inf = { res := .ok P, log := (onCurve a b p P).log } := by
  cases P with
  | inf => rfl
  | aff x y => simp [pAdd, Run.bind_of_ok (onCurve_of_valid hP)]

/-- Equal affine points fault (R143). -/
theorem pAdd_equal (hP : Valid a b p (.aff xP yP)) :
    pAdd a b p (.aff xP yP) (.aff xP yP) =
      { res := .fault .equalPoints
        log := (onCurve a b p (.aff xP yP)).log ++ (onCurve a b p (.aff xP yP)).log } := by
  simp [pAdd, Run.bind_of_ok (onCurve_of_valid hP)]

/-- An inverse pair gives the identity, after one MADD (R144). -/
theorem pAdd_inverse (hP : Valid a b p (.aff xP yP)) (hQ : Valid a b p (.aff xP yQ)) (hne : yP ≠ yQ)
    (hs : copAdd yP yQ p = 0) :
    pAdd a b p (.aff xP yP) (.aff xP yQ) =
      { res := .ok .inf
        log := (onCurve a b p (.aff xP yP)).log ++ ((onCurve a b p (.aff xP yQ)).log ++
          [⟨0, yP, yQ, p⟩]) } := by
  simp [pAdd, Run.bind_of_ok (onCurve_of_valid hP), Run.bind_of_ok (onCurve_of_valid hQ), hne, hs]

/-- A chord whose x difference has no inverse faults with ARITH (R153). -/
theorem pAdd_arith (hP : Valid a b p (.aff xP yP)) (hQ : Valid a b p (.aff xQ yQ))
    (hne : ¬ (xP = xQ ∧ yP = yQ)) (hs : ¬ (xP = xQ ∧ copAdd yP yQ p = 0))
    (hi : copInv (copSub xQ xP p) p = none) :
    pAdd a b p (.aff xP yP) (.aff xQ yQ) =
      { res := .fault .arith
        log := (onCurve a b p (.aff xP yP)).log ++ ((onCurve a b p (.aff xQ yQ)).log ++
          [⟨0, yP, yQ, p⟩, ⟨1, yQ, yP, p⟩, ⟨1, xQ, xP, p⟩, ⟨3, copSub xQ xP p, 0, p⟩]) } := by
  simp only [pAdd, Run.bind_of_ok (onCurve_of_valid hP), Run.bind_of_ok (onCurve_of_valid hQ), if_neg hne,
    mAdd_bind, if_neg hs, mSub_bind, mInv_bind_none hi]
  rfl

/-- The chord (R145). -/
theorem pAdd_chord {i lam xR yR : Wide} (hP : Valid a b p (.aff xP yP)) (hQ : Valid a b p (.aff xQ yQ))
    (hne : ¬ (xP = xQ ∧ yP = yQ)) (hs : ¬ (xP = xQ ∧ copAdd yP yQ p = 0))
    (hi : copInv (copSub xQ xP p) p = some i)
    (hl : lam = copMul (copSub yQ yP p) i p)
    (hx : xR = copSub (copSub (copMul lam lam p) xP p) xQ p)
    (hy : yR = copSub (copMul lam (copSub xP xR p) p) yP p) :
    pAdd a b p (.aff xP yP) (.aff xQ yQ) =
      { res := .ok (.aff xR yR)
        log := (onCurve a b p (.aff xP yP)).log ++ ((onCurve a b p (.aff xQ yQ)).log ++
          [⟨0, yP, yQ, p⟩, ⟨1, yQ, yP, p⟩, ⟨1, xQ, xP, p⟩, ⟨3, copSub xQ xP p, 0, p⟩,
            ⟨2, copSub yQ yP p, i, p⟩, ⟨2, lam, lam, p⟩, ⟨1, copMul lam lam p, xP, p⟩,
            ⟨1, copSub (copMul lam lam p) xP p, xQ, p⟩, ⟨1, xP, xR, p⟩,
            ⟨2, lam, copSub xP xR p, p⟩, ⟨1, copMul lam (copSub xP xR p) p, yP, p⟩]) } := by
  subst hy hx hl
  simp only [pAdd, Run.bind_of_ok (onCurve_of_valid hP), Run.bind_of_ok (onCurve_of_valid hQ), if_neg hne,
    mAdd_bind, if_neg hs, mSub_bind, mInv_bind_some hi, mMul_bind, Run.ret_res, Run.ret_log]
  rfl

/-- The inverse-pair test on numbers: the sum of the two y is 0 mod p (R144). -/
theorem copAdd_eq_zero_iff {x y m : Wide} (h : m ≠ 0) :
    copAdd x y m = 0 ↔ (x.toNat + y.toNat) % m.toNat = 0 := by
  rw [← copAdd_toNat x y h]
  exact ⟨fun e => by rw [e, wide_zero_toNat], fun e => BitVec.eq_of_toNat_eq (e.trans wide_zero_toNat.symm)⟩

end Sys2Proof.Machine
end

