-- ==== Sys2Proof/Laws/PointDouble.lean ====
section
/-! SUPPORT. The doubling function case by case (43_point_double.md R160): result and requests. -/

namespace Sys2Proof.Machine

variable {a b p x y : Wide} {P : Point}

/-- Off the curve: INVALID_POINT (R161). -/
theorem pDbl_invalid (h : ¬ Valid a b p P) :
    pDbl a b p P = { res := .fault .invalidPoint, log := (onCurve a b p P).log } := by
  simp [pDbl, Run.bind_of_ok (onCurve_of_not_valid h)]

/-- The identity doubles to the identity without a request (R162). -/
@[simp] theorem pDbl_inf (a b p : Wide) : pDbl a b p .inf = .ret .inf := rfl

/-- A point of order 2 faults (R163). -/
theorem pDbl_vertical (h : Valid a b p (.aff x y)) (hy : y = 0) :
    pDbl a b p (.aff x y) = { res := .fault .doublingUndefined, log := (onCurve a b p (.aff x y)).log } := by
  simp only [pDbl, Run.bind_of_ok (onCurve_of_valid h), if_pos hy]
  simp

/-- A tangent whose 2y has no inverse faults with ARITH (R167). -/
theorem pDbl_arith (h : Valid a b p (.aff x y)) (hy0 : y ≠ 0) (hi : copInv (copAdd y y p) p = none) :
    pDbl a b p (.aff x y) =
      { res := .fault .arith
        log := (onCurve a b p (.aff x y)).log ++
          [⟨2, x, x, p⟩, ⟨0, copMul x x p, copMul x x p, p⟩,
            ⟨0, copAdd (copMul x x p) (copMul x x p) p, copMul x x p, p⟩,
            ⟨0, copAdd (copAdd (copMul x x p) (copMul x x p) p) (copMul x x p) p, a, p⟩,
            ⟨0, y, y, p⟩, ⟨3, copAdd y y p, 0, p⟩] } := by
  simp only [pDbl, Run.bind_of_ok (onCurve_of_valid h), if_neg hy0, mAdd_bind, mMul_bind, mInv_bind_none hi]
  rfl

/-- The tangent (R164). -/
theorem pDbl_tangent {i num lam xR yR : Wide} (h : Valid a b p (.aff x y)) (hy0 : y ≠ 0)
    (hi : copInv (copAdd y y p) p = some i)
    (hn : num = copAdd (copAdd (copAdd (copMul x x p) (copMul x x p) p) (copMul x x p) p) a p)
    (hl : lam = copMul num i p)
    (hx : xR = copSub (copSub (copMul lam lam p) x p) x p)
    (hy : yR = copSub (copMul lam (copSub x xR p) p) y p) :
    pDbl a b p (.aff x y) =
      { res := .ok (.aff xR yR)
        log := (onCurve a b p (.aff x y)).log ++
          [⟨2, x, x, p⟩, ⟨0, copMul x x p, copMul x x p, p⟩,
            ⟨0, copAdd (copMul x x p) (copMul x x p) p, copMul x x p, p⟩,
            ⟨0, copAdd (copAdd (copMul x x p) (copMul x x p) p) (copMul x x p) p, a, p⟩,
            ⟨0, y, y, p⟩, ⟨3, copAdd y y p, 0, p⟩, ⟨2, num, i, p⟩, ⟨2, lam, lam, p⟩,
            ⟨1, copMul lam lam p, x, p⟩, ⟨1, copSub (copMul lam lam p) x p, x, p⟩, ⟨1, x, xR, p⟩,
            ⟨2, lam, copSub x xR p, p⟩, ⟨1, copMul lam (copSub x xR p) p, y, p⟩] } := by
  subst hy hx hl hn
  simp only [pDbl, Run.bind_of_ok (onCurve_of_valid h), if_neg hy0, mAdd_bind, mMul_bind, mSub_bind,
    mInv_bind_some hi, Run.ret_res, Run.ret_log]
  rfl

end Sys2Proof.Machine
end

