-- ==== Sys2Proof/Laws/Group.lean ====
section
/-! SUPPORT. The engines compute in the curve's group: on a valid curve each sub-operation that
does not fault is the group's addition (44_ladder.md R197). -/

namespace Sys2Proof.Machine

open Sys2Proof WeierstrassCurve.Affine

variable {a b p : Wide}

/-! ## Residues -/

/-- Numbers below p with equal residues are equal. -/
theorem eq_of_cast_eq {x y : Wide} (hx : x.toNat < p.toNat) (hy : y.toNat < p.toNat)
    (h : (x.toNat : ZMod p.toNat) = y.toNat) : x = y := by
  rw [ZMod.natCast_eq_natCast_iff] at h
  exact BitVec.eq_of_toNat_eq (Nat.ModEq.eq_of_lt_of_lt h hx hy)

theorem cast_eq_zero_iff {y : Wide} (hy : y.toNat < p.toNat) : (y.toNat : ZMod p.toNat) = 0 ↔ y = 0 := by
  constructor
  · intro h
    exact BitVec.eq_of_toNat_eq
      ((Nat.eq_zero_of_dvd_of_lt ((ZMod.natCast_eq_zero_iff _ _).1 h) hy).trans wide_zero_toNat.symm)
  · rintro rfl
    rw [wide_zero_toNat, Nat.cast_zero]

theorem copAdd_cast (x y : Wide) (h : p ≠ 0) :
    ((copAdd x y p).toNat : ZMod p.toNat) = x.toNat + y.toNat := by
  rw [copAdd_toNat x y h, ZMod.natCast_mod, Nat.cast_add]

theorem copMul_cast (x y : Wide) (h : p ≠ 0) :
    ((copMul x y p).toNat : ZMod p.toNat) = x.toNat * y.toNat := by
  rw [copMul_toNat x y h, ZMod.natCast_mod, Nat.cast_mul]

theorem copSub_cast (x y : Wide) (h : p ≠ 0) :
    ((copSub x y p).toNat : ZMod p.toNat) = x.toNat - y.toNat := by
  have := congrArg (Int.cast : Int → ZMod p.toNat) (copSub_toNat x y h)
  rwa [ZMod.intCast_mod, Int.cast_natCast, Int.cast_sub, Int.cast_natCast, Int.cast_natCast] at this

/-- Modulo a prime MINV inverts whatever is not 0 (40_coprocessor_ops.md R122). -/
theorem copInv_of_prime [Fact p.toNat.Prime] {x : Wide} (h : p ≠ 0) (hx : (x.toNat : ZMod p.toNat) ≠ 0) :
    ∃ i, copInv x p = some i ∧ (i.toNat : ZMod p.toNat) = (x.toNat : ZMod p.toNat)⁻¹ := by
  cases hi : copInv x p with
  | none =>
    rw [copInv_none_iff x h] at hi
    refine absurd ?_ hi
    rw [Nat.gcd_comm, ← Nat.coprime_iff_gcd_eq_one, (Fact.out : p.toNat.Prime).coprime_iff_not_dvd,
      ← ZMod.natCast_eq_zero_iff, ZMod.natCast_mod]
    exact hx
  | some i =>
    refine ⟨i, rfl, eq_inv_of_mul_eq_one_right ?_⟩
    have := congrArg (Nat.cast : Nat → ZMod p.toNat) (copInv_some h hi).2
    rwa [ZMod.natCast_mod, ZMod.natCast_mod, Nat.cast_mul, Nat.cast_one] at this

/-! ## Point values and group elements -/

theorem curveOf_Δ_ne_zero [Fact p.toNat.Prime] (hc : ValidCurve a b p) : (curveOf a b p).Δ ≠ 0 := by
  obtain ⟨hp, h2, hd⟩ := hc
  have h2' : (2 : ZMod p.toNat) ≠ 0 := by
    intro h
    have := (ZMod.natCast_eq_zero_iff 2 p.toNat).1 (by exact_mod_cast h)
    exact h2 ((Nat.prime_dvd_prime_iff_eq hp Nat.prime_two).1 this)
  have hd' : (4 * (a.toNat : ZMod p.toNat) ^ 3 + 27 * (b.toNat : ZMod p.toNat) ^ 2) ≠ 0 := by
    intro h
    exact hd (Nat.mod_eq_zero_of_dvd ((ZMod.natCast_eq_zero_iff _ _).1 (by push_cast; exact h)))
  have e : (curveOf a b p).Δ =
      -(2 ^ 4 * (4 * (a.toNat : ZMod p.toNat) ^ 3 + 27 * (b.toNat : ZMod p.toNat) ^ 2)) := by
    simp only [curveOf, WeierstrassCurve.Δ, WeierstrassCurve.b₂, WeierstrassCurve.b₄, WeierstrassCurve.b₆,
      WeierstrassCurve.b₈]
    ring
  rw [e]
  exact neg_ne_zero.2 (mul_ne_zero (pow_ne_zero _ h2') hd')

/-- The curve's equation in Mathlib's form is the validator's congruence (41_validator.md R130). -/
theorem equation_iff_valid (x y : Wide) : (curveOf a b p).Equation (x.toNat : ZMod p.toNat) y.toNat ↔
    (y.toNat ^ 2) % p.toNat = (x.toNat ^ 3 + a.toNat * x.toNat + b.toNat) % p.toNat := by
  rw [equation_iff, ← Nat.ModEq, ← ZMod.natCast_eq_natCast_iff]
  simp [curveOf]

/-- Every point of the curve stands for an element of its group. -/
theorem exists_represents [Fact p.toNat.Prime] (hc : ValidCurve a b p) {P : Point} (hP : Valid a b p P) :
    ∃ M : (curveOf a b p).Point, Represents P M := by
  cases P with
  | inf => exact ⟨.zero, trivial⟩
  | aff x y =>
    have he := (equation_iff_valid x y).2 hP.2.2
    exact ⟨.some _ _ ((equation_iff_nonsingular_of_Δ_ne_zero (curveOf_Δ_ne_zero hc)).1 he),
      hP.1, hP.2.1, rfl, rfl⟩

/-- What stands for a group element is a point of the curve. -/
theorem Represents.valid {P : Point} {M : (curveOf a b p).Point} (h : Represents P M) : Valid a b p P := by
  cases P with
  | inf => trivial
  | aff x y =>
    cases M with
    | zero => exact h.elim
    | some u v hn =>
      obtain ⟨hx, hy, rfl, rfl⟩ := h
      exact ⟨hx, hy, (equation_iff_valid x y).1 hn.1⟩

@[simp] theorem represents_inf_zero : Represents .inf (0 : (curveOf a b p).Point) := trivial

theorem represents_zero_iff {P : Point} : Represents P (0 : (curveOf a b p).Point) ↔ P = .inf := by
  cases P with
  | inf => exact ⟨fun _ => rfl, fun _ => trivial⟩
  | aff x y => exact ⟨fun h => h.elim, fun h => by cases h⟩

/-- A group element has one point value. -/
theorem Represents.value_unique {P Q : Point} {M : (curveOf a b p).Point} (h : Represents P M)
    (h' : Represents Q M) : P = Q := by
  cases M with
  | zero => rw [represents_zero_iff.1 h, represents_zero_iff.1 h']
  | some u v hn =>
    cases P with
    | inf => exact h.elim
    | aff x y =>
      cases Q with
      | inf => exact h'.elim
      | aff x' y' =>
        obtain ⟨hx, hy, ex, ey⟩ := h
        obtain ⟨hx', hy', ex', ey'⟩ := h'
        rw [eq_of_cast_eq hx hx' (ex.trans ex'.symm), eq_of_cast_eq hy hy' (ey.trans ey'.symm)]

/-- A point value stands for one group element. -/
theorem Represents.element_unique {P : Point} {M N : (curveOf a b p).Point} (h : Represents P M)
    (h' : Represents P N) : M = N := by
  cases P with
  | inf =>
    cases M with
    | zero => cases N with
      | zero => rfl
      | some _ _ _ => exact h'.elim
    | some _ _ _ => exact h.elim
  | aff x y =>
    cases M with
    | zero => exact h.elim
    | some u v hn => cases N with
      | zero => exact h'.elim
      | some u' v' hn' =>
        obtain ⟨-, -, rfl, rfl⟩ := h
        obtain ⟨-, -, rfl, rfl⟩ := h'
        rfl

/-- The point an engine forms from a slope, where it is Mathlib's. -/
theorem represents_some {x y : Wide} {u v : ZMod p.toNat} (hn : (curveOf a b p).Nonsingular u v)
    (hx : x.toNat < p.toNat) (hy : y.toNat < p.toNat) (ex : (x.toNat : ZMod p.toNat) = u)
    (ey : (y.toNat : ZMod p.toNat) = v) : Represents (.aff x y) (.some u v hn : (curveOf a b p).Point) :=
  ⟨hx, hy, ex, ey⟩

/-! ## The engines -/

/-- PAdd on a valid curve: EQUAL_POINTS for two equal affine points, and else the group's sum. -/
theorem pAdd_group [Fact p.toNat.Prime] {P Q : Point} {M N : (curveOf a b p).Point} (hP : Represents P M)
    (hQ : Represents Q N) :
    (P = Q ∧ P ≠ .inf ∧ (pAdd a b p P Q).res = .fault .equalPoints) ∨
      ((P = Q → P = .inf) ∧ ∃ R, (pAdd a b p P Q).res = .ok R ∧ Represents R (M + N)) := by
  have vP := hP.valid
  have vQ := hQ.valid
  cases P with
  | inf =>
    right
    cases M with
    | some _ _ _ => exact hP.elim
    | zero => exact ⟨fun _ => rfl, Q, by rw [pAdd_inf_left vQ], (zero_add N).symm ▸ hQ⟩
  | aff xP yP =>
    cases Q with
    | inf =>
      right
      cases N with
      | some _ _ _ => exact hQ.elim
      | zero => exact ⟨nofun, .aff xP yP, by rw [pAdd_inf_right vP], (add_zero M).symm ▸ hP⟩
    | aff xQ yQ =>
      by_cases heq : xP = xQ ∧ yP = yQ
      · obtain ⟨rfl, rfl⟩ := heq
        exact .inl ⟨rfl, nofun, by rw [pAdd_equal vP]⟩
      right
      refine ⟨fun h => absurd (by cases h; exact ⟨rfl, rfl⟩) heq, ?_⟩
      have hp := ne_zero_of_lt vP.1
      cases M with
      | zero => exact hP.elim
      | some u v hn =>
      cases N with
      | zero => exact hQ.elim
      | some u' v' hn' =>
      obtain ⟨hxP, hyP, rfl, rfl⟩ := hP
      obtain ⟨hxQ, hyQ, rfl, rfl⟩ := hQ
      by_cases hx : xP = xQ
      · subst hx
        have hy : yP ≠ yQ := fun h => heq ⟨rfl, h⟩
        have hcast : (yP.toNat : ZMod p.toNat) = -yQ.toNat := by
          have e1 := (equation_iff_valid xP yP).2 vP.2.2
          have e2 := (equation_iff_valid xP yQ).2 vQ.2.2
          rw [equation_iff] at e1 e2
          have : ((yP.toNat : ZMod p.toNat) - yQ.toNat) * (yP.toNat + yQ.toNat) = 0 := by
            simp only [curveOf] at e1 e2
            linear_combination e1 - e2
          rcases mul_eq_zero.1 this with h | h
          · exact absurd (eq_of_cast_eq hyP hyQ (sub_eq_zero.1 h)) hy
          · exact eq_neg_of_add_eq_zero_left h
        have hs : copAdd yP yQ p = 0 := by
          rw [← cast_eq_zero_iff (copAdd_lt yP yQ hp), copAdd_cast yP yQ hp, hcast, neg_add_cancel]
        refine ⟨.inf, by rw [pAdd_inverse vP vQ hy hs], ?_⟩
        rw [Point.add_of_Y_eq rfl (by simp [negY, curveOf, hcast])]
        trivial
      · have hxc : (xP.toNat : ZMod p.toNat) ≠ xQ.toNat := fun h => hx (eq_of_cast_eq hxP hxQ h)
        obtain ⟨i, hi, hic⟩ := copInv_of_prime (x := copSub xQ xP p) hp (by
          rw [copSub_cast _ _ hp]; exact sub_ne_zero.2 hxc.symm)
        rw [copSub_cast _ _ hp] at hic
        obtain ⟨lam, hlam⟩ : ∃ lam, lam = copMul (copSub yQ yP p) i p := ⟨_, rfl⟩
        refine ⟨_, by rw [pAdd_chord vP vQ heq (fun h => hx h.1) hi hlam rfl rfl], ?_⟩
        rw [Point.add_of_X_ne hxc]
        have hslope : (lam.toNat : ZMod p.toNat) =
            (curveOf a b p).slope (xP.toNat : ZMod p.toNat) xQ.toNat yP.toNat yQ.toNat := by
          rw [hlam, slope_of_X_ne hxc, copMul_cast _ _ hp, copSub_cast _ _ hp, hic, ← div_eq_mul_inv,
            ← neg_div_neg_eq, neg_sub, neg_sub]
        refine represents_some _ (copSub_lt _ _ hp) (copSub_lt _ _ hp) ?_ ?_
        · rw [copSub_cast _ _ hp, copSub_cast _ _ hp, copMul_cast _ _ hp, hslope]
          simp only [addX, curveOf]; ring
        · rw [copSub_cast _ _ hp, copMul_cast _ _ hp, copSub_cast _ _ hp, copSub_cast _ _ hp,
            copSub_cast _ _ hp, copMul_cast _ _ hp, hslope]
          simp only [addY, negY, negAddY, addX, curveOf]; ring

/-- PDbl on a valid curve: DOUBLING_UNDEFINED for a point of order 2, and else the group's double. -/
theorem pDbl_group [Fact p.toNat.Prime] (h2 : p.toNat ≠ 2) {P : Point} {M : (curveOf a b p).Point}
    (hP : Represents P M) :
    (P ≠ .inf ∧ M + M = 0 ∧ (pDbl a b p P).res = .fault .doublingUndefined) ∨
      ((M + M = 0 → P = .inf) ∧ ∃ R, (pDbl a b p P).res = .ok R ∧ Represents R (M + M)) := by
  have vP := hP.valid
  cases P with
  | inf =>
    right
    cases M with
    | some _ _ _ => exact hP.elim
    | zero => exact ⟨fun _ => rfl, .inf, rfl, (zero_add (0 : (curveOf a b p).Point)).symm ▸ trivial⟩
  | aff x y =>
    cases M with
    | zero => exact hP.elim
    | some u v hn =>
    obtain ⟨hx, hy, rfl, rfl⟩ := hP
    have hp := ne_zero_of_lt vP.1
    by_cases hy0 : y = 0
    · refine .inl ⟨nofun, ?_, by rw [pDbl_vertical vP hy0]⟩
      exact Point.add_self_of_Y_eq (by simp [negY, curveOf, (cast_eq_zero_iff hy).2 hy0])
    right
    have hyc : (y.toNat : ZMod p.toNat) ≠ 0 := fun h => hy0 ((cast_eq_zero_iff hy).1 h)
    have h2c : (2 : ZMod p.toNat) ≠ 0 := by
      intro h
      have := (ZMod.natCast_eq_zero_iff 2 p.toNat).1 (by exact_mod_cast h)
      exact h2 ((Nat.prime_dvd_prime_iff_eq Fact.out Nat.prime_two).1 this)
    have hyy : (y.toNat : ZMod p.toNat) + y.toNat ≠ 0 := by
      rw [← two_mul]; exact mul_ne_zero h2c hyc
    have hneg : (y.toNat : ZMod p.toNat) ≠ (curveOf a b p).negY x.toNat y.toNat := by
      simp only [negY, curveOf]
      intro h
      exact hyy (by linear_combination h)
    obtain ⟨i, hi, hic⟩ := copInv_of_prime (x := copAdd y y p) hp (by rw [copAdd_cast _ _ hp]; exact hyy)
    rw [copAdd_cast _ _ hp] at hic
    rw [Point.add_self_of_Y_ne hneg]
    obtain ⟨num, hnum⟩ : ∃ num, num =
      copAdd (copAdd (copAdd (copMul x x p) (copMul x x p) p) (copMul x x p) p) a p := ⟨_, rfl⟩
    obtain ⟨lam, hlam⟩ : ∃ lam, lam = copMul num i p := ⟨_, rfl⟩
    refine ⟨nofun, _, by rw [pDbl_tangent vP hy0 hi hnum hlam rfl rfl], ?_⟩
    have hslope : (lam.toNat : ZMod p.toNat) =
        (curveOf a b p).slope (x.toNat : ZMod p.toNat) x.toNat y.toNat y.toNat := by
      rw [hlam, slope_of_Y_ne rfl hneg, copMul_cast _ _ hp, hnum, copAdd_cast _ _ hp, copAdd_cast _ _ hp,
        copAdd_cast _ _ hp, copMul_cast _ _ hp, hic, div_eq_mul_inv]
      simp only [negY, curveOf]
      ring
    refine represents_some _ (copSub_lt _ _ hp) (copSub_lt _ _ hp) ?_ ?_
    · rw [copSub_cast _ _ hp, copSub_cast _ _ hp, copMul_cast _ _ hp, hslope]
      simp only [addX, curveOf]; ring
    · rw [copSub_cast _ _ hp, copMul_cast _ _ hp, copSub_cast _ _ hp, copSub_cast _ _ hp,
        copSub_cast _ _ hp, copMul_cast _ _ hp, hslope]
      simp only [addY, negY, negAddY, addX, curveOf]; ring

end Sys2Proof.Machine
end

