-- ==== Sys2Proof/Laws/PerInstr.lean ====
section
/-! SUPPORT. The family RoundTrip: each instruction's encoding decodes to it. -/

namespace Sys2Proof.Laws.RoundTrip

/-- Decoding the encoding of an instruction gives it back, with every operand. -/
def Statement (i : Instr) : Prop := decode (encode i) = .ok i

theorem pchk : ∀ ra, Statement (.pchk ra) := by unfold Statement; decide
theorem padd : ∀ rd ra rb, Statement (.padd rd ra rb) := by unfold Statement; decide
theorem pdbl : ∀ rd ra, Statement (.pdbl rd ra) := by unfold Statement; decide
theorem ladder : ∀ rd ra, Statement (.ladder rd ra) := by unfold Statement; decide
theorem madd : ∀ x y m, Statement (.madd x y m) := fun _ _ _ => rfl
theorem msub : ∀ x y m, Statement (.msub x y m) := fun _ _ _ => rfl
theorem mmul : ∀ x y m, Statement (.mmul x y m) := fun _ _ _ => rfl
theorem minv : ∀ x m, Statement (.minv x m) := fun _ _ => rfl

end Sys2Proof.Laws.RoundTrip
end

