-- ==== Sys2Proof/Laws/Points.lean ====
section
/-! SUPPORT. Point registers: a written point value reads back, and the other registers keep theirs. -/

namespace Sys2Proof.Machine

@[simp] theorem PointReg.point_ofPoint (P : Point) : (PointReg.ofPoint P).point = P := by
  cases P <;> rfl

/-- The canonical contents of a point have INF exactly for the identity (10_state.md R25). -/
theorem PointReg.inf_ofPoint (P : Point) : (PointReg.ofPoint P).inf = true ↔ P = .inf := by
  cases P <;> simp [PointReg.ofPoint]

@[simp] theorem Block.point_setPoint_self (b : Block) (i : Reg) (P : Point) : (b.setPoint i P).point i = P := by
  simp [Block.point]

theorem Block.pr_setPoint_ne (b : Block) {i j : Reg} (P : Point) (h : i ≠ j) :
    (b.setPoint i P).pr[j] = b.pr[j] := by
  have hv : i.val ≠ j.val := fun e => h (Fin.ext e)
  simp [hv]

theorem Block.point_setPoint_ne (b : Block) {i j : Reg} (P : Point) (h : i ≠ j) :
    (b.setPoint i P).point j = b.point j := by
  simp only [Block.point, Block.pr_setPoint_ne b P h]

@[simp] theorem Block.point_complete (b : Block) (e : Err) (i : Reg) : (b.complete e).point i = b.point i := rfl

@[simp] theorem Block.reset_pr (n : Nat) (h : n < 4) :
    Block.reset.pr[n] = { inf := true, x := 0, y := 0 } := by
  simp [Block.reset]

@[simp] theorem Block.reset_point (i : Reg) : Block.reset.point i = .inf := by
  simp [Block.point, PointReg.point]

end Sys2Proof.Machine
end

