-- ==== Sys2Proof/Laws/Step.lean ====
section
/-! SUPPORT. What an instruction and a step can do, said once. -/

namespace Sys2Proof.Machine

/-- An engine step of a command, when it answers a next state: one of the four ends, each in its phase. -/
inductive Executes : Instr → State → State → Prop where
  | pchk (ra : Reg) (s : State) : s.blk.ph = .exec →
      Executes (.pchk ra) s
        (s.engine (s.blk.finishCheck (onCurve s.blk.ca s.blk.cb s.blk.cp (s.blk.point ra)).res)
          (onCurve s.blk.ca s.blk.cb s.blk.cp (s.blk.point ra)).log)
  | padd (rd ra rb : Reg) (s : State) : s.blk.ph = .exec →
      Executes (.padd rd ra rb) s
        (s.engine (s.blk.finish rd (pAdd s.blk.ca s.blk.cb s.blk.cp (s.blk.point ra) (s.blk.point rb)).res)
          (pAdd s.blk.ca s.blk.cb s.blk.cp (s.blk.point ra) (s.blk.point rb)).log)
  | pdbl (rd ra : Reg) (s : State) : s.blk.ph = .exec →
      Executes (.pdbl rd ra) s
        (s.engine (s.blk.finish rd (pDbl s.blk.ca s.blk.cb s.blk.cp (s.blk.point ra)).res)
          (pDbl s.blk.ca s.blk.cb s.blk.cp (s.blk.point ra)).log)
  | early (rd ra : Reg) (s : State) : s.blk.ph = .exec →
      Executes (.ladder rd ra) s (s.engine (s.blk.finish rd (.ok .inf)) [])
  | add (rd ra : Reg) (s : State) : s.blk.ph = .lAdd → Executes (.ladder rd ra) s s.ladderAdd
  | dbl (rd ra : Reg) (s : State) : s.blk.ph = .lDbl → Executes (.ladder rd ra) s (s.ladderDbl rd)
  | madd (x y m : Wide) (s : State) :
      Executes (.madd x y m) s (s.answer ⟨0, x, y, m⟩ (.ok (Config.trunc s.cfg (copAdd x y m))))
  | msub (x y m : Wide) (s : State) :
      Executes (.msub x y m) s (s.answer ⟨1, x, y, m⟩ (.ok (Config.trunc s.cfg (copSub x y m))))
  | mmul (x y m : Wide) (s : State) :
      Executes (.mmul x y m) s (s.answer ⟨2, x, y, m⟩ (.ok (Config.trunc s.cfg (copMul x y m))))
  | minv (x m : Wide) (s : State) :
      Executes (.minv x m) s (s.answer ⟨3, x, 0, m⟩ (invAnswer s.cfg (copInv x m)))

/-- Inversion of `exec`: a next state is one of the ends of `Executes`. -/
theorem exec_inversion {i : Instr} {s t : State} (h : exec i s = .next t) : Executes i s t := by
  cases i with
  | pchk ra =>
    simp only [exec, execPchk] at h
    split at h
    · cases h; exact .pchk ra s ‹_›
    · cases h
  | padd rd ra rb =>
    simp only [exec, execPadd] at h
    split at h
    · cases h; exact .padd rd ra rb s ‹_›
    · cases h
  | pdbl rd ra =>
    simp only [exec, execPdbl] at h
    split at h
    · cases h; exact .pdbl rd ra s ‹_›
    · cases h
  | ladder rd ra =>
    simp only [exec, execLadder] at h
    split at h
    · cases h; exact .early rd ra s ‹_›
    · cases h; exact .add rd ra s ‹_›
    · cases h; exact .dbl rd ra s ‹_›
    · cases h
  | madd x y m => cases h; exact .madd x y m s
  | msub x y m => cases h; exact .msub x y m s
  | mmul x y m => cases h; exact .mmul x y m s
  | minv x m => cases h; exact .minv x m s

/-- The converse: each end is reached. -/
theorem exec_of_executes {i : Instr} {s t : State} (h : Executes i s t) : exec i s = .next t := by
  cases h <;> simp_all [exec, execPchk, execPadd, execPdbl, execLadder, execMadd, execMsub, execMmul, execMinv]

/-! ## Steps -/

theorem step_access {s : State} {a : Access} {rest : List Input} (h : s.inputs = .access a :: rest) :
    step s = .next (State.hostAccess { s with inputs := rest } a) := by
  simp [step, State.move, h, State.take]

theorem step_advance {s : State} {rest : List Input} (h : s.inputs = .advance :: rest) :
    step s = State.advance { s with inputs := rest } := by
  simp [step, State.move, h, State.take]

theorem step_nil {s : State} (h : s.inputs = []) : step s = s.advance := by
  simp [step, State.move, h]

theorem step_resetLow {s : State} {rest : List Input} (h : s.inputs = .resetLow :: rest) :
    step s = .next (State.hardReset { s with inputs := rest }) := by
  simp [step, State.move, h, State.take]

theorem step_resetHigh {s : State} {rest : List Input} (h : s.inputs = .resetHigh :: rest) :
    step s = .next { s with inputs := rest, rstN := true } := by
  simp [step, State.move, h, State.take]

/-- Held in reset the block does not move (70_reset_and_hazards.md R260). -/
theorem advance_held {s : State} (h : s.rstN = false) : s.advance = .next s := by
  simp [State.advance, h]

/-- An outstanding request is answered by its instruction's meaning. -/
theorem advance_request {s : State} {q : Request} {i : Instr} (hr : s.rstN = true) (hq : s.mreq = some q)
    (hd : decodeRequest q = .ok i) : s.advance = exec i s := by
  simp [State.advance, State.fetch, hr, hq, hd]

/-- A busy block runs the command in CMDR (60_exceptions.md R225). -/
theorem advance_command {s : State} {i : Instr} (hr : s.rstN = true) (hq : s.mreq = none)
    (hb : s.blk.busy = true) (hd : decodeCommand s.blk.cmdr = .ok i) : s.advance = exec i s := by
  simp [State.advance, State.fetch, hr, hq, hb, hd]

/-- An idle block waits (60_exceptions.md R240). -/
theorem advance_idle {s : State} (hq : s.mreq = none) (hb : s.blk.busy = false) : s.advance = .next s := by
  simp [State.advance, State.fetch, hq, hb]

/-- Inversion of the block's own move. -/
theorem advance_inversion {s t : State} (h : s.advance = .next t) :
    t = s ∨ ∃ i, exec i s = .next t ∧
      ((∃ q, s.mreq = some q ∧ decodeRequest q = .ok i) ∨
        (s.mreq = none ∧ s.blk.busy = true ∧ decodeCommand s.blk.cmdr = .ok i)) := by
  unfold State.advance at h
  split at h
  · cases h; exact .inl rfl
  · cases hq : s.mreq with
    | some q =>
      simp only [State.fetch, hq] at h
      rcases hd : decodeRequest q with i | r
      · rw [hd] at h; exact .inr ⟨i, h, .inl ⟨q, rfl, hd⟩⟩
      · rw [hd] at h; cases r <;> cases h
    | none =>
      simp only [State.fetch, hq] at h
      cases hb : s.blk.busy
      · simp only [hb] at h; cases h; exact .inl rfl
      · simp only [hb, if_true] at h
        rcases hd : decodeCommand s.blk.cmdr with i | r
        · rw [hd] at h; exact .inr ⟨i, h, .inr ⟨rfl, rfl, rfl⟩⟩
        · rw [hd] at h; cases r <;> cases h

/-- Inversion of the step: a host access, a reset pin, or the block's own move. -/
theorem step_inversion {s t : State} (h : step s = .next t) :
    (∃ a rest, s.inputs = .access a :: rest ∧ t = State.hostAccess { s with inputs := rest } a) ∨
    (∃ rest, s.inputs = .resetLow :: rest ∧ t = State.hardReset { s with inputs := rest }) ∨
    (∃ rest, s.inputs = .resetHigh :: rest ∧ t = { s with inputs := rest, rstN := true }) ∨
    (∃ rest, (s.inputs = .advance :: rest ∨ (s.inputs = [] ∧ rest = [])) ∧
      State.advance { s with inputs := rest } = .next t) := by
  match hi : s.inputs with
  | [] =>
    rw [step_nil hi] at h
    refine .inr (.inr (.inr ⟨[], .inr ⟨rfl, rfl⟩, ?_⟩))
    have : { s with inputs := [] } = s := by cases s; simp_all
    rw [this]; exact h
  | .access a :: rest => rw [step_access hi] at h; cases h; exact .inl ⟨a, rest, rfl, rfl⟩
  | .resetLow :: rest => rw [step_resetLow hi] at h; cases h; exact .inr (.inl ⟨rest, rfl, rfl⟩)
  | .resetHigh :: rest => rw [step_resetHigh hi] at h; cases h; exact .inr (.inr (.inl ⟨rest, rfl, rfl⟩))
  | .advance :: rest =>
    rw [step_advance hi] at h
    exact .inr (.inr (.inr ⟨rest, .inl rfl, h⟩))

end Sys2Proof.Machine
end

