-- ==== Sys2Proof/Tests/Slice0.lean ====
section
/-! SUPPORT. The model's own tests. Expected values are the spec's worked examples and vectors
(30_encoding.md R100, 95_test_vectors.md, and the examples of the rules named), never the model's
output. After them, for each statement with hypotheses, a concrete state that meets them. -/

namespace Sys2Proof.Tests

open Sys2Proof Sys2Proof.Machine

/-! ## Small states -/

/-- The instance of the test vectors: W = KW = 32 (00_scope.md R8). -/
def cfg32 : Config := { nw := 1, nkw := 1, base := 0x1000 }

/-- An affine register. -/
def aff (x y : Nat) : PointReg := { inf := false, x := wide x, y := wide y }

/-- A register of the identity. -/
def ident : PointReg := { inf := true, x := 0, y := 0 }

/-- A block on a curve mod p with two registers loaded, at a phase. -/
def blockOn (a b p : Nat) (ph : Phase) (w : Word) (r0 r1 : PointReg) : Block :=
  { Block.reset with
    ca := wide a, cb := wide b, cp := wide p, ph := ph, cmdr := w, pr := #v[r0, r1, ident, ident] }

/-- A state around a block. -/
def around (b : Block) : State := { State.resetOf cfg32 with blk := b }

/-- Curve T17 (95_test_vectors.md section 2), about to run the command in CMDR. -/
def t17 (w : Word) (r0 r1 : PointReg) : State := around (blockOn 2 2 17 .exec w r0 r1)

/-- Curve T17, idle. -/
def idle17 (r0 r1 : PointReg) : State := around (blockOn 2 2 17 .idle 0 r0 r1)

/-- A ladder on T17 with K = 5 at a phase and an index (44_ladder.md R183, the example). -/
def ladder17 (ph : Phase) (li : Nat) (lr0 lr1 : Point) : State :=
  around { blockOn 2 2 17 ph 0x04000020 ident ident with k := 5, li := li, lr0 := lr0, lr1 := lr1 }

/-- The next state, if there is one. -/
def next? (o : Host.Outcome State Fault Refusal) : Option State :=
  match o with
  | .next s => some s
  | .fault _ => none
  | .refused _ => none

/-- STATUS and register `i` after an outcome. -/
def seen (o : Host.Outcome State Fault Refusal) (i : Reg) : Option (Word × PointReg) :=
  (next? o).map fun s => (s.blk.statusWord, s.blk.pr[i])

/-! ## Decoding: words written out from 30_encoding.md R93 and 95_test_vectors.md section 3.7 -/

theorem test_decode_pchk : decodeCommand 0b00000001_00000000_00000000_00_11_0000 = .ok (.pchk 3) := by decide
theorem test_decode_padd : decodeCommand 0b00000010_00000000_000000_10_00_01_00_11 = .ok (.padd 3 1 2) := by decide
theorem test_decode_pdbl : decodeCommand 0b00000011_00000000_00000000_00_00_00_01 = .ok (.pdbl 1 0) := by decide
theorem test_decode_ladder : decodeCommand 0b00000100_00000000_00000000_00_11_00_01 = .ok (.ladder 1 3) := by decide
theorem test_decode_madd : decodeRequest ⟨0b000, 9, 4, 17⟩ = .ok (.madd 9 4 17) := by decide +kernel
theorem test_decode_msub : decodeRequest ⟨0b001, 5, 6, 17⟩ = .ok (.msub 5 6 17) := by decide +kernel
theorem test_decode_mmul : decodeRequest ⟨0b010, 13, 13, 17⟩ = .ok (.mmul 13 13 17) := by decide +kernel
theorem test_decode_minv : decodeRequest ⟨0b011, 2, 0, 17⟩ = .ok (.minv 2 17) := by decide +kernel
theorem test_decode_reserved_requests :
    ∀ o ∈ [4#3, 5#3, 6#3, 7#3], decodeRequest ⟨o, 0, 0, 17⟩ = .reject .reservedRequest := by decide +kernel
/-- The ILLEGAL rows of 95_test_vectors.md section 3.7. -/
theorem test_decode_illegal :
    [0x01000001#32, 0x01000100, 0x01000040, 0x02000004, 0x02000008, 0x02000080, 0x02000400,
        0x02000800, 0x02010000, 0x02800000, 0x03000200, 0x03000004, 0x04000300, 0x04001000,
        0x00000000, 0x00000001, 0x05000000, 0x06000000, 0x80000000, 0xFF000000].map decodeCommand =
      List.replicate 20 (.reject .illegalCommand) := by decide
theorem test_decode_bytes : decodeBytes [0x13, 0x02, 0x00, 0x02] = .ok (.padd 3 1 2) := by decide
theorem test_decode_length : decodeBytes [0x13, 0x02, 0x00] = .reject .badLength := by decide
theorem test_decode_table_rows :
    decodeTableWord 32 0x01000000 = some (.pchk 0) ∧ decodeTableWord 32 0x04000033 = some (.ladder 3 3) ∧
    decodeTableWord 8 0 = some (.madd 0 0 0) ∧ decodeTableWord 8 3 = some (.minv 0 0) ∧
    decodeTableWord 8 4 = none := by decide +kernel

/-! ## Well-formedness: one ill-formed term for each check -/

theorem test_wf_madd : [(Instr.madd (wide (2 ^ 32)) 0 17).wf cfg32, (Instr.madd 0 (wide (2 ^ 32)) 17).wf cfg32,
    (Instr.madd 0 0 (wide (2 ^ 32))).wf cfg32, (Instr.madd 0 (wide (2 ^ 32 - 1)) 17).wf cfg32] =
    [false, false, false, true] := by decide +kernel
theorem test_wf_msub : [(Instr.msub (wide (2 ^ 32)) 0 17).wf cfg32, (Instr.msub 0 (wide (2 ^ 32)) 17).wf cfg32,
    (Instr.msub 0 0 (wide (2 ^ 32))).wf cfg32] = [false, false, false] := by decide +kernel
theorem test_wf_mmul : [(Instr.mmul (wide (2 ^ 32)) 0 17).wf cfg32, (Instr.mmul 0 (wide (2 ^ 32)) 17).wf cfg32,
    (Instr.mmul 0 0 (wide (2 ^ 32))).wf cfg32] = [false, false, false] := by decide +kernel
theorem test_wf_minv : [(Instr.minv (wide (2 ^ 32)) 17).wf cfg32, (Instr.minv 0 (wide (2 ^ 32))).wf cfg32] =
    [false, false] := by decide +kernel

/-! ## The coprocessor (95_test_vectors.md section 3.1) -/

/-- What the answer channel holds after an outcome. -/
def answered (o : Host.Outcome State Fault Refusal) : Option (Option Answer) := (next? o).map fun s => s.mrsp

theorem test_madd_no_wrap : answered (exec (.madd 0xFFFFFFFF 0xFFFFFFFF 17) (idle17 ident ident)) =
    some (some (.ok 0)) := by decide +kernel
theorem test_msub_negative : answered (exec (.msub 3 20 17) (idle17 ident ident)) =
    some (some (.ok 0)) ∧ copSub 5 6 17 = 16 := by decide +kernel
theorem test_mmul_double_width :
    answered (exec (.mmul 0xFFFFFFFF 0xFFFFFFFF 0xFFFFFFFB) (idle17 ident ident)) =
      some (some (.ok 16)) := by decide +kernel
theorem test_minv_composite : answered (exec (.minv 2 15) (idle17 ident ident)) = some (some (.ok 8)) := by
  decide +kernel
theorem test_minv_rejects : answered (exec (.minv 10 15) (idle17 ident ident)) = some (some .err) := by
  decide +kernel

/-! ## The commands (41_validator.md R136, 42_point_add.md R146, R149, 43_point_double.md R166, 44_ladder.md R183) -/

theorem test_pchk_on : (seen (exec (.pchk 0) (t17 0x01000000 (aff 5 1) ident)) 0) =
    some (0x00000006, aff 5 1) := by decide +kernel
theorem test_pchk_range : (seen (exec (.pchk 0) (t17 0x01000000 (aff 22 1) ident)) 0) =
    some (0x00000002, aff 22 1) := by decide +kernel
theorem test_padd_destination_is_source :
    (seen (exec (.padd 0 0 1) (t17 0x02000100 (aff 5 1) (aff 6 3))) 0) = some (0x00000002, aff 10 6) := by
  decide +kernel
theorem test_padd_equal_points :
    (seen (exec (.padd 3 0 0) (t17 0x02000003 (aff 5 1) ident)) 3) = some (0x00000022, ident) := by
  decide +kernel
theorem test_pdbl_tangent : (seen (exec (.pdbl 1 0) (t17 0x03000001 (aff 5 1) ident)) 1) =
    some (0x00000002, aff 6 3) := by decide +kernel
theorem test_pdbl_two_torsion :
    (seen (exec (.pdbl 3 0) (around (blockOn 1 0 17 .exec 0x03000003 (aff 0 0) ident))) 3) =
      some (0x00000032, ident) := by decide +kernel
/-- The L_ADD step at LI = 1 of the example: bit 0, so the sum goes to LR1. -/
theorem test_ladder_add :
    ((next? (exec (.ladder 0 2) (ladder17 .lAdd 1 (.aff 5 1) (.aff 6 3)))).map fun s =>
      (s.blk.ph, s.blk.li, s.blk.lr0, s.blk.lr1)) =
    some (.lDbl, 1, .aff 5 1, .aff 10 6) := by decide +kernel
/-- The last L_DBL step of the example: PR0 gets LR0. -/
theorem test_ladder_completes :
    (seen (exec (.ladder 0 2) (ladder17 .lDbl 0 (.aff 9 16) (.aff 10 6))) 0) =
      some (0x00000002, aff 9 16) := by decide +kernel

/-- `Ladder` against the multiples of G, past the group order (95_test_vectors.md section 3.5). -/
theorem test_ladder_function :
    (ladder 2 2 17 (.aff 5 1) 45).res = .ok (.aff 0 6) ∧ (ladder 2 2 17 (.aff 5 1) 19).log.length = 183 := by
  decide +kernel
/-- `Binary` collides at 45 (95_test_vectors.md section 3.6). -/
theorem test_binary_collides : (binary 2 2 17 (.aff 5 1) 45).res = .fault .equalPoints := by decide +kernel

/-! ## The window (95_test_vectors.md section 3.8) and the assembler text (30_encoding.md R98) -/

/-- The answer to one host access. -/
def busAfter (s : State) (a : Access) : Option (Option BusAnswer) :=
  (next? (step { s with inputs := [.access a] })).map fun t => t.bus

theorem test_read_id : busAfter (State.resetOf cfg32) (.read 0x100C 4) = some (some (.data 0x00010101)) := by
  decide +kernel
theorem test_read_ptag : busAfter (State.resetOf cfg32) (.read 0x1010 4) = some (some (.data 0x0000000F)) := by
  decide +kernel
theorem test_read_misaligned_changes_nothing :
    (next? (step { State.resetOf cfg32 with inputs := [.access (.read 0x1002 4)] })).map (fun t => t.blk) =
      some Block.reset := by decide +kernel
theorem test_reserved_word_of_a_wide_slot :
    (next? (step { State.resetOf cfg32 with inputs := [wr cfg32 0x084 0xDEADBEEF] })).map (fun t => t.blk) =
      some Block.reset := by decide +kernel
theorem test_busy_write_sets_werr :
    (next? (step { t17 0x01000000 ident ident with inputs := [wr cfg32 0x180 19] })).map
      (fun t => (t.blk.cp, t.blk.statusWord)) = some (17, 0x00000009) := by decide +kernel
theorem test_asm_text : asmText (.padd 2 0 1) = "PADD PR2, PR0, PR1" := by decide +kernel

/-! ## Witnesses: a concrete state and operands that meet each statement's hypotheses -/

theorem witness_IllegalWordsFieldByField :
    cfg32.legal = true ∧ (idle17 ident ident).rstN = true ∧ (idle17 ident ident).blk.ph = .idle ∧
    -- opcode below and above the range, each Z field, RD and RB of PCHK, RB of PDBL and LADDER
    ([0x00000000#32, 0x05000000, 0x02000400, 0x02800000, 0x02000040, 0x02000080, 0x02000004,
        0x02000008, 0x01000001, 0x01000100, 0x03000100, 0x04000300].map decodeCommand =
      List.replicate 12 (.reject .illegalCommand)) ∧
    decodeCommand 0x04000033 = .ok (.ladder 3 3) := by decide

theorem witness_BytesAreLittleEndian : 0x7FC % 4 = 0 ∧ 3 < 4 ∧ 7 < 8 := by decide

theorem witness_ResetValuesAfterEitherReset :
    cfg32.legal = true ∧ (t17 0x01000000 (aff 5 1) ident).rstN = true ∧
    (0x00000002#32).getLsbD 1 = true := by decide

theorem witness_SoftResetAbandonsEverything :
    (ladder17 .lDbl 1 (.aff 5 1) (.aff 10 6)).cfg.legal = true ∧
    (ladder17 .lDbl 1 (.aff 5 1) (.aff 10 6)).rstN = true ∧ (0xFFFFFFFF#32).getLsbD 1 = true := by decide

theorem witness_HardwareResetHoldsTheBlock :
    (State.hardReset (t17 0x01000000 ident ident)).rstN = false ∧
    State.reset.rstN = true ∧ State.reset.blk = Block.reset ∧ State.reset.mreq = none := by
  refine ⟨rfl, rfl, rfl, rfl⟩

theorem witness_EveryCommandRunsFromReset :
    cfg32.legal = true ∧ encode (.pchk 0) = .command 0x01000000 ∧ encode (.padd 3 2 1) = .command 0x02000123 ∧
    encode (.pdbl 1 2) = .command 0x03000021 ∧ encode (.ladder 0 1) = .command 0x04000010 := by decide

/-- The first and the last word of a wide register on the largest instance, and a reserved offset. -/
theorem witness_ReadsFollowTheRegisterMap :
    (Config.mk 32 32 0x800).legal = true ∧ (State.resetOf ⟨32, 32, 0x800⟩).rstN = true ∧
    NamesWide ⟨32, 32, 0x800⟩ 0x080 .ca 0 ∧ NamesWide ⟨32, 32, 0x800⟩ 0x27C .k 31 ∧
    NamesWide ⟨32, 32, 0x800⟩ 0x67C (.y 3) 31 ∧ 0x680 ∉ [0x000, 0x004, 0x008, 0x00C, 0x010] ∧
    ¬ ∃ r j, NamesWide cfg32 0x084 r j := by
  refine ⟨by decide, rfl, .ca 0 (by decide), .k 31 (by decide), .y 3 31 (by decide), by decide, ?_⟩
  rintro ⟨r, j, h⟩
  generalize ho : (0x084 : Nat) = off at h
  cases h <;> simp only [cfg32] at * <;> omega

theorem witness_WritesFollowTheRegisterMap :
    cfg32.legal = true ∧ (idle17 ident ident).rstN = true ∧ (idle17 ident ident).blk.ph = .idle ∧
    (t17 0x01000000 ident ident).blk.ph ≠ .idle ∧ NamesWide cfg32 0x080 .ca 0 ∧
    NamesWide cfg32 0x600 (.y 3) 0 ∧ NamesWide cfg32 0x200 .k 0 ∧
    (0x00000002#32).getLsbD 1 = true ∧ (0x00000001#32).getLsbD 1 = false ∧
    0x7FC ∉ [0x000, 0x004, 0x008, 0x010] := by
  refine ⟨by decide, rfl, rfl, by decide, .ca 0 (by decide), .y 3 0 (by decide), .k 0 (by decide), ?_⟩
  decide

theorem witness_IllegalAccessesAreRejected :
    (idle17 ident ident).rstN = true ∧ cfg32.base ≤ 0x1000 ∧ 0x17FF < cfg32.base + 0x800 ∧
    ¬ (1 = 4 ∧ 0x1000 % 4 = 0) ∧ ¬ (4 = 4 ∧ 0x17FF % 4 = 0) ∧ ¬ (8 = 4 ∧ 0x1080 % 4 = 0) := by decide

theorem witness_AccessesOutsideTheWindowDoNothing :
    0x0FFF < cfg32.base ∧ cfg32.base + 0x800 ≤ 0x1800 := by decide

/-- The blocks of the tests hold 32-bit values. -/
theorem fits_blockOn (w : Word) (ph : Phase) :
    (blockOn 2 2 17 ph w (aff 5 1) (aff 6 3)).Fits cfg32 := by
  have h : (blockOn 2 2 17 .idle 0 (aff 5 1) (aff 6 3)).Fits cfg32 := by
    constructor
    case lr0 => trivial
    case lr1 => trivial
    all_goals decide +kernel
  exact ⟨h.ca, h.cb, h.cp, h.k, h.x, h.y, h.lr0, h.lr1⟩

theorem inv_idle17 : (idle17 (aff 5 1) (aff 6 3)).Inv where
  cfg := by decide
  fits := fits_blockOn _ _
  sequenced := ⟨trivial, fun _ => ⟨rfl, rfl, rfl⟩, fun h => absurd rfl h⟩
  request := fun r h => by cases h
  answer := fun a h => by cases h
  held := fun h => by cases h
  sent := fun r h => by cases h

theorem inv_t17 : (t17 0x02000100 (aff 5 1) (aff 6 3)).Inv where
  cfg := by decide
  fits := fits_blockOn _ _
  sequenced := ⟨⟨.padd 0 0 1, by decide⟩, fun _ => ⟨rfl, rfl, rfl⟩, fun _ => ⟨rfl, rfl, rfl⟩⟩
  request := fun r h => by cases h
  answer := fun a h => by cases h
  held := fun h => by cases h
  sent := fun r h => by cases h

theorem inv_ladder17 : (ladder17 .lAdd 2 .inf (.aff 5 1)).Inv where
  cfg := by decide
  fits := by
    constructor
    case lr0 => trivial
    case lr1 => exact ⟨by decide +kernel, by decide +kernel⟩
    all_goals decide +kernel
  sequenced :=
    { phase := ⟨⟨0, 2, by decide⟩, by decide +kernel⟩
      quiet := fun h => by rcases h with h | h <;> cases h
      running := fun _ => ⟨rfl, rfl, rfl⟩ }
  request := fun r h => by cases h
  answer := fun a h => by cases h
  held := fun h => by cases h
  sent := fun r h => by cases h

theorem witness_LoadingEveryWordLoadsTheValue :
    (idle17 (aff 5 1) (aff 6 3)).Inv ∧ (idle17 (aff 5 1) (aff 6 3)).rstN = true ∧
    (idle17 (aff 5 1) (aff 6 3)).blk.ph = .idle ∧
    (wide 0xFFFFFFFF).toNat < 2 ^ (32 * (WideReg.y 3).words cfg32) :=
  ⟨inv_idle17, rfl, rfl, by decide +kernel⟩

theorem witness_LaunchByCommand :
    cfg32.legal = true ∧ (idle17 (aff 5 1) ident).rstN = true ∧ (idle17 (aff 5 1) ident).blk.ph = .idle ∧
    decodeCommand 0x01000000 = .ok (.pchk 0) ∧ decodeCommand 0x02000333 = .ok (.padd 3 3 3) ∧
    decodeCommand 0x03000033 = .ok (.pdbl 3 3) ∧ decodeCommand 0x04000000 = .ok (.ladder 0 0) ∧
    decodeCommand 0x05000000 = .reject .illegalCommand ∧
    (idle17 (aff 5 1) ident).blk.point 1 = .inf ∧ (idle17 (aff 5 1) ident).blk.k = 0 ∧
    (ladder17 .idle 0 .inf .inf).blk.k ≠ 0 ∧ (idle17 (aff 5 1) ident).blk.point 0 ≠ .inf := by
  decide +kernel

theorem witness_CompletionIsOneTransition : ∃ t u, IsCommand (.padd 0 0 1) ∧
    (t17 0x02000100 (aff 5 1) (aff 6 3)).blk.done = false ∧
    exec (.padd 0 0 1) (t17 0x02000100 (aff 5 1) (aff 6 3)) = .next t ∧
    exec (.ladder 0 2) (ladder17 .lAdd 1 (.aff 5 1) (.aff 6 3)) = .next u :=
  ⟨_, _, trivial, rfl, rfl, rfl⟩

theorem witness_FaultsArePrecise : ∃ t, IsCommand (.padd 3 0 0) ∧
    (t17 0x02000003 (aff 5 1) ident).blk.done = false ∧
    exec (.padd 3 0 0) (t17 0x02000003 (aff 5 1) ident) = .next t ∧
    t.blk.done = true ∧ t.blk.err ≠ .none ∧
    cfg32.legal = true ∧ (idle17 ident ident).rstN = true ∧ (idle17 ident ident).blk.ph = .idle ∧
    decodeCommand 0x05000000 = .reject .illegalCommand := by
  refine ⟨_, trivial, rfl, rfl, ?_⟩
  decide +kernel

theorem witness_IrqIsALevel : ∃ t, IsCommand (.pchk 0) ∧
    exec (.pchk 0) (t17 0x01000000 (aff 5 1) ident) = .next t ∧ t.blk.ph = .idle ∧
    cfg32.legal = true ∧ (idle17 ident ident).rstN = true ∧ (idle17 ident ident).blk.ph = .idle ∧
    (0x00000002#32).getLsbD 1 = true := by
  refine ⟨_, trivial, rfl, ?_⟩
  decide +kernel

theorem witness_MaddAddsModulo : (Instr.madd (wide (2 ^ 32 - 1)) 0 1).wf cfg32 = true ∧ (1 : Wide) ≠ 0 := by
  decide +kernel
theorem witness_MsubSubtractsModulo : (Instr.msub 0 (wide (2 ^ 32 - 1)) 17).wf cfg32 = true ∧ (17 : Wide) ≠ 0 := by
  decide +kernel
theorem witness_MmulMultipliesModulo :
    (Instr.mmul (wide (2 ^ 32 - 1)) (wide (2 ^ 32 - 1)) (wide (2 ^ 32 - 5))).wf cfg32 = true ∧
    wide (2 ^ 32 - 5) ≠ 0 := by decide +kernel
theorem witness_MinvInvertsOrRejects :
    (Instr.minv 2 15).wf cfg32 = true ∧ (15 : Wide) ≠ 0 ∧ Nat.gcd ((2 : Wide).toNat % (15 : Wide).toNat) 15 = 1 ∧
    Nat.gcd ((0 : Wide).toNat % (1 : Wide).toNat) 1 = 1 ∧
    Nat.gcd ((10 : Wide).toNat % (15 : Wide).toNat) 15 ≠ 1 := by decide +kernel

theorem witness_EngineRequestsCarryTheModulus : ∃ t, IsCommand (.pdbl 1 0) ∧
    exec (.pdbl 1 0) (t17 0x03000001 (aff 5 1) ident) = .next t ∧ t.reqLog ≠ [] := by
  refine ⟨_, trivial, rfl, ?_⟩
  decide +kernel

theorem witness_PchkAnswersWhetherOnCurve : (t17 0x01000000 (aff 5 1) ident).blk.ph = .exec := rfl

/-- (5, 1) and (6, 3) are on T17, (6, 4) and (22, 1) are not. -/
theorem valid_T17 : Valid 2 2 17 (.aff 5 1) ∧ Valid 2 2 17 (.aff 6 3) ∧ Valid 2 2 17 (.aff 5 16) ∧
    ¬ Valid 2 2 17 (.aff 6 4) ∧ ¬ Valid 2 2 17 (.aff 22 1) := by
  simp only [Valid]
  decide +kernel

theorem witness_PaddAddsPoints : (t17 0x02000100 (aff 5 1) (aff 6 3)).blk.ph = .exec := rfl

/-- Each case of the table: invalid left, invalid right, identity, equal, inverse, chord, rejected inverse. -/
theorem witness_PaddRequestSequences :
    ¬ Valid 2 2 17 (.aff 6 4) ∧ Valid 2 2 17 (.aff 5 1) ∧ Valid 2 2 17 .inf ∧ Valid 2 2 17 (.aff 5 16) ∧
    ((1 : Wide).toNat + (16 : Wide).toNat) % (17 : Wide).toNat = 0 ∧
    Int.gcd ((((6 : Wide).toNat : Nat) : Int) - (5 : Wide).toNat) (17 : Wide).toNat = 1 ∧
    Valid 0 1 15 (.aff 0 1) ∧ Valid 0 1 15 (.aff 0 4) ∧
    Int.gcd ((((0 : Wide).toNat : Nat) : Int) - (0 : Wide).toNat) (15 : Wide).toNat ≠ 1 := by
  simp only [Valid]
  decide +kernel

theorem prime_17 : Nat.Prime (17 : Wide).toNat := by
  have : (17 : Wide).toNat = 17 := by decide +kernel
  rw [this]; norm_num

theorem witness_PaddSucceedsForPrimeModulus : Nat.Prime (17 : Wide).toNat ∧
    Valid 2 2 17 (.aff 5 1) ∧ Valid 2 2 17 (.aff 6 3) ∧ ¬ ((5 : Wide) = 6 ∧ (1 : Wide) = 3) ∧
    ¬ ((5 : Wide) = 6 ∧ ((1 : Wide).toNat + (3 : Wide).toNat) % (17 : Wide).toNat = 0) :=
  ⟨prime_17, valid_T17.1, valid_T17.2.1, by decide +kernel, by decide +kernel⟩

theorem witness_PdblDoublesAPoint : (t17 0x03000001 (aff 5 1) ident).blk.ph = .exec := rfl

/-- Invalid, y = 0, the tangent, and a rejected inverse. -/
theorem witness_PdblRequestSequences : ¬ Valid 2 2 17 (.aff 6 4) ∧ Valid 1 0 17 (.aff 0 0) ∧
    Valid 2 2 17 (.aff 5 1) ∧ (1 : Wide) ≠ 0 ∧ Nat.gcd (2 * (1 : Wide).toNat) (17 : Wide).toNat = 1 ∧
    Valid 0 1 15 (.aff 9 5) ∧ (5 : Wide) ≠ 0 ∧ Nat.gcd (2 * (5 : Wide).toNat) (15 : Wide).toNat ≠ 1 := by
  simp only [Valid]
  decide +kernel

theorem witness_PdblSucceedsForOddPrimeModulus : Nat.Prime (17 : Wide).toNat ∧ (17 : Wide).toNat ≠ 2 ∧
    Valid 2 2 17 (.aff 5 1) ∧ (1 : Wide) ≠ 0 ∧ (pDbl 2 2 17 (.aff 6 4)).res = .fault .invalidPoint :=
  ⟨prime_17, by decide +kernel, valid_T17.1, by decide +kernel, by decide +kernel⟩

theorem witness_LadderEarlyExit : (t17 0x04000010 ident ident).blk.ph = .exec := rfl

/-- Both values of the scalar bit, and a fault. -/
theorem witness_LadderAdditionStep :
    (ladder17 .lAdd 2 .inf (.aff 5 1)).blk.ph = .lAdd ∧ (5 : Wide).getLsbD 2 = true ∧ (5 : Wide).getLsbD 1 = false ∧
    (pAdd 2 2 17 .inf (.aff 6 4)).res = .fault .invalidPoint := by decide +kernel

/-- Both values of the scalar bit, index 0 and above, and a fault. -/
theorem witness_LadderDoublingStep :
    (ladder17 .lDbl 1 (.aff 5 1) (.aff 10 6)).blk.ph = .lDbl ∧
    (ladder17 .lDbl 1 (.aff 5 1) (.aff 10 6)).blk.li ≠ 0 ∧ (5 : Wide).getLsbD 1 = false ∧
    (5 : Wide).getLsbD 2 = true ∧ (ladder17 .lDbl 0 (.aff 9 16) (.aff 10 6)).blk.li = 0 ∧
    (5 : Wide).getLsbD 0 = true ∧ (4 : Wide).getLsbD 0 = false ∧
    (pDbl 1 0 17 (.aff 0 0)).res = .fault .doublingUndefined := by decide +kernel

/-- A ladder of 5 on T17 from an idle block, and the early exit by the identity and by K = 0. -/
theorem witness_LadderStepsRefineTheFunction :
    cfg32.legal = true ∧ (idle17 (aff 5 1) ident).rstN = true ∧ (idle17 (aff 5 1) ident).mreq = none ∧
    (idle17 (aff 5 1) ident).blk.ph = .idle ∧ encode (.ladder 0 0) = .command 0x04000000 ∧
    (idle17 (aff 5 1) ident).blk.point 1 = .inf ∧ (idle17 (aff 5 1) ident).blk.k = 0 ∧
    (idle17 (aff 5 1) ident).blk.point 0 ≠ .inf ∧
    ((idle17 (aff 5 1) ident).withK 5).blk.k ≠ 0 ∧ (ladder 2 2 17 (.aff 5 1) 5).res = .ok (.aff 9 16) := by
  decide +kernel

theorem witness_LadderEventsDependOnBitLengthAlone :
    cfg32.legal = true ∧ ((idle17 (aff 5 1) ident).withK 5).rstN = true ∧
    ((idle17 (aff 5 1) ident).withK 5).mreq = none ∧ ((idle17 (aff 5 1) ident).withK 5).blk.ph = .idle ∧
    encode (.ladder 0 0) = .command 0x04000000 ∧ ((idle17 (aff 5 1) ident).withK 5).blk.point 0 ≠ .inf ∧
    ((idle17 (aff 5 1) ident).withK 5).blk.k ≠ 0 ∧
    ∃ R, (ladder 2 2 17 (.aff 5 1) 5).res = .ok R := by
  refine ⟨by decide, rfl, rfl, rfl, by decide, by decide +kernel, by decide +kernel, .aff 9 16, by decide +kernel⟩

theorem witness_LadderRejectsAnInvalidPoint : ¬ Valid 2 2 17 (.aff 6 4) ∧ 0 < 1 ∧
    (ladder17 .lAdd 2 .inf (.aff 6 4)).blk.ph = .lAdd ∧ (ladder17 .lAdd 2 .inf (.aff 6 4)).blk.lr0 = .inf ∧
    ¬ (ladder17 .lAdd 2 .inf (.aff 6 4)).blk.ValidPoint (ladder17 .lAdd 2 .inf (.aff 6 4)).blk.lr1 :=
  ⟨valid_T17.2.2.2.1, by decide, rfl, rfl, valid_T17.2.2.2.1⟩

theorem witness_LadderLeadingZerosChangeNothing : Valid 2 2 17 (.aff 5 1) ∧ bitlen 5 ≤ 3 ∧ bitlen 5 ≤ 8 :=
  ⟨valid_T17.1, by decide +kernel, by decide +kernel⟩

theorem witness_LadderFaultsOnTwoTorsion : Valid 1 0 17 (.aff 4 0) ∧ 0 < 1 := by
  simp only [Valid]
  decide +kernel

theorem witness_EveryCommandCompletes :
    (ladder17 .lAdd 2 .inf (.aff 5 1)).Inv ∧ (ladder17 .lAdd 2 .inf (.aff 5 1)).rstN = true ∧
    (ladder17 .lAdd 2 .inf (.aff 5 1)).mreq = none ∧ (ladder17 .lAdd 2 .inf (.aff 5 1)).inputs = [] ∧
    (ladder17 .lAdd 2 .inf (.aff 5 1)).blk.ph ≠ .idle :=
  ⟨inv_ladder17, rfl, rfl, rfl, by decide⟩

/-- T17 is a valid curve. -/
theorem validCurve_T17 : ValidCurve 2 2 17 :=
  ⟨prime_17, by decide +kernel, by decide +kernel⟩

/-- One doubling on T17, in the group. -/
theorem double_T17 [Fact (17 : Wide).toNat.Prime] {P R : Point} {M : (curveOf 2 2 17).Point}
    (hP : Represents P M) (h : (pDbl 2 2 17 P).res = .ok R) : Represents R (M + M) := by
  rcases pDbl_group (by decide +kernel) hP with ⟨-, -, e⟩ | ⟨-, R', e, hR⟩
  · rw [e] at h; cases h
  · rw [e] at h; cases h; exact hR

/-- One addition on T17, in the group. -/
theorem add_T17 [Fact (17 : Wide).toNat.Prime] {P Q R : Point} {M N : (curveOf 2 2 17).Point}
    (hP : Represents P M) (hQ : Represents Q N) (h : (pAdd 2 2 17 P Q).res = .ok R) :
    Represents R (M + N) := by
  rcases pAdd_group hP hQ with ⟨-, -, e⟩ | ⟨-, R', e, hR⟩
  · rw [e] at h; cases h
  · rw [e] at h; cases h; exact hR

/-- G = (5, 1) on T17 has order 19 in the group (95_test_vectors.md section 2), an odd number. -/
theorem order_G [Fact (17 : Wide).toNat.Prime] {M : (curveOf 2 2 17).Point}
    (hM : Represents (.aff 5 1) M) : addOrderOf M = 19 := by
  have h2 := double_T17 (R := .aff 6 3) hM (by decide +kernel)
  have h4 := double_T17 (R := .aff 3 1) h2 (by decide +kernel)
  have h8 := double_T17 (R := .aff 13 7) h4 (by decide +kernel)
  have h16 := double_T17 (R := .aff 10 11) h8 (by decide +kernel)
  have h18 := add_T17 (R := .aff 5 16) h16 h2 (by decide +kernel)
  have h19 := add_T17 (R := .inf) h18 hM (by decide +kernel)
  have hz := h19.element_unique represents_inf_zero
  have : Fact (Nat.Prime 19) := ⟨by norm_num⟩
  refine addOrderOf_eq_prime ?_ fun h => ?_
  · rw [← hz]; abel
  · subst h; cases represents_zero_iff.1 hM

theorem witness_BinaryAgreesWithLadderBelowTheOrder : ∃ _ : Fact (17 : Wide).toNat.Prime,
    ValidCurve 2 2 17 ∧ Valid 2 2 17 (.aff 5 1) ∧ ∃ M : (curveOf 2 2 17).Point,
      Represents (.aff 5 1) M ∧ Odd (addOrderOf M) ∧ 18 < addOrderOf M := by
  have : Fact (17 : Wide).toNat.Prime := ⟨prime_17⟩
  obtain ⟨M, hM⟩ := exists_represents validCurve_T17 valid_T17.1
  refine ⟨⟨prime_17⟩, validCurve_T17, valid_T17.1, M, hM, ?_, ?_⟩
  · rw [order_G hM]; decide
  · rw [order_G hM]; decide

/-- R0 = Inf = 0·G and R1 = G = 1·G, both values of the bit. -/
theorem witness_LadderComputesTheMultiple : ∃ _ : Fact (17 : Wide).toNat.Prime,
    ValidCurve 2 2 17 ∧ Valid 2 2 17 (.aff 5 1) ∧ ∃ M : (curveOf 2 2 17).Point,
      Represents .inf ((0 : Nat) • M) ∧ Represents (.aff 5 1) ((0 + 1 : Nat) • M) ∧
      (ladderPair 2 2 17 true .inf (.aff 5 1)).res = .ok (.aff 5 1, .aff 6 3) ∧
      (ladderPair 2 2 17 false .inf (.aff 5 1)).res = .ok (.inf, .aff 5 1) ∧
      (ladder 2 2 17 (.aff 5 1) 5).res = .ok (.aff 9 16) ∧ Odd (addOrderOf M) := by
  have : Fact (17 : Wide).toNat.Prime := ⟨prime_17⟩
  obtain ⟨M, hM⟩ := exists_represents validCurve_T17 valid_T17.1
  refine ⟨⟨prime_17⟩, validCurve_T17, valid_T17.1, M, ?_, ?_, by decide +kernel, by decide +kernel,
    by decide +kernel, ?_⟩
  · rw [zero_nsmul]; exact represents_inf_zero
  · rw [zero_add, one_nsmul]; exact hM
  · rw [order_G hM]; decide

/-- A busy block, a request on the port, and an idle block. -/
theorem witness_StepRunsTheDecodedInstruction :
    (t17 0x02000100 (aff 5 1) (aff 6 3)).rstN = true ∧ (t17 0x02000100 (aff 5 1) (aff 6 3)).inputs = [] ∧
    (t17 0x02000100 (aff 5 1) (aff 6 3)).mreq = none ∧
    (t17 0x02000100 (aff 5 1) (aff 6 3)).blk.ph ≠ .idle ∧
    decodeCommand (t17 0x02000100 (aff 5 1) (aff 6 3)).blk.cmdr = .ok (.padd 0 0 1) ∧
    ((idle17 ident ident).placeRequest ⟨0, 9, 4, 17⟩).inputs = .advance :: [] ∧
    ((idle17 ident ident).placeRequest ⟨0, 9, 4, 17⟩).mreq = some ⟨0, 9, 4, 17⟩ ∧
    decodeRequest ⟨0, 9, 4, 17⟩ = .ok (.madd 9 4 17) ∧ (idle17 ident ident).blk.ph = .idle := by
  refine ⟨rfl, rfl, rfl, by decide, by decide, rfl, rfl, by decide +kernel, rfl⟩

theorem witness_WhereTheMachineStops :
    (idle17 ident ident).blk.ph ≠ .exec ∧ (idle17 ident ident).blk.ph = .idle ∧
    (t17 0 ident ident).rstN = true ∧ (t17 0 ident ident).mreq = none ∧ (t17 0 ident ident).blk.ph ≠ .idle ∧
    decodeCommand (t17 0 ident ident).blk.cmdr = .reject .illegalCommand ∧
    ((idle17 ident ident).placeRequest ⟨4, 0, 0, 17⟩).inputs = .advance :: [] ∧ 4 ≤ (4#3).toNat ∧
    ((idle17 ident ident).placeRequest ⟨4, 0, 0, 17⟩).mreq = some ⟨4, 0, 0, 17⟩ := by
  refine ⟨by decide, rfl, rfl, rfl, by decide, by decide, rfl, by decide, rfl⟩

theorem witness_InvariantHoldsAtReset : cfg32.legal = true ∧ Config.default.legal = true := by decide

theorem witness_EveryStepGoesOnAndKeepsTheInvariant :
    (t17 0x02000100 (aff 5 1) (aff 6 3)).Inv ∧ (ladder17 .lAdd 2 .inf (.aff 5 1)).Inv :=
  ⟨inv_t17, inv_ladder17⟩

/-- A command that writes a register, a ladder step, and a request. -/
theorem witness_InstructionFrame : ∃ t u v,
    exec (.padd 0 0 1) (t17 0x02000100 (aff 5 1) (aff 6 3)) = .next t ∧
    exec (.ladder 0 2) (ladder17 .lAdd 1 (.aff 5 1) (.aff 6 3)) = .next u ∧
    exec (.madd 9 4 17) (idle17 ident ident) = .next v ∧ dest (.padd 0 0 1) ≠ some 1 ∧
    ¬ IsCommand (.madd 9 4 17) :=
  ⟨_, _, _, rfl, rfl, rfl, by decide, fun h => h⟩

theorem witness_OnlyPchkSetsOnc : ∃ t, exec (.pchk 0) (t17 0x01000000 (aff 5 1) ident) = .next t ∧
    (t17 0x01000000 (aff 5 1) ident).blk.onc = false ∧ t.blk.onc = true := by
  refine ⟨_, rfl, ?_⟩
  decide +kernel

theorem witness_OnlyLadderDependsOnTheScalar : ∃ t, 4 = 4 ∧ 0x1200 % 4 = 0 ∧
    (∀ rd ra, Instr.padd 0 0 1 ≠ .ladder rd ra) ∧
    exec (.padd 0 0 1) (t17 0x02000100 (aff 5 1) (aff 6 3)) = .next t :=
  ⟨_, rfl, rfl, by simp, rfl⟩

/-- PR1 reads as the identity with other bits left in X and Y. -/
theorem witness_HiddenCoordinatesHaveNoEffect : ∃ t,
    SamePoints #v[aff 5 1, ⟨true, 6, 4⟩, ident, ident] (t17 0x02000100 (aff 5 1) ident).blk.pr ∧
    exec (.padd 0 0 1) (t17 0x02000100 (aff 5 1) ident) = .next t :=
  ⟨_, by simp only [SamePoints]; decide +kernel, rfl⟩

theorem witness_HostViewIsStableWhileBusy : ∃ t,
    (ladder17 .lAdd 1 (.aff 5 1) (.aff 6 3)).rstN = true ∧
    (ladder17 .lAdd 1 (.aff 5 1) (.aff 6 3)).blk.busy = true ∧
    step (ladder17 .lAdd 1 (.aff 5 1) (.aff 6 3)) = .next t ∧ t.blk.busy = true := by
  refine ⟨_, rfl, rfl, rfl, ?_⟩
  decide +kernel

/-- A busy block and a write to CTRL without SRST. -/
theorem witness_OnlyAResetAbandonsACommand :
    (t17 0x02000100 (aff 5 1) (aff 6 3)).cfg.legal = true ∧ (t17 0x02000100 (aff 5 1) (aff 6 3)).blk.busy = true ∧
    (∀ v, Access.write (cfg32.base + 0x008) 4 1 = .write (cfg32.base + 0x008) 4 v → v.getLsbD 1 = false) := by
  refine ⟨by decide, rfl, ?_⟩
  intro v h
  cases h
  decide

end Sys2Proof.Tests
end

section
/-! PROOFS. The reset state: its reset values, and the invariant in it (10_state.md R43). -/

namespace Sys2Proof.Machine

/-- A state whose block is reset and whose port is quiet holds every reset value, the words the host
reads included. -/
theorem holdsResetValues_of_reset {t : State} (hb : t.blk = Block.reset) (hq : t.mreq = none) :
    t.HoldsResetValues where
  curve := by rw [hb]; exact ⟨rfl, rfl, rfl⟩
  scalar := by rw [hb]; rfl
  registers i := by rw [hb]; exact Block.reset_pr i i.isLt
  points i := by rw [hb]; exact Block.reset_point i
  latch := by rw [hb]; rfl
  flags := by rw [hb]; exact ⟨rfl, rfl, rfl, rfl⟩
  words := by rw [hb]; decide
  enable := by rw [hb]; rfl
  sequencer := by rw [hb]; exact ⟨rfl, rfl, rfl, rfl⟩
  port := hq
  irq := by rw [hb]; rfl

/-- Zero fits in any width. -/
theorem zero_lt_two_pow (n : Nat) : (0 : Wide).toNat < 2 ^ n := by
  rw [wide_zero_toNat]
  exact Nat.two_pow_pos n

theorem Block.fits_reset (c : Config) : Block.reset.Fits c where
  ca := zero_lt_two_pow _
  cb := zero_lt_two_pow _
  cp := zero_lt_two_pow _
  k := zero_lt_two_pow _
  x i := by rw [Fin.getElem_fin, Block.reset_pr]; exact zero_lt_two_pow _
  y i := by rw [Fin.getElem_fin, Block.reset_pr]; exact zero_lt_two_pow _
  lr0 := trivial
  lr1 := trivial

/-- An idle block is in order when the ladder's registers are clear, whatever its flags. -/
theorem Block.sequenced_of_idle {b : Block} (hph : b.ph = .idle)
    (hclear : b.lr0 = .inf ∧ b.lr1 = .inf ∧ b.li = 0) : b.Sequenced where
  phase := by rw [Block.PhaseMatches, hph]; trivial
  quiet _ := hclear
  running h := absurd hph h

theorem Block.sequenced_reset : Block.reset.Sequenced :=
  Block.sequenced_of_idle rfl ⟨rfl, rfl, rfl⟩

/-- A reset block with a quiet port meets the invariant; the history of requests is no reset's concern. -/
theorem State.inv_of_reset {t : State} (hc : t.cfg.legal = true) (hb : t.blk = Block.reset)
    (hq : t.mreq = none) (ha : t.mrsp = none) (hl : ∀ r ∈ t.reqLog, RequestOk t.cfg r) : t.Inv where
  cfg := hc
  fits := hb ▸ Block.fits_reset t.cfg
  sequenced := hb ▸ Block.sequenced_reset
  request r h := by rw [hq] at h; cases h
  answer a h := by rw [ha] at h; cases h
  held _ := ⟨hb, hq⟩
  sent := hl

theorem State.inv_resetOf {c : Config} (hc : c.legal = true) : (State.resetOf c).Inv :=
  State.inv_of_reset hc rfl rfl rfl (fun r h => by cases h)

/-- Settles O45: the default parameters are legal, so one lemma gives both parts. -/
theorem invariantHoldsAtReset : Obligations.InvariantHoldsAtReset :=
  ⟨State.inv_resetOf (by decide), fun _ hc => State.inv_resetOf hc⟩

/-- A step that takes a legal host write is the write at its offset (20_memory.md R63). -/
theorem step_withWrite {s : State} {off : Nat} (v : Word) (rest : List Input) (hc : s.cfg.legal = true)
    (hr : s.rstN = true) (ha : off % 4 = 0) (ho : off < 0x800) :
    step (s.withWrite off v rest) =
      .next { State.writeOffset { s with inputs := rest } off v with bus := some .written } := by
  rw [step_access (s := s.withWrite off v rest) rfl]
  exact congrArg _ (hostAccess_write (s := { s with inputs := rest }) v hc hr ha ho)

/-- Writing CTRL with bit 1 set is the soft reset (10_state.md R32). -/
theorem writeOffset_srst (s : State) {v : Word} (hv : v.getLsbD 1 = true) :
    s.writeOffset 0x008 v = s.softReset := by
  simp [State.writeOffset, hv]

/-- Settles O5: both resets leave a reset block and a quiet port. -/
theorem resetValuesAfterEitherReset : Obligations.ResetValuesAfterEitherReset := by
  refine ⟨fun c => holdsResetValues_of_reset rfl rfl, fun s v rest hc hr hv => ?_, fun s rest => ?_⟩
  · refine ⟨_, step_withWrite v rest hc hr (by decide) (by decide), ?_⟩
    rw [writeOffset_srst _ hv]
    exact holdsResetValues_of_reset rfl rfl
  · exact ⟨_, step_resetLow rfl, holdsResetValues_of_reset rfl rfl⟩

end Sys2Proof.Machine
end

section
/-! PROOFS. Widths through an engine step: from operands of W bits every evaluation sends only
requests the port can carry, and its result has W bits again (10_state.md R20, R36;
40_coprocessor_ops.md R111, R116). -/

namespace Sys2Proof.Machine

variable {α β : Type} {c : Config}

theorem requestOk_iff {q : Request} : RequestOk c q ↔ q.op.toNat < 4 ∧
    q.x.toNat < 2 ^ c.w ∧ q.y.toNat < 2 ^ c.w ∧ q.m.toNat < 2 ^ c.w := by
  simp [RequestOk, Request.wf, Config.fits, and_assoc]

/-- The evaluation keeps the widths: every request it sends is one the port can carry, and a
result it answers satisfies `post`. -/
structure Run.KeepsWidth (c : Config) (post : α → Prop) (r : Run α) : Prop where
  result   : ∀ v, r.res = .ok v → post v
  requests : ∀ q ∈ r.log, RequestOk c q

theorem Run.KeepsWidth.ret {post : α → Prop} {v : α} (h : post v) : (Run.ret v).KeepsWidth c post where
  result w hw := by cases hw; exact h
  requests q hq := by cases hq

theorem Run.KeepsWidth.raise {post : α → Prop} (e : Err) : (Run.raise e : Run α).KeepsWidth c post where
  result w hw := by cases hw
  requests q hq := by cases hq

/-- A sequence keeps the widths when its second part does from every result the first can answer. -/
theorem Run.KeepsWidth.bind {pre : α → Prop} {post : β → Prop} {r : Run α} {f : α → Run β}
    (hr : r.KeepsWidth c pre) (hf : ∀ v, pre v → (f v).KeepsWidth c post) :
    (r.bind f).KeepsWidth c post where
  result w hw := by
    obtain ⟨v, hv, hfw⟩ := Run.bind_res_ok hw
    exact (hf v (hr.result v hv)).result w hfw
  requests q hq := by
    rcases Run.mem_bind_log hq with hq | ⟨v, hv, hq⟩
    · exact hr.requests q hq
    · exact (hf v (hr.result v hv)).requests q hq

/-! ## The coprocessor's answers to the engine -/

section Requests

variable {x y m : Wide}

/-- One request with operands of the width, answered within it. -/
theorem request_keepsWidth {op : BitVec 3} {res : Result Wide} (hop : op.toNat < 4) (hx : x.toNat < 2 ^ c.w)
    (hy : y.toNat < 2 ^ c.w) (hm : m.toNat < 2 ^ c.w) (hres : ∀ r, res = .ok r → r.toNat < m.toNat) :
    Run.KeepsWidth c (fun r => r.toNat < 2 ^ c.w) { res := res, log := [⟨op, x, y, m⟩] } where
  result r hr := (hres r hr).trans hm
  requests q hq := by
    obtain rfl := List.mem_singleton.1 hq
    exact requestOk_iff.2 ⟨hop, hx, hy, hm⟩

theorem mAdd_keepsWidth (hm0 : m ≠ 0) (hm : m.toNat < 2 ^ c.w) (hx : x.toNat < 2 ^ c.w)
    (hy : y.toNat < 2 ^ c.w) : (mAdd x y m).KeepsWidth c fun r => r.toNat < 2 ^ c.w :=
  request_keepsWidth (by decide) hx hy hm fun r hr => by cases hr; exact copAdd_lt x y hm0

theorem mSub_keepsWidth (hm0 : m ≠ 0) (hm : m.toNat < 2 ^ c.w) (hx : x.toNat < 2 ^ c.w)
    (hy : y.toNat < 2 ^ c.w) : (mSub x y m).KeepsWidth c fun r => r.toNat < 2 ^ c.w :=
  request_keepsWidth (by decide) hx hy hm fun r hr => by cases hr; exact copSub_lt x y hm0

theorem mMul_keepsWidth (hm0 : m ≠ 0) (hm : m.toNat < 2 ^ c.w) (hx : x.toNat < 2 ^ c.w)
    (hy : y.toNat < 2 ^ c.w) : (mMul x y m).KeepsWidth c fun r => r.toNat < 2 ^ c.w :=
  request_keepsWidth (by decide) hx hy hm fun r hr => by cases hr; exact copMul_lt x y hm0

theorem mInv_keepsWidth (hm0 : m ≠ 0) (hm : m.toNat < 2 ^ c.w) (hx : x.toNat < 2 ^ c.w) :
    (mInv x m).KeepsWidth c fun r => r.toNat < 2 ^ c.w := by
  refine request_keepsWidth (by decide) hx (zero_lt_two_pow _) hm fun r hr => ?_
  cases hi : copInv x m with
  | none => rw [hi] at hr; cases hr
  | some i => rw [hi] at hr; cases hr; exact (copInv_some hm0 hi).1

end Requests

/-! ## The engines -/

section Engines

variable {a b p : Wide} {P Q : Point} (ha : a.toNat < 2 ^ c.w) (hb : b.toNat < 2 ^ c.w)
  (hp : p.toNat < 2 ^ c.w)
include ha hb hp

/-- The validator sends only at a modulus above some operand, so never at 0 (41_validator.md R133). -/
theorem onCurve_keepsWidth (hP : P.Fits c) :
    (onCurve a b p P).KeepsWidth c fun v => v = true → Valid a b p P where
  result v hv := by
    obtain ⟨w, hw, hiff⟩ := onCurve_answers a b p P
    rw [hw] at hv
    cases hv
    exact hiff.1
  requests := by
    suffices h : (onCurve a b p P).KeepsWidth c fun _ => True from h.requests
    cases P with
    | inf => exact .ret trivial
    | aff x y =>
      obtain ⟨hx, hy⟩ := hP
      simp only [onCurve]
      split
      · exact .ret trivial
      · rename_i hrange
        have hp0 : p ≠ 0 := fun h0 => hrange (.inl (BitVec.le_def.2 (by rw [h0, wide_zero_toNat]; exact Nat.zero_le _)))
        refine (mMul_keepsWidth hp0 hp hy hy).bind fun t1 _ => ?_
        refine (mMul_keepsWidth hp0 hp hx hx).bind fun t2 h2 => ?_
        refine (mMul_keepsWidth hp0 hp h2 hx).bind fun t3 h3 => ?_
        refine (mMul_keepsWidth hp0 hp ha hx).bind fun t4 h4 => ?_
        refine (mAdd_keepsWidth hp0 hp h3 h4).bind fun t5 h5 => ?_
        exact (mAdd_keepsWidth hp0 hp h5 hb).bind fun t6 _ => .ret trivial

theorem pAdd_keepsWidth (hP : P.Fits c) (hQ : Q.Fits c) : (pAdd a b p P Q).KeepsWidth c (Point.Fits c) := by
  refine (onCurve_keepsWidth ha hb hp hP).bind fun okP hokP => ?_
  cases okP with
  | false => exact .raise _
  | true =>
  refine (onCurve_keepsWidth ha hb hp hQ).bind fun okQ _ => ?_
  cases okQ with
  | false => exact .raise _
  | true =>
  match P, Q with
  | .inf, _ => exact .ret hQ
  | .aff xP yP, .inf => exact .ret hP
  | .aff xP yP, .aff xQ yQ =>
    obtain ⟨hxP, hyP⟩ := hP
    obtain ⟨hxQ, hyQ⟩ := hQ
    have hp0 : p ≠ 0 := ne_zero_of_lt (hokP rfl).1
    simp only [Bool.not_true, Bool.false_eq_true, if_false]
    split
    · exact .raise _
    refine (mAdd_keepsWidth hp0 hp hyP hyQ).bind fun s _ => ?_
    split
    · exact .ret trivial
    refine (mSub_keepsWidth hp0 hp hyQ hyP).bind fun n hn => ?_
    refine (mSub_keepsWidth hp0 hp hxQ hxP).bind fun d hd => ?_
    refine (mInv_keepsWidth hp0 hp hd).bind fun i hi => ?_
    refine (mMul_keepsWidth hp0 hp hn hi).bind fun lam hlam => ?_
    refine (mMul_keepsWidth hp0 hp hlam hlam).bind fun l2 hl2 => ?_
    refine (mSub_keepsWidth hp0 hp hl2 hxP).bind fun u hu => ?_
    refine (mSub_keepsWidth hp0 hp hu hxQ).bind fun xR hxR => ?_
    refine (mSub_keepsWidth hp0 hp hxP hxR).bind fun v hv => ?_
    refine (mMul_keepsWidth hp0 hp hlam hv).bind fun w hw => ?_
    exact (mSub_keepsWidth hp0 hp hw hyP).bind fun yR hyR => .ret ⟨hxR, hyR⟩

theorem pDbl_keepsWidth (hP : P.Fits c) : (pDbl a b p P).KeepsWidth c (Point.Fits c) := by
  refine (onCurve_keepsWidth ha hb hp hP).bind fun okP hokP => ?_
  cases okP with
  | false => exact .raise _
  | true =>
  cases P with
  | inf => exact .ret trivial
  | aff x y =>
    obtain ⟨hx, hy⟩ := hP
    have hp0 : p ≠ 0 := ne_zero_of_lt (hokP rfl).1
    simp only [Bool.not_true, Bool.false_eq_true, if_false]
    split
    · exact .raise _
    refine (mMul_keepsWidth hp0 hp hx hx).bind fun t1 h1 => ?_
    refine (mAdd_keepsWidth hp0 hp h1 h1).bind fun t2 h2 => ?_
    refine (mAdd_keepsWidth hp0 hp h2 h1).bind fun t3 h3 => ?_
    refine (mAdd_keepsWidth hp0 hp h3 ha).bind fun t4 h4 => ?_
    refine (mAdd_keepsWidth hp0 hp hy hy).bind fun t5 h5 => ?_
    refine (mInv_keepsWidth hp0 hp h5).bind fun t6 h6 => ?_
    refine (mMul_keepsWidth hp0 hp h4 h6).bind fun lam hlam => ?_
    refine (mMul_keepsWidth hp0 hp hlam hlam).bind fun l2 hl2 => ?_
    refine (mSub_keepsWidth hp0 hp hl2 hx).bind fun u hu => ?_
    refine (mSub_keepsWidth hp0 hp hu hx).bind fun xR hxR => ?_
    refine (mSub_keepsWidth hp0 hp hx hxR).bind fun v hv => ?_
    refine (mMul_keepsWidth hp0 hp hlam hv).bind fun w hw => ?_
    exact (mSub_keepsWidth hp0 hp hw hy).bind fun yR hyR => .ret ⟨hxR, hyR⟩

end Engines

end Sys2Proof.Machine
end

section
/-! PROOFS. The parts of the invariant under each operation on the block: the widths of the registers
(10_state.md R20) and the order of the sequencer (10_state.md R34 to R36, 60_exceptions.md R223 to R226). -/

namespace Sys2Proof.Machine

variable {c : Config} {b : Block}

theorem Block.busy_eq_true_iff (b : Block) : b.busy = true ↔ b.ph ≠ .idle := by simp [Block.busy]

theorem Block.busy_eq_false_iff (b : Block) : b.busy = false ↔ b.ph = .idle := by simp [Block.busy]

/-! ## Widths -/

/-- A point register read as a value has the width of its coordinates. -/
theorem Block.Fits.point (h : b.Fits c) (i : Reg) : (b.point i).Fits c := by
  unfold Block.point PointReg.point
  split
  · trivial
  · exact ⟨h.x i, h.y i⟩

theorem PointReg.ofPoint_fits {P : Point} (h : P.Fits c) :
    (PointReg.ofPoint P).x.toNat < 2 ^ c.w ∧ (PointReg.ofPoint P).y.toNat < 2 ^ c.w := by
  cases P with
  | inf => exact ⟨zero_lt_two_pow _, zero_lt_two_pow _⟩
  | aff x y => exact h

theorem Block.Fits.complete (h : b.Fits c) (e : Err) : (b.complete e).Fits c :=
  { h with lr0 := trivial, lr1 := trivial }

theorem Block.Fits.setPoint (h : b.Fits c) (rd : Reg) {P : Point} (hP : P.Fits c) :
    (b.setPoint rd P).Fits c := by
  obtain ⟨hx, hy⟩ := PointReg.ofPoint_fits hP
  refine { h with x := fun i => ?_, y := fun i => ?_ } <;> by_cases hi : rd = i
  · subst hi; simpa using hx
  · rw [Block.pr_setPoint_ne b P hi]; exact h.x i
  · subst hi; simpa using hy
  · rw [Block.pr_setPoint_ne b P hi]; exact h.y i

theorem Block.Fits.finish (h : b.Fits c) (rd : Reg) {r : Result Point} (hr : ∀ P, r = .ok P → P.Fits c) :
    (b.finish rd r).Fits c := by
  cases r with
  | ok P => exact (h.setPoint rd (hr P rfl)).complete .none
  | fault e => exact h.complete e

theorem Block.Fits.finishCheck (h : b.Fits c) (r : Result Bool) : (b.finishCheck r).Fits c := by
  cases r with
  | ok v => exact { h.complete .none with }
  | fault e => exact h.complete e

theorem Block.Fits.afterAdd (h : b.Fits c) {r : Result Point} (hr : ∀ P, r = .ok P → P.Fits c) :
    (b.afterAdd r).Fits c := by
  cases r with
  | fault e => exact h.complete e
  | ok T =>
    have hT := hr T rfl
    rw [Block.afterAdd_ok]
    cases b.scalarBit
    · exact { h with lr1 := hT }
    · exact { h with lr0 := hT }

theorem Block.Fits.doubleOperand (h : b.Fits c) : b.doubleOperand.Fits c := by
  unfold Block.doubleOperand
  split
  · exact h.lr1
  · exact h.lr0

theorem Block.Fits.afterDbl (h : b.Fits c) (rd : Reg) {r : Result Point} (hr : ∀ P, r = .ok P → P.Fits c) :
    (b.afterDbl rd r).Fits c := by
  cases r with
  | fault e => exact h.complete e
  | ok T =>
    have hT := hr T rfl
    rw [Block.afterDbl_ok]
    cases b.scalarBit <;> split
    · exact (h.setPoint rd hT).complete .none
    · exact { h with lr0 := hT }
    · exact (h.setPoint rd h.lr0).complete .none
    · exact { h with lr1 := hT }

/-- The widths of the registers the host can name, and of the two accumulators. -/
theorem Block.fits_iff_getWide : b.Fits c ↔
    (∀ r : WideReg, (b.getWide r).toNat < 2 ^ (32 * r.words c)) ∧ b.lr0.Fits c ∧ b.lr1.Fits c := by
  constructor
  · refine fun h => ⟨fun r => ?_, h.lr0, h.lr1⟩
    cases r with
    | ca => exact h.ca
    | cb => exact h.cb
    | cp => exact h.cp
    | k => exact h.k
    | x i => exact h.x i
    | y i => exact h.y i
  · rintro ⟨hw, h0, h1⟩
    exact ⟨hw .ca, hw .cb, hw .cp, hw .k, fun i => hw (.x i), fun i => hw (.y i), h0, h1⟩

/-- A register of the file after register `i` was replaced. -/
theorem getElem_set_reg (v : Vector PointReg 4) (i j : Reg) (r : PointReg) :
    (v.set i r)[j] = if i = j then r else v[j] := by
  simp [Vector.getElem_set, Fin.ext_iff]

/-- Every other wide register keeps its value (20_memory.md R63). -/
theorem Block.getWide_setWide_ne (b : Block) {q r : WideReg} (v : Wide) (h : q ≠ r) :
    (b.setWide r v).getWide q = b.getWide q := by
  cases r <;> cases q <;> simp only [Block.setWide, Block.getWide, ne_eq, not_true] at h ⊢
  case x.x j i => rw [getElem_set_reg, if_neg fun e => h (congrArg _ e.symm)]
  case y.y j i => rw [getElem_set_reg, if_neg fun e => h (congrArg _ e.symm)]
  case x.y j i =>
    rw [getElem_set_reg]
    split
    · subst j; rfl
    · rfl
  case y.x j i =>
    rw [getElem_set_reg]
    split
    · subst j; rfl
    · rfl

/-- A wide register replaced by a value of its width. -/
theorem Block.Fits.setWide (h : b.Fits c) (r : WideReg) {v : Wide} (hv : v.toNat < 2 ^ (32 * r.words c)) :
    (b.setWide r v).Fits c := by
  obtain ⟨hw, h0, h1⟩ := Block.fits_iff_getWide.1 h
  refine Block.fits_iff_getWide.2 ⟨fun q => ?_, ?_, ?_⟩
  · by_cases hq : q = r
    · subst hq; rw [Block.getWide_setWide_self]; exact hv
    · rw [Block.getWide_setWide_ne b v hq]; exact hw q
  · cases r <;> exact h0
  · cases r <;> exact h1

/-- A host write of one word of a register that has it. -/
theorem Block.Fits.setWide_setWord (h : b.Fits c) {r : WideReg} {j : Nat} (x : Word) (hj : j < r.words c) :
    (b.setWide r (setWord (b.getWide r) j x)).Fits c :=
  h.setWide r (setWord_fits x hj ((Block.fits_iff_getWide.1 h).1 r))

/-- A write to PTAG changes tags alone (10_state.md R26). -/
theorem Block.Fits.writePtag (h : b.Fits c) (v : Word) : (b.writePtag v).Fits c :=
  { h with
    x := fun i => by simpa [Block.writePtag] using h.x i
    y := fun i => by simpa [Block.writePtag] using h.y i }

/-! ## What a launch can do -/

/-- A launch, said once (60_exceptions.md R223, R224, 44_ladder.md R184): a step in EXEC is due, or the
ladder starts, or the word is ILLEGAL and the block stays idle. -/
theorem Block.launch_cases (b : Block) (w : Word) :
    ((∃ i, decodeCommand w = .ok i) ∧ b.launch w = { b.clearFlags with cmdr := w, ph := .exec }) ∨
    (∃ rd ra, decodeCommand w = .ok (.ladder rd ra) ∧ b.point ra ≠ .inf ∧ b.k ≠ 0 ∧
      b.launch w = { b.clearFlags with
        cmdr := w, lr0 := .inf, lr1 := b.point ra, li := b.scalarLength - 1, ph := .lAdd }) ∨
    (decodeCommand w = .reject .illegalCommand ∧
      b.launch w = { b.clearFlags with cmdr := w, err := .illegalCmd, done := true }) := by
  unfold Block.launch
  rcases decodeCommand_cases w with h | h | h | h | h <;> rw [h]
  case inr.inr.inr.inl =>
    by_cases he : b.point (fieldRA w) = .inf ∨ b.k = 0
    · exact .inl ⟨⟨_, rfl⟩, if_pos he⟩
    · exact .inr (.inl ⟨_, _, rfl, fun e => he (.inl e), fun e => he (.inr e), if_neg he⟩)
  case inr.inr.inr.inr => exact .inr (.inr ⟨rfl, rfl⟩)
  all_goals exact .inl ⟨⟨_, rfl⟩, rfl⟩

theorem Block.Fits.launch (h : b.Fits c) (w : Word) : (b.launch w).Fits c := by
  rcases b.launch_cases w with ⟨-, e⟩ | ⟨rd, ra, -, -, -, e⟩ | ⟨-, e⟩ <;> rw [e]
  · exact { h with }
  · exact { h with lr0 := trivial, lr1 := h.point ra }
  · exact { h with }

/-! ## The order of the sequencer -/

/-- A completion leaves the sequencer idle and clear (60_exceptions.md R226). -/
theorem Block.sequenced_complete (b : Block) (e : Err) : (b.complete e).Sequenced :=
  Block.sequenced_of_idle rfl ⟨rfl, rfl, rfl⟩

theorem Block.sequenced_finish (b : Block) (rd : Reg) (r : Result Point) : (b.finish rd r).Sequenced := by
  cases r with
  | ok P => exact (b.setPoint rd P).sequenced_complete .none
  | fault e => exact b.sequenced_complete e

theorem Block.sequenced_finishCheck (b : Block) (r : Result Bool) : (b.finishCheck r).Sequenced := by
  cases r with
  | ok v => exact Block.sequenced_of_idle rfl ⟨rfl, rfl, rfl⟩
  | fault e => exact b.sequenced_complete e

/-- In a phase of the ladder the command is a LADDER and LI names a bit of the scalar. -/
theorem Block.Sequenced.inLadder (h : b.Sequenced) (hph : b.ph = .lAdd ∨ b.ph = .lDbl) :
    (∃ rd ra, decodeCommand b.cmdr = .ok (.ladder rd ra)) ∧ b.li < b.scalarLength := by
  have hm := h.phase
  unfold Block.PhaseMatches at hm
  rcases hph with hph | hph <;> rw [hph] at hm <;> exact hm

/-- The ladder goes on with the same command, scalar and flags at an index not above the present one. -/
theorem Block.Sequenced.ladderGoesOn (h : b.Sequenced) (hph : b.ph = .lAdd ∨ b.ph = .lDbl)
    {ph : Phase} (hph' : ph = .lAdd ∨ ph = .lDbl) {li : Nat} (hli : li ≤ b.li) (P Q : Point) :
    { b with lr0 := P, lr1 := Q, li := li, ph := ph }.Sequenced := by
  obtain ⟨hcmd, hlt⟩ := h.inLadder hph
  have hbusy : b.ph ≠ .idle := by rcases hph with e | e <;> rw [e] <;> decide
  refine ⟨?_, ?_, fun _ => h.running hbusy⟩
  · rcases hph' with rfl | rfl <;> exact ⟨hcmd, hli.trans_lt hlt⟩
  · rcases hph' with rfl | rfl <;> intro e <;> rcases e with e | e <;> cases e

theorem Block.Sequenced.afterAdd (h : b.Sequenced) (hph : b.ph = .lAdd) (r : Result Point) :
    (b.afterAdd r).Sequenced := by
  cases r with
  | fault e => exact b.sequenced_complete e
  | ok T =>
    rw [Block.afterAdd_ok]
    exact h.ladderGoesOn (.inl hph) (.inr rfl) le_rfl _ _

theorem Block.Sequenced.afterDbl (h : b.Sequenced) (hph : b.ph = .lDbl) (rd : Reg) (r : Result Point) :
    (b.afterDbl rd r).Sequenced := by
  cases r with
  | fault e => exact b.sequenced_complete e
  | ok T =>
    rw [Block.afterDbl_ok]
    split
    · exact Block.sequenced_complete _ .none
    · exact h.ladderGoesOn (.inr hph) (.inl rfl) (Nat.sub_le _ _) _ _

/-- A scalar above 0 has a bit. -/
theorem Block.scalarLength_pos (hk : b.k ≠ 0) : 0 < b.scalarLength := by
  unfold Block.scalarLength bitlen
  rw [if_neg (toNat_pos hk).ne']
  exact Nat.succ_pos _

theorem Block.Sequenced.launch (h : b.Sequenced) (hidle : b.ph = .idle) (w : Word) :
    (b.launch w).Sequenced := by
  have hclear := h.quiet (.inl hidle)
  rcases b.launch_cases w with ⟨hd, e⟩ | ⟨rd, ra, hd, -, hk, e⟩ | ⟨-, e⟩ <;> rw [e]
  · exact ⟨hd, fun _ => hclear, fun _ => ⟨rfl, rfl, rfl⟩⟩
  · have hlt : b.scalarLength - 1 < b.scalarLength := Nat.sub_one_lt (Block.scalarLength_pos hk).ne'
    exact ⟨⟨⟨rd, ra, hd⟩, hlt⟩, fun e => (by rcases e with e | e <;> cases e), fun _ => ⟨rfl, rfl, rfl⟩⟩
  · exact Block.sequenced_of_idle hidle hclear

/-! ## Host writes -/

/-- A write that is blocked while busy keeps both parts when the write itself does on an idle block. -/
theorem Block.unlessBusy_keeps {f : Block → Block} (hf : b.Fits c) (hs : b.Sequenced)
    (hw : b.ph = .idle → (f b).Fits c ∧ (f b).Sequenced) :
    (b.unlessBusy f).Fits c ∧ (b.unlessBusy f).Sequenced := by
  unfold Block.unlessBusy
  split
  · exact ⟨{ hf with }, { hs with }⟩
  · rename_i hb
    exact hw (b.busy_eq_false_iff.1 (Bool.not_eq_true _ ▸ hb))

theorem Block.writeStatus_keeps (hf : b.Fits c) (hs : b.Sequenced) (v : Word) :
    (b.writeStatus v).Fits c ∧ (b.writeStatus v).Sequenced := by
  have hack : b.acknowledge.Sequenced :=
    { hs with running := fun h => ⟨rfl, (hs.running h).2⟩ }
  unfold Block.writeStatus
  cases v.getLsbD 1 <;> cases v.getLsbD 3
  · exact ⟨hf, hs⟩
  · exact ⟨{ hf with }, { hs with }⟩
  · exact ⟨{ hf with }, hack⟩
  · exact ⟨{ hf with }, { hack with }⟩

/-- A location that names a word of a wide register: the offset is in that register's slot, and the
register has the word. -/
theorem wide_of_locate {off j : Nat} {r : WideReg} (h : locate c off = .wide r j) :
    r.offset = 0x80 * (off / 0x80) ∧ j < r.words c := by
  unfold locate at h
  iterate 5 (split at h; · cases h)
  split at h
  · rename_i hs
    split at h
    · cases h; exact ⟨wideSlot_some hs, ‹_›⟩
    · cases h
  · cases h

/-- A legal write to any location of the map keeps the widths and the order of the sequencer. -/
theorem Block.writeLoc_keeps (hf : b.Fits c) (hs : b.Sequenced) (off : Nat) (v : Word) :
    (b.writeLoc (locate c off) v).Fits c ∧ (b.writeLoc (locate c off) v).Sequenced := by
  cases hl : locate c off with
  | ctrl => exact ⟨{ hf with }, { hs with }⟩
  | status => exact Block.writeStatus_keeps hf hs v
  | id => exact ⟨hf, hs⟩
  | reserved => exact ⟨hf, hs⟩
  | cmd => exact Block.unlessBusy_keeps (f := fun b => b.launch v) hf hs fun hi => ⟨hf.launch v, hs.launch hi v⟩
  | ptag =>
    exact Block.unlessBusy_keeps (f := fun b => b.writePtag v) hf hs fun hi =>
      ⟨hf.writePtag v, Block.sequenced_of_idle hi (hs.quiet (.inl hi))⟩
  | wide r j =>
    refine Block.unlessBusy_keeps (f := fun b => b.setWide r (setWord (b.getWide r) j v)) hf hs fun hi =>
      ⟨hf.setWide_setWord v (wide_of_locate hl).2, ?_⟩
    have hclear := hs.quiet (.inl hi)
    cases r <;> exact Block.sequenced_of_idle hi hclear

end Sys2Proof.Machine
end

section
/-! PROOFS. The invariant under each event of the machine, and that every event answers a next state. -/

namespace Sys2Proof.Machine

variable {s t : State} {c : Config}

/-! ## Updates of the state -/

/-- The inputs to come, the last bus answer, the counter of free values and the history of
sub-operations are no part of the invariant. -/
theorem State.Inv.withModelFields (h : s.Inv) (l : List Input) (o : Option BusAnswer) (n : Nat)
    (u : List SubOp) : { s with inputs := l, bus := o, freeIdx := n, subOps := u }.Inv :=
  ⟨h.cfg, h.fits, h.sequenced, h.request, h.answer, h.held, h.sent⟩

theorem State.Inv.withBlock (h : s.Inv) (hr : s.rstN = true) {b : Block} (hf : b.Fits s.cfg)
    (hs : b.Sequenced) : { s with blk := b }.Inv :=
  { h with fits := hf, sequenced := hs, held := fun hn => by rw [hr] at hn; cases hn }

theorem State.Inv.softReset (h : s.Inv) : s.softReset.Inv :=
  State.inv_of_reset h.cfg rfl rfl rfl h.sent

theorem State.Inv.hardReset (h : s.Inv) : s.hardReset.Inv :=
  State.inv_of_reset h.cfg rfl rfl rfl h.sent

theorem State.Inv.releaseReset (h : s.Inv) : { s with rstN := true }.Inv :=
  { h with held := fun hn => by cases hn }

/-- An engine step: a block in order, and requests the port can carry (40_coprocessor_ops.md R117). -/
theorem State.Inv.engine (h : s.Inv) (hr : s.rstN = true) {b : Block} {l : List Request}
    (hf : b.Fits s.cfg) (hs : b.Sequenced) (hl : ∀ q ∈ l, RequestOk s.cfg q) : (s.engine b l).Inv where
  cfg := h.cfg
  fits := hf
  sequenced := hs
  request := h.request
  answer a ha := by cases ha
  held hn := by rw [State.engine_rstN, hr] at hn; cases hn
  sent q hq := by
    rcases List.mem_append.1 hq with hq | hq
    · exact h.sent q hq
    · exact hl q hq

/-- An answered request (40_coprocessor_ops.md R116). -/
theorem State.Inv.answered (h : s.Inv) {q : Request} {a : Answer} (hq : RequestOk s.cfg q)
    (ha : AnswerOk s.cfg a) : (s.answer q a).Inv where
  cfg := h.cfg
  fits := h.fits
  sequenced := h.sequenced
  request r hr := by cases hr
  answer r hr := by cases hr; exact ha
  held hn := ⟨(h.held hn).1, rfl⟩
  sent r hr := by
    rcases List.mem_append.1 hr with hr | hr
    · exact h.sent r hr
    · rw [List.mem_singleton.1 hr]; exact hq

/-! ## Host accesses -/

theorem State.Inv.hostAccess (h : s.Inv) (a : Access) : (s.hostAccess a).Inv := by
  rcases hostAccess_cases s a with ⟨o, n, e⟩ | ⟨-, e⟩ | ⟨hr, off, v, e⟩ <;> rw [e]
  · exact h.withModelFields _ _ _ _
  · exact h.softReset.withModelFields _ _ _ _
  · obtain ⟨hf, hs⟩ := Block.writeLoc_keeps h.fits h.sequenced off v
    exact (h.withBlock hr hf hs).withModelFields _ _ _ _

/-! ## Instructions -/

/-- The answer channel carries W bits (40_coprocessor_ops.md R116). -/
theorem trunc_lt (c : Config) (v : Wide) : (Config.trunc c v).toNat < 2 ^ c.w := by
  rw [Config.trunc, wide, BitVec.toNat_ofNat]
  exact (Nat.mod_le _ _).trans_lt (Nat.mod_lt _ (Nat.two_pow_pos _))

theorem answerOk_invAnswer (c : Config) (o : Option Wide) : AnswerOk c (invAnswer c o) := by
  cases o with
  | none => trivial
  | some r => exact trunc_lt c r

/-- MINV is sent with y = 0, which fits any width (40_coprocessor_ops.md R115). -/
theorem requestOk_minv {x m : Wide} (h : (Instr.minv x m).wf c = true) : RequestOk c ⟨3, x, 0, m⟩ := by
  simp only [Instr.wf, Config.fits, Bool.and_eq_true, decide_eq_true_eq] at h
  exact requestOk_iff.2 ⟨(by decide : (3#3).toNat < 4), h.1, zero_lt_two_pow _, h.2⟩

/-- Every end of an instruction with operands of the width keeps the invariant. -/
theorem Executes.keeps_inv {i : Instr} (he : Executes i s t) (h : s.Inv) (hr : s.rstN = true)
    (hi : i.wf s.cfg = true) : t.Inv := by
  have hf := h.fits
  cases he with
  | pchk ra =>
    have hk := onCurve_keepsWidth hf.ca hf.cb hf.cp (hf.point ra)
    exact h.engine hr (hf.finishCheck _) (Block.sequenced_finishCheck _ _) hk.requests
  | padd rd ra rb =>
    have hk := pAdd_keepsWidth hf.ca hf.cb hf.cp (hf.point ra) (hf.point rb)
    exact h.engine hr (hf.finish rd hk.result) (Block.sequenced_finish _ _ _) hk.requests
  | pdbl rd ra =>
    have hk := pDbl_keepsWidth hf.ca hf.cb hf.cp (hf.point ra)
    exact h.engine hr (hf.finish rd hk.result) (Block.sequenced_finish _ _ _) hk.requests
  | early rd ra =>
    refine h.engine hr (hf.finish rd fun P hP => ?_) (Block.sequenced_finish _ _ _) fun q hq => by cases hq
    cases hP
    trivial
  | add rd ra _ hph =>
    have hk := pAdd_keepsWidth hf.ca hf.cb hf.cp hf.lr0 hf.lr1
    exact (h.engine hr (hf.afterAdd hk.result) (h.sequenced.afterAdd hph _) hk.requests).withModelFields _ _ _ _
  | dbl rd ra _ hph =>
    have hk := pDbl_keepsWidth hf.ca hf.cb hf.cp hf.doubleOperand
    exact (h.engine hr (hf.afterDbl rd hk.result) (h.sequenced.afterDbl hph rd _)
      hk.requests).withModelFields _ _ _ _
  | madd x y m => exact h.answered ⟨(by decide : (0#3).toNat < 4), hi⟩ (trunc_lt s.cfg _)
  | msub x y m => exact h.answered ⟨(by decide : (1#3).toNat < 4), hi⟩ (trunc_lt s.cfg _)
  | mmul x y m => exact h.answered ⟨(by decide : (2#3).toNat < 4), hi⟩ (trunc_lt s.cfg _)
  | minv x m => exact h.answered (requestOk_minv hi) (answerOk_invAnswer _ _)

/-- A request the port can carry decodes to an instruction with operands of the width, which is answered. -/
theorem exec_request_goesOn {q : Request} (hq : RequestOk s.cfg q) :
    ∃ i t, decodeRequest q = .ok i ∧ i.wf s.cfg = true ∧ exec i s = .next t := by
  obtain ⟨hop, hwf⟩ := hq
  rcases decodeRequest_cases q with ⟨-, e⟩ | ⟨-, e⟩ | ⟨-, e⟩ | ⟨-, e⟩ | ⟨hge, -⟩
  · exact ⟨_, _, e, hwf, rfl⟩
  · exact ⟨_, _, e, hwf, rfl⟩
  · exact ⟨_, _, e, hwf, rfl⟩
  · simp only [Request.wf, Bool.and_eq_true] at hwf
    exact ⟨_, _, e, by simp [Instr.wf, hwf], rfl⟩
  · omega

/-- A busy block in order holds a command whose engine step its phase selects (60_exceptions.md R225). -/
theorem exec_command_goesOn (h : s.blk.Sequenced) (hb : s.blk.ph ≠ .idle) :
    ∃ i t, decodeCommand s.blk.cmdr = .ok i ∧ i.wf s.cfg = true ∧ exec i s = .next t := by
  cases hph : s.blk.ph with
  | idle => exact absurd hph hb
  | exec =>
    have hm : ∃ i, decodeCommand s.blk.cmdr = .ok i := by
      have := h.phase
      rwa [Block.PhaseMatches, hph] at this
    rcases decodeCommand_cases s.blk.cmdr with e | e | e | e | e
    · exact ⟨_, _, e, rfl, exec_of_executes (.pchk _ s hph)⟩
    · exact ⟨_, _, e, rfl, exec_of_executes (.padd _ _ _ s hph)⟩
    · exact ⟨_, _, e, rfl, exec_of_executes (.pdbl _ _ s hph)⟩
    · exact ⟨_, _, e, rfl, exec_of_executes (.early _ _ s hph)⟩
    · obtain ⟨i, hi⟩ := hm
      rw [e] at hi
      cases hi
  | lAdd =>
    obtain ⟨⟨rd, ra, e⟩, -⟩ := h.inLadder (.inl hph)
    exact ⟨_, _, e, rfl, exec_of_executes (.add rd ra s hph)⟩
  | lDbl =>
    obtain ⟨⟨rd, ra, e⟩, -⟩ := h.inLadder (.inr hph)
    exact ⟨_, _, e, rfl, exec_of_executes (.dbl rd ra s hph)⟩

/-! ## The block's own move, and the step -/

theorem State.Inv.advance (h : s.Inv) : ∃ t, s.advance = .next t ∧ t.Inv := by
  cases hr : s.rstN with
  | false => exact ⟨s, advance_held hr, h⟩
  | true =>
  cases hq : s.mreq with
  | some q =>
    obtain ⟨i, t, hd, hi, he⟩ := exec_request_goesOn (h.request q hq)
    exact ⟨t, (advance_request hr hq hd).trans he, (exec_inversion he).keeps_inv h hr hi⟩
  | none =>
    by_cases hb : s.blk.ph = .idle
    · exact ⟨s, advance_idle hq (s.blk.busy_eq_false_iff.2 hb), h⟩
    · obtain ⟨i, t, hd, hi, he⟩ := exec_command_goesOn h.sequenced hb
      exact ⟨t, (advance_command hr hq (s.blk.busy_eq_true_iff.2 hb) hd).trans he,
        (exec_inversion he).keeps_inv h hr hi⟩

/-- Settles O46, by the kinds of input a step can take. -/
theorem everyStepGoesOnAndKeepsTheInvariant : Obligations.EveryStepGoesOnAndKeepsTheInvariant := by
  intro s h
  have htake : ∀ rest, State.Inv { s with inputs := rest } := fun rest => h.withModelFields rest _ _ _
  match hin : s.inputs with
  | [] => rw [step_nil hin]; exact h.advance
  | .access a :: rest => exact ⟨_, step_access hin, (htake rest).hostAccess a⟩
  | .advance :: rest => rw [step_advance hin]; exact (htake rest).advance
  | .resetLow :: rest => exact ⟨_, step_resetLow hin, (htake rest).hardReset⟩
  | .resetHigh :: rest => exact ⟨_, step_resetHigh hin, (htake rest).releaseReset⟩

/-! ## The block's turn -/

/-- On the block's turn the step is its own move on the state with that input taken. -/
theorem step_turn {rest : List Input} (h : s.inputs = .advance :: rest ∨ (s.inputs = [] ∧ rest = [])) :
    step s = State.advance { s with inputs := rest } := by
  rcases h with h | ⟨h, rfl⟩
  · exact step_advance h
  · rw [step_nil h, ← h]

/-- Settles O43: the turn is one move, and each case of the move has its lemma. -/
theorem stepRunsTheDecodedInstruction : Obligations.StepRunsTheDecodedInstruction := by
  intro s rest hr hin
  rw [step_turn hin]
  refine ⟨fun q i hq hd => advance_request hr hq hd, fun i hq hph hd => ?_, fun hq hph => ?_⟩
  · exact advance_command hr hq (s.blk.busy_eq_true_iff.2 hph) hd
  · exact advance_idle hq (s.blk.busy_eq_false_iff.2 hph)

end Sys2Proof.Machine
end

section
/-! PROOFS. What an instruction leaves unchanged (10_state.md R21, R25, R28, R31; 60_exceptions.md R226). -/

namespace Sys2Proof.Machine

variable {s t : State} {b b' : Block} {i : Instr} {d : Option Reg}

/-! ## The frame of an instruction -/

/-- `b'` has the registers of `b` that no instruction changes, and every point register but `d`. -/
structure Block.KeepsAllBut (d : Option Reg) (b b' : Block) : Prop where
  ca     : b'.ca = b.ca
  cb     : b'.cb = b.cb
  cp     : b'.cp = b.cp
  k      : b'.k = b.k
  cmdr   : b'.cmdr = b.cmdr
  werr   : b'.werr = b.werr
  ie     : b'.ie = b.ie
  points : ∀ j : Reg, d ≠ some j → b'.pr[j] = b.pr[j]

theorem Block.KeepsAllBut.refl (d : Option Reg) (b : Block) : b.KeepsAllBut d b :=
  ⟨rfl, rfl, rfl, rfl, rfl, rfl, rfl, fun _ _ => rfl⟩

theorem Block.complete_keepsAllBut (d : Option Reg) (b : Block) (e : Err) : b.KeepsAllBut d (b.complete e) :=
  ⟨rfl, rfl, rfl, rfl, rfl, rfl, rfl, fun _ _ => rfl⟩

theorem Block.setPoint_complete_keepsAllBut (b : Block) (rd : Reg) (P : Point) (e : Err) :
    b.KeepsAllBut (some rd) ((b.setPoint rd P).complete e) :=
  ⟨rfl, rfl, rfl, rfl, rfl, rfl, rfl, fun _ hj => b.pr_setPoint_ne P fun e => hj (congrArg _ e)⟩

theorem Block.finish_keepsAllBut (b : Block) (rd : Reg) (r : Result Point) :
    b.KeepsAllBut (some rd) (b.finish rd r) := by
  cases r with
  | ok P => exact b.setPoint_complete_keepsAllBut rd P .none
  | fault e => exact b.complete_keepsAllBut _ e

theorem Block.finishCheck_keepsAllBut (b : Block) (r : Result Bool) :
    b.KeepsAllBut none (b.finishCheck r) := by
  cases r with
  | ok v => exact { b.complete_keepsAllBut none .none with }
  | fault e => exact b.complete_keepsAllBut _ e

theorem Block.afterAdd_keepsAllBut (d : Option Reg) (b : Block) (r : Result Point) :
    b.KeepsAllBut d (b.afterAdd r) := by
  cases r with
  | ok T => rw [Block.afterAdd_ok]; exact { KeepsAllBut.refl d b with }
  | fault e => exact b.complete_keepsAllBut _ e

theorem Block.afterDbl_keepsAllBut (b : Block) (rd : Reg) (r : Result Point) :
    b.KeepsAllBut (some rd) (b.afterDbl rd r) := by
  cases r with
  | ok T =>
    rw [Block.afterDbl_ok]
    split
    · exact b.setPoint_complete_keepsAllBut rd _ .none
    · exact { KeepsAllBut.refl _ b with }
  | fault e => exact b.complete_keepsAllBut _ e

/-- No instruction changes more of the block than its destination, STATUS and the sequencer. -/
theorem Executes.keepsAllBut_dest (h : Executes i s t) : s.blk.KeepsAllBut (dest i) t.blk := by
  cases h with
  | pchk => exact s.blk.finishCheck_keepsAllBut _
  | padd rd => exact s.blk.finish_keepsAllBut rd _
  | pdbl rd => exact s.blk.finish_keepsAllBut rd _
  | early rd => exact s.blk.finish_keepsAllBut rd (.ok .inf)
  | add => exact s.blk.afterAdd_keepsAllBut _ _
  | dbl rd => exact s.blk.afterDbl_keepsAllBut rd _
  | madd => exact .refl _ _
  | msub => exact .refl _ _
  | mmul => exact .refl _ _
  | minv => exact .refl _ _

/-- An instruction touches nothing outside the block but the port and the model's histories. -/
theorem Executes.keeps_interface (h : Executes i s t) :
    t.cfg = s.cfg ∧ t.rstN = s.rstN ∧ t.inputs = s.inputs ∧ t.bus = s.bus ∧ t.freeIdx = s.freeIdx := by
  cases h <;> exact ⟨rfl, rfl, rfl, rfl, rfl⟩

/-- A coprocessor request changes nothing of the block. -/
theorem Executes.blk_of_not_command (h : Executes i s t) (hi : ¬ IsCommand i) : t.blk = s.blk := by
  cases h with
  | madd => rfl
  | msub => rfl
  | mmul => rfl
  | minv => rfl
  | _ => exact absurd trivial hi

/-! ## The words the host reads -/

theorem eq_of_locate_status {c : Config} {off : Nat} (h : locate c off = .status) : off = 0x004 := by
  unfold locate at h
  split at h; · cases h
  split at h; · assumption
  iterate 3 (split at h; · cases h)
  split at h
  · split at h <;> cases h
  · cases h

theorem eq_of_locate_ptag {c : Config} {off : Nat} (h : locate c off = .ptag) : off = 0x010 := by
  unfold locate at h
  iterate 4 (split at h; · cases h)
  split at h; · assumption
  split at h
  · split at h <;> cases h
  · cases h

/-- Outside the slots of the point registers, STATUS and PTAG, a read depends on nothing an instruction
changes (10_state.md R42). -/
theorem Block.KeepsAllBut.readLoc_eq (h : b.KeepsAllBut d b') {c : Config} {off : Nat}
    (hoff : off < 0x280 ∨ 0x680 ≤ off) (hstatus : off ≠ 0x004) (hptag : off ≠ 0x010) :
    b'.readLoc c (locate c off) = b.readLoc c (locate c off) := by
  cases hl : locate c off with
  | cmd => exact h.cmdr
  | status => exact absurd (eq_of_locate_status hl) hstatus
  | ctrl => exact congrArg (fun e => 0#31 ++ BitVec.ofBool e) h.ie
  | id => rfl
  | ptag => exact absurd (eq_of_locate_ptag hl) hptag
  | reserved => rfl
  | wide r j =>
    have hslot := (wide_of_locate hl).1
    cases r with
    | ca => exact congrArg (wordAt · j) h.ca
    | cb => exact congrArg (wordAt · j) h.cb
    | cp => exact congrArg (wordAt · j) h.cp
    | k => rfl
    | x i => simp only [WideReg.offset] at hslot; omega
    | y i => simp only [WideReg.offset] at hslot; omega

/-- Settles O47, from the frame of the block, the frame of the interfaces, and what a read depends on. -/
theorem instructionFrame : Obligations.InstructionFrame := by
  intro i s t h
  have he := exec_inversion h
  have hf := he.keepsAllBut_dest
  have hi := he.keeps_interface
  refine ⟨⟨hf.ca, hf.cb, hf.cp, hf.k, hf.cmdr, hf.werr, hf.ie⟩, hi, hf.points, he.blk_of_not_command, ?_⟩
  intro off hoff hstatus hptag
  rw [State.readOffset, State.readOffset, hi.1]
  exact hf.readLoc_eq hoff hstatus hptag

/-! ## ONC -/

theorem Block.finish_onc (b : Block) (rd : Reg) (r : Result Point) : (b.finish rd r).onc = b.onc := by
  cases r <;> rfl

theorem Block.afterAdd_onc (b : Block) (r : Result Point) : (b.afterAdd r).onc = b.onc := by
  cases r with
  | ok T => rw [Block.afterAdd_ok]
  | fault e => rfl

theorem Block.afterDbl_onc (b : Block) (rd : Reg) (r : Result Point) : (b.afterDbl rd r).onc = b.onc := by
  cases r with
  | ok T => rw [Block.afterDbl_ok]; split <;> rfl
  | fault e => rfl

/-- Every instruction but PCHK leaves ONC as it was (10_state.md R31). -/
theorem Executes.onc_eq (h : Executes i s t) (hi : ∀ ra, i ≠ .pchk ra) : t.blk.onc = s.blk.onc := by
  cases h with
  | pchk ra => exact absurd rfl (hi ra)
  | padd => exact Block.finish_onc _ _ _
  | pdbl => exact Block.finish_onc _ _ _
  | early => exact Block.finish_onc _ _ _
  | add => exact Block.afterAdd_onc _ _
  | dbl => exact Block.afterDbl_onc _ _ _
  | madd => rfl
  | msub => rfl
  | mmul => rfl
  | minv => rfl

/-- Settles O48: any other instruction would have left ONC at 0. -/
theorem onlyPchkSetsOnc : Obligations.OnlyPchkSetsOnc := by
  intro i s t h h0 h1
  by_contra hn
  have := (exec_inversion h).onc_eq fun ra hi => hn ⟨ra, hi⟩
  rw [h0, h1] at this
  cases this

end Sys2Proof.Machine
end

section
/-! PROOFS. What a step does not depend on: the scalar, but for LADDER (10_state.md R28), and the hidden
coordinates of a register that is the identity (10_state.md R24, R27). -/

namespace Sys2Proof.Machine

variable {s t : State} {b : Block} {i : Instr}

/-! ## The scalar -/

/-- Every word reads the same whatever K holds: K itself reads as 0 (10_state.md R28). -/
theorem readOffset_withK (s : State) (k : Wide) (off : Nat) :
    (s.withK k).readOffset off = s.readOffset off := by
  simp only [State.readOffset, State.withK]
  cases locate s.cfg off with
  | wide r j => cases r <;> rfl
  | _ => rfl

/-- A read access has the same answer and the same effect whatever K holds. -/
theorem hostAccess_read_withK (s : State) (k : Wide) (addr n : Nat) :
    (s.withK k).hostAccess (.read addr n) = (s.hostAccess (.read addr n)).withK k := by
  have hwin : (s.withK k).inWindow addr = s.inWindow addr := rfl
  have hrst : (s.withK k).rstN = s.rstN := rfl
  simp only [State.hostAccess, readOffset_withK, hwin, hrst]
  split
  · rfl
  · split <;> rfl

theorem Block.finish_withK (b : Block) (k : Wide) (rd : Reg) (r : Result Point) :
    { b with k := k }.finish rd r = { b.finish rd r with k := k } := by
  cases r <;> rfl

theorem Block.finishCheck_withK (b : Block) (k : Wide) (r : Result Bool) :
    { b with k := k }.finishCheck r = { b.finishCheck r with k := k } := by
  cases r <;> rfl

theorem State.engine_withK (s : State) (b : Block) (l : List Request) (k : Wide) :
    (s.engine b l).withK k = (s.withK k).engine { b with k := k } l := rfl

/-- Every instruction but LADDER has the same end with another scalar in K. -/
theorem Executes.withK (h : Executes i s t) (hi : ∀ rd ra, i ≠ .ladder rd ra) (k : Wide) :
    Executes i (s.withK k) (t.withK k) := by
  cases h with
  | pchk ra _ hph =>
    rw [State.engine_withK, ← Block.finishCheck_withK]
    exact .pchk ra (s.withK k) hph
  | padd rd ra rb _ hph =>
    rw [State.engine_withK, ← Block.finish_withK]
    exact .padd rd ra rb (s.withK k) hph
  | pdbl rd ra _ hph =>
    rw [State.engine_withK, ← Block.finish_withK]
    exact .pdbl rd ra (s.withK k) hph
  | early rd ra => exact absurd rfl (hi rd ra)
  | add rd ra => exact absurd rfl (hi rd ra)
  | dbl rd ra => exact absurd rfl (hi rd ra)
  | madd x y m => exact .madd x y m (s.withK k)
  | msub x y m => exact .msub x y m (s.withK k)
  | mmul x y m => exact .mmul x y m (s.withK k)
  | minv x m => exact .minv x m (s.withK k)

/-- Settles O49: reads and every end but LADDER's commute with a change of K. -/
theorem onlyLadderDependsOnTheScalar : Obligations.OnlyLadderDependsOnTheScalar := by
  refine ⟨fun s k addr n rest => ?_, fun i s t k hi h => ?_⟩
  · refine ⟨_, _, step_access rfl, step_access rfl, ?_, fun _ _ => ?_⟩ <;>
      rw [show { s.withK k with inputs := rest } = State.withK { s with inputs := rest } k from rfl,
        hostAccess_read_withK]
    rfl
  · exact exec_of_executes ((exec_inversion h).withK hi k)

/-! ## Hidden coordinates -/

/-- The same register replaced in two files. -/
theorem SamePoints.set {u v : Vector PointReg 4} (h : SamePoints u v) (rd : Reg) (r : PointReg) :
    SamePoints (u.set rd r) (v.set rd r) := by
  intro j
  rw [getElem_set_reg, getElem_set_reg]
  split
  · exact ⟨rfl, fun _ => ⟨rfl, rfl⟩⟩
  · exact h j

/-- The registers are read as the same point values (10_state.md R24). -/
theorem SamePoints.point_eq {pr : Vector PointReg 4} (h : SamePoints pr b.pr) (j : Reg) :
    { b with pr := pr }.point j = b.point j := by
  obtain ⟨hinf, hxy⟩ := h j
  simp only [Block.point, PointReg.point, hinf]
  split
  · rfl
  · rename_i hn
    obtain ⟨hx, hy⟩ := hxy (Bool.not_eq_true _ ▸ hn)
    rw [hx, hy]

/-- `b'` is `b` but for hidden coordinates. -/
def Block.SameButHidden (b' b : Block) : Prop :=
  ∃ pr, b' = { b with pr := pr } ∧ SamePoints pr b.pr

section

variable {pr : Vector PointReg 4} (h : SamePoints pr b.pr)
include h

theorem Block.finish_sameButHidden (rd : Reg) (r : Result Point) :
    ({ b with pr := pr }.finish rd r).SameButHidden (b.finish rd r) := by
  cases r with
  | ok P => exact ⟨_, rfl, h.set rd _⟩
  | fault e => exact ⟨_, rfl, h⟩

theorem Block.finishCheck_sameButHidden (r : Result Bool) :
    ({ b with pr := pr }.finishCheck r).SameButHidden (b.finishCheck r) := by
  cases r with
  | ok v => exact ⟨_, rfl, h⟩
  | fault e => exact ⟨_, rfl, h⟩

theorem Block.afterAdd_sameButHidden (r : Result Point) :
    ({ b with pr := pr }.afterAdd r).SameButHidden (b.afterAdd r) := by
  cases r with
  | ok T => rw [Block.afterAdd_ok, Block.afterAdd_ok]; exact ⟨_, rfl, h⟩
  | fault e => exact ⟨_, rfl, h⟩

theorem Block.afterDbl_sameButHidden (rd : Reg) (r : Result Point) :
    ({ b with pr := pr }.afterDbl rd r).SameButHidden (b.afterDbl rd r) := by
  cases r with
  | ok T =>
    rw [Block.afterDbl_ok, Block.afterDbl_ok]
    split
    · exact ⟨_, rfl, h.set rd _⟩
    · exact ⟨_, rfl, h⟩
  | fault e => exact ⟨_, rfl, h⟩

end

/-- `t'` is `t` but for hidden coordinates. -/
def State.SameButHidden (t' t : State) : Prop :=
  ∃ pr, t' = t.withPR pr ∧ SamePoints pr t.blk.pr

/-- Two states that differ in their blocks alone, and there in hidden coordinates alone. -/
theorem State.SameButHidden.of_blk {t' : State} (hb : t'.blk.SameButHidden t.blk)
    (ht : t' = { t with blk := t'.blk }) : t'.SameButHidden t := by
  obtain ⟨pr, hpr, hs⟩ := hb
  exact ⟨pr, by rw [ht, hpr]; rfl, hs⟩

/-- Register files that differ in hidden coordinates alone give the same end, up to such coordinates. -/
theorem Executes.sameButHidden (he : Executes i s t) {pr : Vector PointReg 4}
    (h : SamePoints pr s.blk.pr) : ∃ t', Executes i (s.withPR pr) t' ∧ t'.SameButHidden t := by
  have hpt : ∀ j, (s.withPR pr).blk.point j = s.blk.point j := h.point_eq
  cases he with
  | pchk ra _ hph =>
    have he := Executes.pchk ra (s.withPR pr) hph
    rw [hpt] at he
    exact ⟨_, he, .of_blk (Block.finishCheck_sameButHidden h _) rfl⟩
  | padd rd ra rb _ hph =>
    have he := Executes.padd rd ra rb (s.withPR pr) hph
    rw [hpt, hpt] at he
    exact ⟨_, he, .of_blk (Block.finish_sameButHidden h rd _) rfl⟩
  | pdbl rd ra _ hph =>
    have he := Executes.pdbl rd ra (s.withPR pr) hph
    rw [hpt] at he
    exact ⟨_, he, .of_blk (Block.finish_sameButHidden h rd _) rfl⟩
  | early rd ra _ hph =>
    exact ⟨_, .early rd ra (s.withPR pr) hph, .of_blk (Block.finish_sameButHidden h rd (.ok .inf)) rfl⟩
  | add rd ra _ hph =>
    exact ⟨_, .add rd ra (s.withPR pr) hph, .of_blk (Block.afterAdd_sameButHidden h _) rfl⟩
  | dbl rd ra _ hph =>
    exact ⟨_, .dbl rd ra (s.withPR pr) hph, .of_blk (Block.afterDbl_sameButHidden h rd _) rfl⟩
  | madd x y m => exact ⟨_, .madd x y m (s.withPR pr), pr, rfl, h⟩
  | msub x y m => exact ⟨_, .msub x y m (s.withPR pr), pr, rfl, h⟩
  | mmul x y m => exact ⟨_, .mmul x y m (s.withPR pr), pr, rfl, h⟩
  | minv x m => exact ⟨_, .minv x m (s.withPR pr), pr, rfl, h⟩

/-- Settles O50: every end on the other register file is the same end up to hidden coordinates. -/
theorem hiddenCoordinatesHaveNoEffect : Obligations.HiddenCoordinatesHaveNoEffect := by
  intro i s t pr hpr h
  obtain ⟨_, he, pr', rfl, hpr'⟩ := (exec_inversion h).sameButHidden hpr
  exact ⟨pr', exec_of_executes he, hpr'⟩

end Sys2Proof.Machine
end

section
/-! PROOFS. One host access as a step: rejected, outside the window, a legal read, a legal write
(20_memory.md R62 to R67). -/

namespace Sys2Proof.Machine

variable {s : State} {addr n : Nat}

/-- The step that takes an access is the access, on the state with that input taken. -/
theorem step_withAccess (s : State) (a : Access) (rest : List Input) :
    step { s with inputs := .access a :: rest } = .next (State.hostAccess { s with inputs := rest } a) :=
  step_access rfl

theorem State.inWindow_iff :
    s.inWindow addr = true ↔ s.cfg.base ≤ addr ∧ addr < s.cfg.base + 0x800 := by
  simp [State.inWindow]

theorem legalAccess_iff : legalAccess addr n = true ↔ n = 4 ∧ addr % 4 = 0 := by
  simp [legalAccess]

/-- Settles O11: in the window, an access that is not legal is rejected. -/
theorem illegalAccessesAreRejected : Obligations.IllegalAccessesAreRejected := by
  intro s addr n v rest hr hlo hhi hill
  have hw : State.inWindow { s with inputs := rest } addr = true := State.inWindow_iff.2 ⟨hlo, hhi⟩
  have hl : legalAccess addr n = false := Bool.eq_false_iff.2 fun h => hill (legalAccess_iff.1 h)
  constructor
  · refine ⟨Config.illegalReadData s.freeIdx, s.freeIdx + 1, (step_withAccess s _ rest).trans (congrArg _ ?_)⟩
    exact hostAccess_illegal_read (s := { s with inputs := rest }) hr hw hl
  · refine (step_withAccess s _ rest).trans (congrArg _ ?_)
    exact hostAccess_illegal_write (s := { s with inputs := rest }) v hr hw hl

/-- Outside the window a read does not reach the block (20_memory.md R67). -/
theorem hostAccess_outside_read (hw : s.inWindow addr = false) :
    s.hostAccess (.read addr n) = { s with bus := none } := by
  simp [State.hostAccess, hw]

/-- Outside the window a write does not reach the block either (20_memory.md R67; log 11). -/
theorem hostAccess_outside_write (v : Word) (hw : s.inWindow addr = false) :
    s.hostAccess (.write addr n v) = { s with bus := none } := by
  simp [State.hostAccess, hw]

/-- Settles O12: what is placed below or above the window is not in it. -/
theorem accessesOutsideTheWindowDoNothing : Obligations.AccessesOutsideTheWindowDoNothing := by
  intro s addr n v rest hout
  have hw : State.inWindow { s with inputs := rest } addr = false := by
    refine Bool.eq_false_iff.2 fun h => ?_
    obtain ⟨hlo, hhi⟩ := State.inWindow_iff.1 h
    rcases hout with hb | ha
    · exact absurd hlo (Nat.not_le.2 hb)
    · exact absurd ha (Nat.not_le.2 hhi)
  constructor <;> refine (step_withAccess s _ rest).trans (congrArg _ ?_)
  · exact hostAccess_outside_read (s := { s with inputs := rest }) hw
  · exact hostAccess_outside_write (s := { s with inputs := rest }) v hw

/-- A step that takes a legal read answers the word at its offset and changes nothing else
(20_memory.md R62). -/
theorem step_withRead {s : State} {off : Nat} (rest : List Input) (hc : s.cfg.legal = true)
    (hr : s.rstN = true) (ha : off % 4 = 0) (ho : off < 0x800) :
    step (s.withRead off rest) =
      .next { s with inputs := rest, bus := some (.data (s.readOffset off)) } := by
  refine (step_withAccess s _ rest).trans (congrArg _ ?_)
  exact hostAccess_read (s := { s with inputs := rest }) hc hr ha ho

/-- A step that takes a legal write which is no soft reset writes to one location and changes nothing
else (20_memory.md R63). -/
theorem step_withWrite_writeLoc {s : State} {off : Nat} {v : Word} {loc : Loc} (rest : List Input)
    (hc : s.cfg.legal = true) (hr : s.rstN = true) (ha : off % 4 = 0) (ho : off < 0x800)
    (hloc : locate s.cfg off = loc) (hsrst : loc = .ctrl → v.getLsbD 1 = false) :
    step (s.withWrite off v rest) = .next (s.written (s.blk.writeLoc loc v) rest) := by
  subst hloc
  have hns : ¬ (locate s.cfg off = .ctrl ∧ v.getLsbD 1 = true) := fun ⟨hl, hv⟩ => by
    rw [hsrst hl] at hv
    cases hv
  rw [step_withWrite v rest hc hr ha ho]
  simp only [State.writeOffset, if_neg hns]
  rfl

end Sys2Proof.Machine
end

section
/-! PROOFS. What a read returns (20_memory.md R62, R65; 10_state.md R24, R26, R28, R30, R33). -/

namespace Sys2Proof.Machine

variable {s : State} {off : Nat}

theorem readsWideByFields : ReadsWideByFields :=
  fun _ => ⟨rfl, rfl, rfl, rfl, fun _ => ⟨rfl, rfl⟩⟩

theorem Block.busy_eq_decide (b : Block) : b.busy = decide (b.ph ≠ .idle) :=
  Bool.eq_iff_iff.2 (b.busy_eq_true_iff.trans decide_eq_true_iff.symm)

/-- The fields of ID are the two numbers of words and the version (10_state.md R33). -/
theorem idWord_toNat {c : Config} (hc : c.legal = true) :
    (idWord c).toNat = 0x10000 + 0x100 * c.nkw + c.nw := by
  simp only [Config.legal, decide_eq_true_eq] at hc
  have hk : c.nkw < 2 ^ 8 := by omega
  have hw : c.nw < 2 ^ 8 := by omega
  have hv : Config.version.toNat = 1 := rfl
  simp only [idWord, BitVec.toNat_append, BitVec.toNat_ofNat, Nat.mod_eq_of_lt hk, Nat.mod_eq_of_lt hw, hv]
  rw [← Nat.shiftLeft_add_eq_or_of_lt hk, ← Nat.shiftLeft_add_eq_or_of_lt hw]
  omega

/-- A word of a wide register reads as that word of it, and of K as 0 (10_state.md R28). -/
theorem Block.readLoc_wide (b : Block) (c : Config) (r : WideReg) (j : Nat) :
    b.readLoc c (.wide r j) = if r = .k then 0 else wordAt (b.getWide r) j := by
  cases r <;> rfl

/-- An aligned offset that names nothing is reserved (20_memory.md R67). -/
theorem locate_reserved {c : Config} (ha : off % 4 = 0)
    (hctl : off ∉ [0x000, 0x004, 0x008, 0x00C, 0x010]) (hwide : ¬ ∃ r j, NamesWide c off r j) :
    locate c off = .reserved := by
  rcases locate_cases c off ha with h | ⟨r, j, h, -⟩ | h
  · exact absurd h hctl
  · exact absurd ⟨r, j, h⟩ hwide
  · exact h

/-- Settles O9: the word read is the one at the offset, and each clause says what the offset names. -/
theorem readsFollowTheRegisterMap : Obligations.ReadsFollowTheRegisterMap := by
  refine ⟨readsWideByFields, by decide, fun s off rest hc hr ha ho => ?_⟩
  refine ⟨s.readOffset off, step_withRead rest hc hr ha ho, ?_, ?_, ?_, ?_, ?_, ?_, ?_⟩
  · rintro rfl; rfl
  · rintro rfl; rw [← Block.busy_eq_decide]; rfl
  · rintro rfl; rfl
  · rintro rfl; exact idWord_toNat hc
  · rintro rfl; rfl
  · intro r j hn
    rw [State.readOffset, hn.locate_eq hc, Block.readLoc_wide, wordAt]
  · intro hctl hwide
    rw [State.readOffset, locate_reserved ha hctl hwide, Block.readLoc]

/-- The byte at offset A + b is cut out of the word at A (20_memory.md R65). -/
theorem State.readByte_add (s : State) {b : Nat} (ha : off % 4 = 0) (hb : b < 4) :
    s.readByte (off + b) = (s.readOffset off).extractLsb' (8 * b) 8 := by
  have hword : 4 * ((off + b) / 4) = off := by omega
  have hbyte : (off + b) % 4 = b := by omega
  rw [State.readByte, hword, hbyte]

/-- Byte `b` of a word (20_memory.md R65). -/
theorem getElem?_bytesOfWord (w : Word) {b : Nat} (hb : b < 4) :
    (bytesOfWord w)[b]? = some (w.extractLsb' (8 * b) 8) := by
  match b with
  | 0 => rfl
  | 1 => rfl
  | 2 => rfl
  | 3 => rfl

/-- The bytes of a word, put together, are the word. -/
theorem wordOfBytes_bytes (w : Word) :
    wordOfBytes (w.extractLsb' 0 8) (w.extractLsb' 8 8) (w.extractLsb' 16 8) (w.extractLsb' 24 8) = w := by
  rw [wordOfBytes, BitVec.extractLsb'_append_extractLsb'_eq_extractLsb' (show 24 = 16 + 8 from rfl),
    BitVec.extractLsb'_append_extractLsb'_eq_extractLsb' (show 16 = 8 + 8 from rfl),
    BitVec.extractLsb'_append_extractLsb'_eq_extractLsb' (show 8 = 0 + 8 from rfl)]
  exact BitVec.extractLsb'_eq_self

/-- Settles O4: both views cut byte `b` out of the word at bit 8 b. -/
theorem bytesAreLittleEndian : Obligations.BytesAreLittleEndian := by
  refine ⟨fun s off b ha hb n hn => ?_, fun w => ⟨rfl, ?_, fun b hb => ?_⟩⟩
  · rw [s.readByte_add ha hb, BitVec.getLsbD_extractLsb', decide_eq_true hn, Bool.true_and]
  · exact congrArg decodeCommand (wordOfBytes_bytes w)
  · refine ⟨_, getElem?_bytesOfWord w hb, fun n hn => ?_⟩
    rw [BitVec.getLsbD_extractLsb', decide_eq_true hn, Bool.true_and]

end Sys2Proof.Machine
end

section
/-! PROOFS. What a legal write does (20_memory.md R63, R69; 10_state.md R26, R27, R30, R32). -/

namespace Sys2Proof.Machine

variable {s : State} {b : Block}

/-! ## Writes that a busy block blocks -/

theorem Block.unlessBusy_of_busy (f : Block → Block) (h : b.ph ≠ .idle) :
    b.unlessBusy f = { b with werr := true } :=
  if_pos (b.busy_eq_true_iff.2 h)

theorem Block.unlessBusy_of_idle (f : Block → Block) (h : b.ph = .idle) : b.unlessBusy f = f b :=
  if_neg (Bool.not_eq_true _ ▸ b.busy_eq_false_iff.2 h)

/-- The locations a busy block blocks (20_memory.md R69). -/
inductive Loc.Blocked : Loc → Prop where
  | cmd : Blocked .cmd
  | ptag : Blocked .ptag
  | wide (r : WideReg) (j : Nat) : Blocked (.wide r j)

theorem Block.writeLoc_of_busy {loc : Loc} (hl : loc.Blocked) (v : Word) (h : b.ph ≠ .idle) :
    b.writeLoc loc v = { b with werr := true } := by
  cases hl <;> rw [Block.writeLoc, Block.unlessBusy_of_busy _ h]

theorem Block.writeLoc_cmd_of_idle (v : Word) (h : b.ph = .idle) : b.writeLoc .cmd v = b.launch v :=
  Block.unlessBusy_of_idle (fun b => b.launch v) h

theorem Block.writeLoc_ptag_of_idle (v : Word) (h : b.ph = .idle) : b.writeLoc .ptag v = b.writePtag v :=
  Block.unlessBusy_of_idle (fun b => b.writePtag v) h

theorem Block.writeLoc_wide_of_idle (r : WideReg) (j : Nat) (v : Word) (h : b.ph = .idle) :
    b.writeLoc (.wide r j) v = b.setWide r (setWord (b.getWide r) j v) :=
  Block.unlessBusy_of_idle (fun b => b.setWide r (setWord (b.getWide r) j v)) h

/-! ## STATUS and PTAG -/

/-- The two flags a write to STATUS can clear (10_state.md R30). -/
theorem Block.writeStatus_eq (b : Block) (v : Word) :
    b.writeStatus v = { b with
      done := if v.getLsbD 1 then false else b.done
      werr := if v.getLsbD 3 then false else b.werr } := by
  unfold Block.writeStatus
  cases v.getLsbD 1 <;> cases v.getLsbD 3 <;> rfl

theorem Block.writePtag_pr (b : Block) (v : Word) (i : Reg) :
    (b.writePtag v).pr[i] = { b.pr[i] with inf := v.getLsbD i.val } := by
  simp [Block.writePtag]

/-! ## Wide registers -/

/-- A write replaces the 32 bits it names and no other (20_memory.md R63). -/
theorem replacesWord_setWord (old : Wide) {j : Nat} (v : Word) (hj : j < 32) :
    ReplacesWord old (setWord old j v) j v := by
  refine ⟨wordAt_setWord_self old v hj, fun n hn => ?_⟩
  by_cases hb : n < 1024
  · rw [getLsbD_setWord old j v n hb, if_neg (by omega)]
  · rw [BitVec.getLsbD_of_ge _ n (by omega), BitVec.getLsbD_of_ge _ n (by omega)]

/-- A replaced wide register leaves everything else of the block as it was (10_state.md R27). -/
theorem Block.holdsInstead_setWide (b : Block) (r : WideReg) (v : Wide) :
    b.HoldsInstead r v (b.setWide r v) where
  named := b.getWide_setWide_self r v
  others _ hq := b.getWide_setWide_ne v hq
  tags := b.setWide_inf r v
  rest := by cases r <;> rfl

theorem WideReg.offset_le (r : WideReg) : r.offset ≤ 0x600 := by
  cases r <;> simp only [WideReg.offset] <;> omega

/-- A write of one word of a wide register of an idle block. -/
theorem step_writeWord {r : WideReg} {j : Nat} (v : Word) (rest : List Input) (hc : s.cfg.legal = true)
    (hr : s.rstN = true) (hi : s.blk.ph = .idle) (hj : j < r.words s.cfg) :
    step (s.withWrite (r.offset + 4 * j) v rest) =
      .next (s.written (s.blk.setWide r (setWord (s.blk.getWide r) j v)) rest) := by
  have hw := r.words_le hc
  have ho := r.offset_le
  obtain ⟨-, hm, -⟩ := wideSlot_offset r
  rw [step_withWrite_writeLoc rest hc hr (by omega) (by omega) (locate_wide hc r hj) nofun,
    Block.writeLoc_wide_of_idle r j v hi]

/-! ## The register map -/

/-- A write to a blocked location of a busy block sets WERR and nothing else (20_memory.md R69). -/
theorem step_write_busy {off : Nat} {loc : Loc} (v : Word) (rest : List Input) (hc : s.cfg.legal = true)
    (hr : s.rstN = true) (ha : off % 4 = 0) (ho : off < 0x800) (hb : s.blk.ph ≠ .idle)
    (hloc : locate s.cfg off = loc) (hl : loc.Blocked) :
    step (s.withWrite off v rest) = .next (s.written { s.blk with werr := true } rest) := by
  rw [step_withWrite_writeLoc rest hc hr ha ho hloc (by rintro rfl; cases hl),
    Block.writeLoc_of_busy hl v hb]

/-- A write to ID, or where nothing is, changes nothing (10_state.md R33, 20_memory.md R67). -/
theorem step_write_elsewhere {off : Nat} (v : Word) (rest : List Input) (hc : s.cfg.legal = true)
    (hr : s.rstN = true) (ha : off % 4 = 0) (ho : off < 0x800)
    (hctl : off ∉ [0x000, 0x004, 0x008, 0x010]) (hwide : ¬ ∃ r j, NamesWide s.cfg off r j) :
    step (s.withWrite off v rest) = .next (s.written s.blk rest) := by
  by_cases hid : off = 0x00C
  · subst hid
    exact step_withWrite_writeLoc rest hc hr ha ho (locate_id _) nofun
  · have hctl' : off ∉ [0x000, 0x004, 0x008, 0x00C, 0x010] := by
      simp only [List.mem_cons, List.not_mem_nil, or_false, not_or] at hctl ⊢
      omega
    exact step_withWrite_writeLoc rest hc hr ha ho (locate_reserved ha hctl' hwide) nofun

/-- Settles O10: each offset names its location, and each kind of location has its lemma. -/
theorem writesFollowTheRegisterMap : Obligations.WritesFollowTheRegisterMap := by
  refine ⟨readsWideByFields, fun s off v rest hc hr ha ho => ?_⟩
  refine ⟨?srst, ?ctrl, ?status, ?busy, ?cmd, ?ptag, ?wide, ?elsewhere⟩
  case srst =>
    rintro rfl hv
    refine ⟨_, step_withWrite v rest hc hr ha ho, ?_⟩
    rw [writeOffset_srst _ hv]
    exact ⟨rfl, rfl⟩
  case ctrl =>
    rintro rfl hv
    exact step_withWrite_writeLoc rest hc hr ha ho (locate_ctrl _) fun _ => hv
  case status =>
    rintro rfl
    rw [step_withWrite_writeLoc rest hc hr ha ho (locate_status _) nofun, ← Block.writeStatus_eq]
    rfl
  case busy =>
    rintro hb (rfl | rfl | ⟨r, j, hn⟩)
    · exact step_write_busy v rest hc hr ha ho hb (locate_cmd _) .cmd
    · exact step_write_busy v rest hc hr ha ho hb (locate_ptag _) .ptag
    · exact step_write_busy v rest hc hr ha ho hb (hn.locate_eq hc) (.wide r j)
  case cmd =>
    rintro hi rfl
    rw [step_withWrite_writeLoc rest hc hr ha ho (locate_cmd _) nofun, Block.writeLoc_cmd_of_idle v hi]
  case ptag =>
    rintro hi rfl
    refine ⟨(s.blk.writePtag v).pr, s.blk.writePtag_pr v, ?_⟩
    rw [step_withWrite_writeLoc rest hc hr ha ho (locate_ptag _) nofun, Block.writeLoc_ptag_of_idle v hi]
    rfl
  case wide =>
    intro hi r j hn
    obtain ⟨rfl, hj⟩ := hn.eq
    exact ⟨_, _, replacesWord_setWord _ v (hj.trans_le (r.words_le hc)), s.blk.holdsInstead_setWide r _,
      step_writeWord v rest hc hr hi hj⟩
  case elsewhere => exact step_write_elsewhere v rest hc hr ha ho

end Sys2Proof.Machine
end

section
/-! PROOFS. Writing every word of a wide register (20_memory.md R66, 30_encoding.md R99). -/

namespace Sys2Proof.Machine

variable {s t : State}

/-! ## The value -/

/-- `v` with the words numbered in `l` replaced, in order, by those of `n`. -/
def loadWords (n : Wide) (l : List Nat) (v : Wide) : Wide := l.foldl (fun v j => setWord v j (wordAt n j)) v

theorem getLsbD_wordAt (n : Wide) (j : Nat) {i : Nat} (hi : i < 32) :
    (wordAt n j).getLsbD i = n.getLsbD (32 * j + i) := by
  rw [wordAt, BitVec.getLsbD_extractLsb', decide_eq_true hi, Bool.true_and]

/-- A bit is that of `n` where its word was replaced, and else as it was. -/
theorem getLsbD_loadWords (n : Wide) (l : List Nat) (v : Wide) {i : Nat} (hi : i < 1024) :
    (loadWords n l v).getLsbD i = if i / 32 ∈ l then n.getLsbD i else v.getLsbD i := by
  induction l generalizing v with
  | nil => simp [loadWords]
  | cons j l ih =>
    have hstep : loadWords n (j :: l) v = loadWords n l (setWord v j (wordAt n j)) := rfl
    rw [hstep, ih, getLsbD_setWord v j _ i hi]
    by_cases hl : i / 32 ∈ l
    · simp [hl]
    · by_cases hj : i / 32 = j
      · have hin : 32 * j ≤ i ∧ i < 32 * j + 32 := by omega
        have hbit : 32 * j + (i - 32 * j) = i := by omega
        rw [if_neg hl, if_pos hin, if_pos (by simp [hj]), getLsbD_wordAt n j (by omega), hbit]
      · have hout : ¬ (32 * j ≤ i ∧ i < 32 * j + 32) := by omega
        rw [if_neg hl, if_neg hout, if_neg (by simp [hl, hj])]

/-- With all its `k` words replaced a register of that width holds `n`. -/
theorem loadWords_range {n v : Wide} {k : Nat} (hn : n.toNat < 2 ^ (32 * k)) (hv : v.toNat < 2 ^ (32 * k)) :
    loadWords n (List.range k) v = n := by
  rw [lt_two_pow_iff_bits] at hn hv
  apply BitVec.eq_of_getLsbD_eq
  intro i hi
  rw [getLsbD_loadWords n _ v hi]
  by_cases hik : i / 32 < k
  · rw [if_pos (List.mem_range.2 hik)]
  · have hge : 32 * k ≤ i := by omega
    rw [if_neg (mt List.mem_range.1 hik), hn i hge, hv i hge]

/-! ## The run -/

theorem run_succ_of_step {k : Nat} (h : step s = .next t) :
    Host.Core.run Sys2Proof.core (k + 1) s = Host.Core.run Sys2Proof.core k t := by
  have hstep : Sys2Proof.core.step s = .next t := h
  simp only [Host.Core.run, hstep]

/-- The last write to a wide register decides. -/
theorem Block.setWide_setWide (b : Block) (r : WideReg) (u v : Wide) :
    (b.setWide r u).setWide r v = b.setWide r v := by
  cases r <;> simp [Block.setWide]

theorem Block.setWide_ph (b : Block) (r : WideReg) (v : Wide) : (b.setWide r v).ph = b.ph := by
  cases r <;> rfl

/-- The writes of the words numbered in `l`, at least one, leave them loaded and change nothing else. -/
theorem run_loadWords {r : WideReg} (n : Wide) (rest : List Input) {l : List Nat} (hne : l ≠ [])
    (hc : s.cfg.legal = true) (hr : s.rstN = true) (hi : s.blk.ph = .idle)
    (hl : ∀ j ∈ l, j < r.words s.cfg) :
    Host.Core.run Sys2Proof.core l.length
        { s with inputs := l.map (fun j => wr s.cfg (r.offset + 4 * j) (wordAt n j)) ++ rest } =
      .next (s.written (s.blk.setWide r (loadWords n l (s.blk.getWide r))) rest) := by
  induction l generalizing s with
  | nil => exact absurd rfl hne
  | cons j l ih =>
    have hfirst := step_writeWord (wordAt n j)
      (l.map (fun j => wr s.cfg (r.offset + 4 * j) (wordAt n j)) ++ rest) hc hr hi (hl j List.mem_cons_self)
    refine (run_succ_of_step hfirst).trans ?_
    by_cases hnil : l = []
    · subst hnil; rfl
    · refine (ih (s := s.written (s.blk.setWide r (setWord (s.blk.getWide r) j (wordAt n j))) []) hnil hc hr
        ((s.blk.setWide_ph r _).trans hi) fun j hj => hl j (List.mem_cons_of_mem _ hj)).trans ?_
      simp only [State.written, Block.setWide_setWide, Block.getWide_setWide_self]
      rfl

/-- Settles O13: the words are loaded one by one, and together they are the value. -/
theorem loadingEveryWordLoadsTheValue : Obligations.LoadingEveryWordLoadsTheValue := by
  refine ⟨readsWideByFields, fun s r n rest hs hr hi hn => ?_⟩
  refine ⟨s.blk.setWide r n, s.blk.holdsInstead_setWide r n, ?_⟩
  have hne : List.range (r.words s.cfg) ≠ [] :=
    mt List.range_eq_nil.1 (Nat.one_le_iff_ne_zero.1 (r.one_le_words hs.cfg))
  have hrun := run_loadWords (s := s) n rest hne hs.cfg hr hi fun j => List.mem_range.1
  have hold := (Block.fits_iff_getWide.1 hs.fits).1 r
  rwa [List.length_range, loadWords_range hn hold] at hrun

end Sys2Proof.Machine
end

section
/-! PROOFS. What the host sees of a block that stays busy (20_memory.md R69, R71). -/

namespace Sys2Proof.Machine

variable {s t : State} {b b' : Block} {i : Instr}

/-! ## Blocks that differ in DONE, WERR, CTRL and the hidden sequencer alone -/

/-- `b'` is `b` but for DONE, WERR, IE and what the host cannot see of the sequencer (10_state.md R34 to R36). -/
def Block.SameRegisters (b b' : Block) : Prop :=
  b' = { b with
    done := b'.done, werr := b'.werr, ie := b'.ie, ph := b'.ph, li := b'.li, lr0 := b'.lr0, lr1 := b'.lr1 }

theorem eq_of_locate_ctrl {c : Config} {off : Nat} (h : locate c off = .ctrl) : off = 0x008 := by
  unfold locate at h
  iterate 2 (split at h; · cases h)
  split at h; · assumption
  iterate 2 (split at h; · cases h)
  split at h
  · split at h <;> cases h
  · cases h

/-- Every word but STATUS and CTRL reads the same. -/
theorem Block.SameRegisters.readLoc_eq (h : b.SameRegisters b') {c : Config} {off : Nat}
    (hstatus : off ≠ 0x004) (hctrl : off ≠ 0x008) :
    b'.readLoc c (locate c off) = b.readLoc c (locate c off) := by
  rw [h]
  cases hl : locate c off with
  | status => exact absurd (eq_of_locate_status hl) hstatus
  | ctrl => exact absurd (eq_of_locate_ctrl hl) hctrl
  | wide r j => cases r <;> rfl
  | cmd => rfl
  | id => rfl
  | ptag => rfl
  | reserved => rfl

/-- Of two busy blocks every bit of STATUS but DONE and WERR reads the same (10_state.md R30). -/
theorem Block.SameRegisters.statusWord_bit (h : b.SameRegisters b') (hb : b'.busy = b.busy) {n : Nat}
    (h1 : n ≠ 1) (h3 : n ≠ 3) : b'.statusWord.getLsbD n = b.statusWord.getLsbD n := by
  have herr : b'.err = b.err := by rw [h]
  have honc : b'.onc = b.onc := by rw [h]
  simp only [Block.statusWord, BitVec.getLsbD_append, herr, honc, hb]
  split_ifs with g0 g1 g2 g3
  · rfl
  · omega
  · rfl
  · omega
  · rfl
  · rfl

/-! ## Steps of the block -/

/-- A completion ends BUSY (60_exceptions.md R226). -/
theorem Block.complete_not_busy (b : Block) (e : Err) : ¬ (b.complete e).busy = true :=
  Bool.false_ne_true

theorem Block.finish_not_busy (b : Block) (rd : Reg) (r : Result Point) : ¬ (b.finish rd r).busy = true := by
  cases r <;> exact Block.complete_not_busy _ _

theorem Block.finishCheck_not_busy (b : Block) (r : Result Bool) : ¬ (b.finishCheck r).busy = true := by
  cases r <;> exact Bool.false_ne_true

/-- An addition that does not end the ladder writes an accumulator (44_ladder.md R186). -/
theorem Block.afterAdd_sameRegisters (b : Block) (r : Result Point) (hb : (b.afterAdd r).busy = true) :
    b.SameRegisters (b.afterAdd r) := by
  cases r with
  | ok T => rw [Block.afterAdd_ok]; rfl
  | fault e => exact absurd hb (b.complete_not_busy e)

/-- A doubling that does not end the ladder writes an accumulator and LI (44_ladder.md R187). -/
theorem Block.afterDbl_sameRegisters (b : Block) (rd : Reg) (r : Result Point)
    (hb : (b.afterDbl rd r).busy = true) : b.SameRegisters (b.afterDbl rd r) := by
  cases r with
  | ok T =>
    rw [Block.afterDbl_ok] at hb ⊢
    split at hb
    · exact absurd hb (Block.complete_not_busy _ .none)
    · rename_i hli
      rw [if_neg hli]
      rfl
  | fault e => exact absurd hb (b.complete_not_busy e)

/-- An instruction that leaves the block busy is a sub-operation of a ladder that goes on, or the answer
to a request (60_exceptions.md R225, R226). -/
theorem Executes.sameRegisters_of_busy (h : Executes i s t) (hb : t.blk.busy = true) :
    s.blk.SameRegisters t.blk := by
  cases h with
  | pchk => exact absurd hb (Block.finishCheck_not_busy _ _)
  | padd => exact absurd hb (Block.finish_not_busy _ _ _)
  | pdbl => exact absurd hb (Block.finish_not_busy _ _ _)
  | early => exact absurd hb (Block.finish_not_busy _ _ _)
  | add => exact Block.afterAdd_sameRegisters _ _ hb
  | dbl => exact Block.afterDbl_sameRegisters _ _ _ hb
  | madd => rfl
  | msub => rfl
  | mmul => rfl
  | minv => rfl

/-! ## Host accesses -/

/-- A write to a busy block reaches STATUS and CTRL alone, and else sets WERR (20_memory.md R69). -/
theorem Block.writeLoc_sameRegisters (hb : b.ph ≠ .idle) (loc : Loc) (v : Word) :
    b.SameRegisters (b.writeLoc loc v) := by
  cases loc with
  | ctrl => rfl
  | status => rw [Block.writeLoc, Block.writeStatus_eq]; rfl
  | id => rfl
  | reserved => rfl
  | cmd => rw [Block.writeLoc_of_busy .cmd v hb]; rfl
  | ptag => rw [Block.writeLoc_of_busy .ptag v hb]; rfl
  | wide r j => rw [Block.writeLoc_of_busy (.wide r j) v hb]; rfl

/-- A host access that leaves a busy block busy is no soft reset. -/
theorem hostAccess_sameRegisters (a : Access) (hb : s.blk.busy = true) (ht : (s.hostAccess a).blk.busy = true) :
    s.blk.SameRegisters (s.hostAccess a).blk ∧ (s.hostAccess a).cfg = s.cfg := by
  rcases hostAccess_cases s a with ⟨o, n, e⟩ | ⟨-, e⟩ | ⟨-, off, v, e⟩ <;> rw [e] at ht ⊢
  · exact ⟨rfl, rfl⟩
  · cases ht
  · exact ⟨Block.writeLoc_sameRegisters (s.blk.busy_eq_true_iff.1 hb) _ v, rfl⟩

/-- Every step that leaves a busy block busy. -/
theorem step_sameRegisters (hb : s.blk.busy = true) (h : step s = .next t) (ht : t.blk.busy = true) :
    s.blk.SameRegisters t.blk ∧ t.cfg = s.cfg := by
  rcases step_inversion h with ⟨a, rest, -, rfl⟩ | ⟨rest, -, rfl⟩ | ⟨rest, -, rfl⟩ | ⟨rest, -, h⟩
  · exact hostAccess_sameRegisters a hb ht
  · cases ht
  · exact ⟨rfl, rfl⟩
  · rcases advance_inversion h with rfl | ⟨i, he, -⟩
    · exact ⟨rfl, rfl⟩
    · have hx := exec_inversion he
      exact ⟨hx.sameRegisters_of_busy ht, hx.keeps_interface.1⟩

/-- Settles O51, from the frame of such a step and what the reads depend on. -/
theorem hostViewIsStableWhileBusy : Obligations.HostViewIsStableWhileBusy := by
  intro s t _ hb h ht
  obtain ⟨hsame, hcfg⟩ := step_sameRegisters hb h ht
  refine ⟨fun off hstatus hctrl => ?_, fun n h1 h3 => hsame.statusWord_bit (ht.trans hb.symm) h1 h3⟩
  rw [State.readOffset, State.readOffset, hcfg]
  exact hsame.readLoc_eq hstatus hctrl

end Sys2Proof.Machine
end

section
/-! PROOFS. The two codings (30_encoding.md R91 to R100; 40_coprocessor_ops.md R115, R116): decode and
encode are inverse to each other, which words are illegal, and what writing one does. -/

namespace Sys2Proof.Machine

variable {w : Word} {o : BitVec 8} {rb ra rd : Reg} {r : Request} {i : Instr}

/-! ## A command word and its fields (30_encoding.md R91) -/

/-- OPC, bits 31:24, as a number. -/
def opcode (w : Word) : Nat := (w.extractLsb' 24 8).toNat

/-- The bits of no field, 23:10, 7:6 and 3:2, are zero. -/
def ReservedZero (w : Word) : Prop :=
  w.extractLsb' 10 14 = 0 ∧ w.extractLsb' 6 2 = 0 ∧ w.extractLsb' 2 2 = 0

theorem append_eq_append_iff {m n : Nat} {x x' : BitVec m} {y y' : BitVec n} :
    x ++ y = x' ++ y' ↔ x = x' ∧ y = y' := by
  refine ⟨fun h => ⟨?_, ?_⟩, fun ⟨hx, hy⟩ => by rw [hx, hy]⟩
  · simpa only [BitVec.extractLsb'_append_eq_left] using congrArg (BitVec.extractLsb' n m) h
  · simpa only [BitVec.extractLsb'_append_eq_right] using congrArg (BitVec.extractLsb' 0 n) h

theorem regBits_inj {i j : Reg} : regBits i = regBits j ↔ i = j :=
  ⟨congrArg BitVec.toFin, congrArg regBits⟩

theorem fieldRB_eq_zero_iff : fieldRB w = 0 ↔ w.extractLsb' 8 2 = 0 := regBits_inj.symm

theorem fieldRD_eq_zero_iff : fieldRD w = 0 ↔ w.extractLsb' 0 2 = 0 := regBits_inj.symm

/-- The fields and the reserved bits make up the word. -/
theorem append_fields (w : Word) :
    w.extractLsb' 24 8 ++ w.extractLsb' 10 14 ++ regBits (fieldRB w) ++ w.extractLsb' 6 2 ++
      regBits (fieldRA w) ++ w.extractLsb' 2 2 ++ regBits (fieldRD w) = w := by
  simp only [regBits, fieldRB, fieldRA, fieldRD, BitVec.ofFin_toFin,
    BitVec.extractLsb'_append_extractLsb'_eq_extractLsb', BitVec.extractLsb'_eq_self]

/-- A word is a command word exactly when its fields are the command's and its reserved bits are zero. -/
theorem commandWord_eq_iff : commandWord o rb ra rd = w ↔
    opcode w = o.toNat ∧ ReservedZero w ∧ fieldRB w = rb ∧ fieldRA w = ra ∧ fieldRD w = rd := by
  conv_lhs => rw [← append_fields w]
  refine append_eq_append_iff.trans ?_
  simp only [append_eq_append_iff, regBits_inj, ReservedZero, opcode, BitVec.toNat_inj]
  grind

/-! ## The masks of the decoder (30_encoding.md R93) -/

/-- The mask of a row: OPC, the reserved bits, and RB and RD where the command does not use them. -/
def rowMask (usesRB usesRD : Bool) : Word :=
  0xFF#8 ++ 0x3FFF#14 ++ (bif usesRB then 0#2 else 0b11#2) ++ 0b11#2 ++ 0#2 ++ 0b11#2 ++
    (bif usesRD then 0#2 else 0b11#2)

/-- A mask keeps the bits it covers. -/
theorem extract_masked (w : Word) {m : Word} {s n : Nat} (h : m.extractLsb' s n = BitVec.allOnes n) :
    (w &&& m).extractLsb' s n = w.extractLsb' s n := by
  rw [BitVec.extractLsb'_and, h, BitVec.and_allOnes]

theorem opcode_masked (w : Word) (b d : Bool) : opcode (w &&& rowMask b d) = opcode w :=
  congrArg BitVec.toNat (extract_masked w (by revert b d; decide))

theorem reservedZero_masked (w : Word) (b d : Bool) : ReservedZero (w &&& rowMask b d) ↔ ReservedZero w := by
  have covered (s n : Nat) (h : ∀ b d, (rowMask b d).extractLsb' s n = BitVec.allOnes n) :=
    extract_masked w (h b d)
  rw [ReservedZero, covered 10 14 (by decide), covered 6 2 (by decide), covered 2 2 (by decide), ReservedZero]

theorem fieldRB_masked (w : Word) (d : Bool) : fieldRB (w &&& rowMask false d) = fieldRB w :=
  congrArg BitVec.toFin (extract_masked w (by revert d; decide))

theorem fieldRD_masked (w : Word) (b : Bool) : fieldRD (w &&& rowMask b false) = fieldRD w :=
  congrArg BitVec.toFin (extract_masked w (by revert b; decide))

/-- A word that matches a row is the command word of those of its register fields that the row uses. -/
theorem commandWord_of_match (usesRB usesRD : Bool)
    (h : w &&& rowMask usesRB usesRD = commandWord o 0 0 0) :
    commandWord o (bif usesRB then fieldRB w else 0) (fieldRA w) (bif usesRD then fieldRD w else 0) = w := by
  obtain ⟨ho, hr, hb, -, hd⟩ := commandWord_eq_iff.1 h.symm
  rw [opcode_masked] at ho
  rw [reservedZero_masked] at hr
  refine commandWord_eq_iff.2 ⟨ho, hr, ?_, rfl, ?_⟩
  · cases usesRB with
    | true => rfl
    | false => rwa [fieldRB_masked] at hb
  · cases usesRD with
    | true => rfl
    | false => rwa [fieldRD_masked] at hd

/-! ## Decode and encode -/

theorem decode_encode (i : Instr) : decode (encode i) = .ok i := by
  cases i with
  | pchk ra => exact Laws.RoundTrip.pchk ra
  | padd rd ra rb => exact Laws.RoundTrip.padd rd ra rb
  | pdbl rd ra => exact Laws.RoundTrip.pdbl rd ra
  | ladder rd ra => exact Laws.RoundTrip.ladder rd ra
  | madd x y m => exact Laws.RoundTrip.madd x y m
  | msub x y m => exact Laws.RoundTrip.msub x y m
  | mmul x y m => exact Laws.RoundTrip.mmul x y m
  | minv x m => exact Laws.RoundTrip.minv x m

theorem encode_of_decodeCommand (h : decodeCommand w = .ok i) : encode i = .command w := by
  unfold decodeCommand at h
  split at h
  case isTrue hm => cases h; exact congrArg _ (commandWord_of_match false false hm)
  split at h
  case isTrue hm => cases h; exact congrArg _ (commandWord_of_match true true hm)
  split at h
  case isTrue hm => cases h; exact congrArg _ (commandWord_of_match false true hm)
  split at h
  case isTrue hm => cases h; exact congrArg _ (commandWord_of_match false true hm)
  cases h

theorem decodeCommand_eq_ok_iff : decodeCommand w = .ok i ↔ encode i = .command w := by
  refine ⟨encode_of_decodeCommand, fun h => ?_⟩
  have hd := decode_encode i
  rwa [h] at hd

/-- A request as the coprocessor reads it: MINV ignores y (40_coprocessor_ops.md R115). -/
def asRead (r : Request) : Request := { r with y := if r.op = 3 then 0 else r.y }

theorem decodeRequest_asRead (r : Request) : decodeRequest (asRead r) = decodeRequest r := by
  obtain ⟨op, x, y, m⟩ := r
  by_cases h : op = 3
  · subst h
    rfl
  · rw [asRead, if_neg h]

theorem encode_of_decodeRequest (h : decodeRequest r = .ok i) : encode i = .request (asRead r) := by
  obtain ⟨op, x, y, m⟩ := r
  rcases decodeRequest_cases ⟨op, x, y, m⟩ with ⟨ho, hd⟩ | ⟨ho, hd⟩ | ⟨ho, hd⟩ | ⟨ho, hd⟩ | ⟨-, hd⟩ <;>
    cases hd.symm.trans h <;> cases ho <;> rfl

theorem decodeRequest_eq_ok_iff : decodeRequest r = .ok i ↔ encode i = .request (asRead r) := by
  refine ⟨encode_of_decodeRequest, fun h => ?_⟩
  have hd := decode_encode i
  rw [h] at hd
  exact (decodeRequest_asRead r).symm.trans hd

/-- Settles O2: what a word or a request decodes to encodes as it, and every encoding decodes back. -/
theorem decodeIsTheInverseOfEncode : Obligations.DecodeIsTheInverseOfEncode :=
  ⟨fun _ _ => decodeCommand_eq_ok_iff, fun _ _ => decodeRequest_eq_ok_iff⟩

/-! ## The illegal words (30_encoding.md R95) -/

/-- The words that are commands, field by field. -/
def LegalFields (w : Word) : Prop :=
  ReservedZero w ∧
    (opcode w = 0x01 ∧ fieldRB w = 0 ∧ fieldRD w = 0 ∨ opcode w = 0x02 ∨
      (opcode w = 0x03 ∨ opcode w = 0x04) ∧ fieldRB w = 0)

theorem legalFields_of_encode (h : encode i = .command w) : LegalFields w := by
  cases i with
  | pchk ra =>
    obtain ⟨ho, hr, hb, -, hd⟩ := commandWord_eq_iff.1 (Encoded.command.inj h)
    exact ⟨hr, .inl ⟨ho, hb, hd⟩⟩
  | padd rd ra rb =>
    obtain ⟨ho, hr, -⟩ := commandWord_eq_iff.1 (Encoded.command.inj h)
    exact ⟨hr, .inr (.inl ho)⟩
  | pdbl rd ra =>
    obtain ⟨ho, hr, hb, -⟩ := commandWord_eq_iff.1 (Encoded.command.inj h)
    exact ⟨hr, .inr (.inr ⟨.inl ho, hb⟩)⟩
  | ladder rd ra =>
    obtain ⟨ho, hr, hb, -⟩ := commandWord_eq_iff.1 (Encoded.command.inj h)
    exact ⟨hr, .inr (.inr ⟨.inr ho, hb⟩)⟩
  | madd | msub | mmul | minv => cases h

theorem exists_encode_of_legalFields (h : LegalFields w) : ∃ i, encode i = .command w := by
  obtain ⟨hr, ⟨ho, hb, hd⟩ | ho | ⟨ho | ho, hb⟩⟩ := h
  · exact ⟨.pchk (fieldRA w), congrArg _ (commandWord_eq_iff.2 ⟨ho, hr, hb, rfl, hd⟩)⟩
  · exact ⟨.padd (fieldRD w) (fieldRA w) (fieldRB w),
      congrArg _ (commandWord_eq_iff.2 ⟨ho, hr, rfl, rfl, rfl⟩)⟩
  · exact ⟨.pdbl (fieldRD w) (fieldRA w), congrArg _ (commandWord_eq_iff.2 ⟨ho, hr, hb, rfl, rfl⟩)⟩
  · exact ⟨.ladder (fieldRD w) (fieldRA w), congrArg _ (commandWord_eq_iff.2 ⟨ho, hr, hb, rfl, rfl⟩)⟩

theorem exists_decodeCommand_iff : (∃ i, decodeCommand w = .ok i) ↔ LegalFields w := by
  simp only [decodeCommand_eq_ok_iff]
  exact ⟨fun ⟨_, h⟩ => legalFields_of_encode h, exists_encode_of_legalFields⟩

theorem decodeCommand_ok_or_illegal (w : Word) :
    (∃ i, decodeCommand w = .ok i) ∨ decodeCommand w = .reject .illegalCommand := by
  rcases decodeCommand_cases w with h | h | h | h | h
  case inr.inr.inr.inr => exact .inr h
  all_goals exact .inl ⟨_, h⟩

theorem decodeCommand_illegal_iff : decodeCommand w = .reject .illegalCommand ↔ ¬ LegalFields w := by
  rw [← exists_decodeCommand_iff]
  refine ⟨fun h ⟨i, hi⟩ => ?_, (decodeCommand_ok_or_illegal w).resolve_left⟩
  cases h.symm.trans hi

theorem not_legalFields_iff : ¬ LegalFields w ↔
    (opcode w < 0x01 ∨ 0x04 < opcode w) ∨
    w.extractLsb' 10 14 ≠ 0 ∨ w.extractLsb' 6 2 ≠ 0 ∨ w.extractLsb' 2 2 ≠ 0 ∨
    (opcode w = 0x01 ∧ (w.extractLsb' 0 2 ≠ 0 ∨ w.extractLsb' 8 2 ≠ 0)) ∨
    ((opcode w = 0x03 ∨ opcode w = 0x04) ∧ w.extractLsb' 8 2 ≠ 0) := by
  rw [LegalFields, ReservedZero, fieldRB_eq_zero_iff, fieldRD_eq_zero_iff]
  grind

/-- The launch of an illegal word completes at once (60_exceptions.md R224). -/
theorem Block.launch_of_illegal (b : Block) (h : decodeCommand w = .reject .illegalCommand) :
    b.launch w = { b with cmdr := w, err := .illegalCmd, done := true, onc := false } := by
  rw [Block.launch, h]
  rfl

/-- Settles O3: a word is illegal when it encodes no command; written to an idle block, it is launched
and rejected. -/
theorem illegalWordsFieldByField : Obligations.IllegalWordsFieldByField := by
  refine fun w => ⟨decodeCommand_illegal_iff.trans not_legalFields_iff, decodeCommand_ok_or_illegal w, ?_⟩
  intro s rest hc hr hi h
  rw [step_withWrite_writeLoc rest hc hr (by decide) (by decide) (locate_cmd _) nofun,
    Block.writeLoc_cmd_of_idle w hi, s.blk.launch_of_illegal h]

/-! ## The worked examples (30_encoding.md R100) -/

theorem decodes_and_encodes (h : encode i = .command w) :
    decodeCommand w = .ok i ∧ encode i = .command w :=
  ⟨decodeCommand_eq_ok_iff.2 h, h⟩

/-- Settles O1: each legal example is an encoding, so it decodes back; the illegal words are evaluated. -/
theorem workedEncodings : Obligations.WorkedEncodings :=
  ⟨decodes_and_encodes rfl, decodes_and_encodes rfl, decodes_and_encodes rfl, decodes_and_encodes rfl,
    decodes_and_encodes rfl, decodes_and_encodes rfl, decodes_and_encodes rfl, by decide⟩

end Sys2Proof.Machine
end

section
/-! PROOFS. The coprocessor's requests (40_coprocessor_ops.md R111 to R119): what each is answered,
which requests the engines send, and what a host access does to the command that sends them. -/

namespace Sys2Proof.Machine

variable {s t : State} {i : Instr} {a b p x y m : Wide} {P Q : Point}

/-! ## The answers (R112 to R115) -/

/-- A result below the modulus has W bits, so the answer channel carries it as it is (R116). -/
theorem trunc_of_lt_modulus {c : Config} {q : Request} {v : Wide} (hq : RequestOk c q)
    (hv : v.toNat < q.m.toNat) : Config.trunc c v = v := by
  obtain ⟨-, -, -, hm⟩ := requestOk_iff.1 hq
  rw [Config.trunc, Nat.mod_eq_of_lt (hv.trans hm), wide, BitVec.ofNat_toNat, BitVec.setWidth_eq]

theorem exec_madd (hi : (Instr.madd x y m).wf s.cfg = true) (hm : m ≠ 0) :
    exec (.madd x y m) s = .next (s.answer ⟨0, x, y, m⟩ (.ok (copAdd x y m))) := by
  have hq : RequestOk s.cfg ⟨0, x, y, m⟩ := ⟨(by decide : (0#3).toNat < 4), hi⟩
  rw [exec, execMadd, trunc_of_lt_modulus hq (copAdd_lt x y hm)]

theorem exec_msub (hi : (Instr.msub x y m).wf s.cfg = true) (hm : m ≠ 0) :
    exec (.msub x y m) s = .next (s.answer ⟨1, x, y, m⟩ (.ok (copSub x y m))) := by
  have hq : RequestOk s.cfg ⟨1, x, y, m⟩ := ⟨(by decide : (1#3).toNat < 4), hi⟩
  rw [exec, execMsub, trunc_of_lt_modulus hq (copSub_lt x y hm)]

theorem exec_mmul (hi : (Instr.mmul x y m).wf s.cfg = true) (hm : m ≠ 0) :
    exec (.mmul x y m) s = .next (s.answer ⟨2, x, y, m⟩ (.ok (copMul x y m))) := by
  have hq : RequestOk s.cfg ⟨2, x, y, m⟩ := ⟨(by decide : (2#3).toNat < 4), hi⟩
  rw [exec, execMmul, trunc_of_lt_modulus hq (copMul_lt x y hm)]

/-- Settles O18: the answer is the coprocessor's sum. -/
theorem maddAddsModulo : Obligations.MaddAddsModulo :=
  ⟨fun _ _ _ => rfl, fun x y m _ hi hm => ⟨copAdd x y m, copAdd_toNat x y hm, exec_madd hi hm⟩⟩

/-- Settles O19: the answer is the coprocessor's difference. -/
theorem msubSubtractsModulo : Obligations.MsubSubtractsModulo :=
  ⟨fun _ _ _ => rfl, fun x y m _ hi hm => ⟨copSub x y m, copSub_toNat x y hm, exec_msub hi hm⟩⟩

/-- Settles O20: the answer is the coprocessor's product. -/
theorem mmulMultipliesModulo : Obligations.MmulMultipliesModulo :=
  ⟨fun _ _ _ => rfl, fun x y m _ hi hm => ⟨copMul x y m, copMul_toNat x y hm, exec_mmul hi hm⟩⟩

theorem exec_minv_of_some {r : Wide} (hi : (Instr.minv x m).wf s.cfg = true) (hm : m ≠ 0)
    (hr : copInv x m = some r) : exec (.minv x m) s = .next (s.answer ⟨3, x, 0, m⟩ (.ok r)) := by
  rw [exec, execMinv, hr, invAnswer, trunc_of_lt_modulus (requestOk_minv hi) (copInv_some hm hr).1]

theorem exec_minv_of_none (hr : copInv x m = none) :
    exec (.minv x m) s = .next (s.answer ⟨3, x, 0, m⟩ .err) := by
  rw [exec, execMinv, hr, invAnswer]

/-- A number with no factor in common with the modulus has one inverse below it. -/
theorem inverse_unique {x m q r : Nat} (hg : Nat.gcd (x % m) m = 1) (hq : q < m) (hr : r < m)
    (h : x * q ≡ x * r [MOD m]) : q = r := by
  have hc : Nat.gcd m x = 1 := (Nat.gcd_rec m x).trans hg
  exact (Nat.ModEq.cancel_left_of_coprime hc h).eq_of_lt_of_lt hq hr

/-- Settles O21: the coprocessor has an inverse exactly where the gcd is 1, and there only one. -/
theorem minvInvertsOrRejects : Obligations.MinvInvertsOrRejects := by
  refine ⟨fun _ _ => rfl, fun _ _ _ => rfl, fun x m s hi hm => ⟨fun hg => ?_, fun hg => ?_⟩⟩
  · obtain ⟨r, hr⟩ := Option.ne_none_iff_exists'.1 fun h => (copInv_none_iff x hm).1 h hg
    obtain ⟨hlt, hinv⟩ := copInv_some hm hr
    exact ⟨r, hlt, hinv, fun q hq h => inverse_unique hg hq hlt (h.trans hinv.symm),
      exec_minv_of_some hi hm hr⟩
  · exact exec_minv_of_none ((copInv_none_iff x hm).2 hg)

/-- A request is answered at every modulus, with an answer the channel can carry, and nothing else of
the machine changes (R116, R117). -/
theorem exec_request_answers (s : State) (hi : ¬ IsCommand i) : ∃ r q, AnswerOk s.cfg r ∧
    encode i = .request q ∧ exec i s = .next (s.answer q r) := by
  cases i with
  | madd x y m => exact ⟨.ok _, _, trunc_lt s.cfg (copAdd x y m), rfl, rfl⟩
  | msub x y m => exact ⟨.ok _, _, trunc_lt s.cfg (copSub x y m), rfl, rfl⟩
  | mmul x y m => exact ⟨.ok _, _, trunc_lt s.cfg (copMul x y m), rfl, rfl⟩
  | minv x m => exact ⟨_, _, answerOk_invAnswer s.cfg (copInv x m), rfl, rfl⟩
  | pchk | padd | pdbl | ladder => exact absurd trivial hi

/-- Settles O22: modulus 0 is no exception. -/
theorem zeroModulusIsAnswered : Obligations.ZeroModulusIsAnswered := by
  intro x y s i hi
  refine exec_request_answers s fun hcmd => ?_
  simp only [List.mem_cons, List.not_mem_nil, or_false] at hi
  rcases hi with rfl | rfl | rfl | rfl <;> exact hcmd

/-! ## The requests of an engine step (R117, R118) -/

/-- A request as an engine sends it with the curve's modulus `p`: at `p`, which is not 0, with an opcode
0 to 3, and y = 0 for MINV (R111, R115, R116). -/
def EngineRequest (p : Wide) (q : Request) : Prop :=
  q.m = p ∧ q.m ≠ 0 ∧ q.op.toNat < 4 ∧ (q.op = 3 → q.y = 0)

/-- The validator asks only where some coordinate is below p (41_validator.md R133). -/
theorem onCurve_sends : ∀ q ∈ (onCurve a b p P).log, EngineRequest p q := by
  cases P with
  | inf => simp
  | aff x y =>
    by_cases h : x.toNat < p.toNat ∧ y.toNat < p.toNat
    · rw [onCurve_in h]
      simpa [EngineRequest] using ne_zero_of_lt h.1
    · simp [onCurve_out h]

/-- Requests sent after the validation of two operands. -/
theorem validations_append_sends {l : List Request} (h : ∀ q ∈ l, EngineRequest p q) :
    ∀ q ∈ (onCurve a b p P).log ++ ((onCurve a b p Q).log ++ l), EngineRequest p q :=
  List.forall_mem_append.2 ⟨onCurve_sends, List.forall_mem_append.2 ⟨onCurve_sends, h⟩⟩

theorem pAdd_sends : ∀ q ∈ (pAdd a b p P Q).log, EngineRequest p q := by
  by_cases hP : Valid a b p P
  case neg => rw [pAdd_invalid_left hP]; exact onCurve_sends
  by_cases hQ : Valid a b p Q
  case neg => rw [pAdd_invalid_right hP hQ]; exact List.forall_mem_append.2 ⟨onCurve_sends, onCurve_sends⟩
  match P, Q with
  | .inf, _ => rw [pAdd_inf_left hQ]; exact onCurve_sends
  | .aff _ _, .inf => rw [pAdd_inf_right hP]; exact onCurve_sends
  | .aff xP yP, .aff xQ yQ =>
    have hp : p ≠ 0 := ne_zero_of_lt hP.1
    by_cases heq : xP = xQ ∧ yP = yQ
    · obtain ⟨rfl, rfl⟩ := heq
      rw [pAdd_equal hP]
      exact List.forall_mem_append.2 ⟨onCurve_sends, onCurve_sends⟩
    by_cases hs : xP = xQ ∧ copAdd yP yQ p = 0
    · obtain ⟨rfl, hs⟩ := hs
      rw [pAdd_inverse hP hQ (fun e => heq ⟨rfl, e⟩) hs]
      exact validations_append_sends (by simpa [EngineRequest] using hp)
    cases hi : copInv (copSub xQ xP p) p with
    | none =>
      rw [pAdd_arith hP hQ heq hs hi]
      exact validations_append_sends (by simpa [EngineRequest] using hp)
    | some j =>
      rw [pAdd_chord hP hQ heq hs hi rfl rfl rfl]
      exact validations_append_sends (by simpa [EngineRequest] using hp)

theorem pDbl_sends : ∀ q ∈ (pDbl a b p P).log, EngineRequest p q := by
  by_cases hP : Valid a b p P
  case neg => rw [pDbl_invalid hP]; exact onCurve_sends
  cases P with
  | inf => simp
  | aff x y =>
    have hp : p ≠ 0 := ne_zero_of_lt hP.1
    by_cases hy : y = 0
    · rw [pDbl_vertical hP hy]; exact onCurve_sends
    cases hi : copInv (copAdd y y p) p with
    | none =>
      rw [pDbl_arith hP hy hi]
      exact List.forall_mem_append.2 ⟨onCurve_sends, by simpa [EngineRequest] using hp⟩
    | some j =>
      rw [pDbl_tangent hP hy hi rfl rfl rfl rfl]
      exact List.forall_mem_append.2 ⟨onCurve_sends, by simpa [EngineRequest] using hp⟩

/-- The requests a step of a command adds to the history. -/
theorem Executes.sends (h : Executes i s t) (hi : IsCommand i) :
    ∃ sent, t.reqLog = s.reqLog ++ sent ∧ ∀ q ∈ sent, EngineRequest s.blk.cp q := by
  cases h with
  | pchk => exact ⟨_, rfl, onCurve_sends⟩
  | padd => exact ⟨_, rfl, pAdd_sends⟩
  | pdbl => exact ⟨_, rfl, pDbl_sends⟩
  | early => exact ⟨[], rfl, by simp⟩
  | add => exact ⟨_, rfl, pAdd_sends⟩
  | dbl => exact ⟨_, rfl, pDbl_sends⟩
  | madd | msub | mmul | minv => exact hi.elim

/-- Settles O23, from the frame of the step and the requests of its engine. -/
theorem engineRequestsCarryTheModulus : Obligations.EngineRequestsCarryTheModulus := by
  intro i s t hi h
  have he := exec_inversion h
  exact ⟨he.keepsAllBut_dest.cp, he.sends hi⟩

/-! ## Host accesses to a busy block (R119) -/

/-- A read leaves all but its answer as it was (20_memory.md R62, R64). -/
theorem hostAccess_read_answers (s : State) (addr n : Nat) :
    ∃ o k, s.hostAccess (.read addr n) = { s with bus := o, freeIdx := k } := by
  simp only [State.hostAccess]
  split
  · exact ⟨none, s.freeIdx, rfl⟩
  split
  · exact ⟨_, s.freeIdx, rfl⟩
  · exact ⟨_, _, rfl⟩

/-- A write in the window that is no soft reset writes to the location at its offset (10_state.md R32). -/
theorem writeOffset_of_not_srst {addr : Nat} {v : Word} (hw : s.inWindow addr = true)
    (h : addr = s.cfg.base + 0x008 → v.getLsbD 1 = false) :
    s.writeOffset (addr - s.cfg.base) v =
      { s with blk := s.blk.writeLoc (locate s.cfg (addr - s.cfg.base)) v } := by
  refine if_neg fun ⟨hl, hv⟩ => ?_
  obtain ⟨hlo, -⟩ := State.inWindow_iff.1 hw
  have hoff : addr - s.cfg.base = 0x008 := eq_of_locate_ctrl hl
  rw [h (by omega)] at hv
  cases hv

/-- What a host access that is no soft reset can do: an answer alone, or one write to one location. -/
theorem hostAccess_cases_of_not_srst (acc : Access)
    (h : ∀ v, acc = .write (s.cfg.base + 0x008) 4 v → v.getLsbD 1 = false) :
    (∃ o k, s.hostAccess acc = { s with bus := o, freeIdx := k }) ∨
    (∃ loc v, s.hostAccess acc = { s with blk := s.blk.writeLoc loc v, bus := some .written }) := by
  cases acc with
  | read addr n => exact .inl (hostAccess_read_answers s addr n)
  | write addr n v =>
    simp only [State.hostAccess]
    split
    · exact .inl ⟨none, s.freeIdx, rfl⟩
    rename_i hin
    split
    · rename_i hl
      obtain ⟨rfl, -⟩ := legalAccess_iff.1 hl
      obtain ⟨-, hw⟩ : s.rstN = true ∧ s.inWindow addr = true := by simpa using hin
      exact .inr ⟨_, v, by rw [writeOffset_of_not_srst hw fun e => h v (by rw [e])]⟩
    · exact .inl ⟨_, s.freeIdx, rfl⟩

/-- A write to a busy block changes at most DONE, WERR and IE (20_memory.md R69). -/
theorem Block.writeLoc_flags_of_busy {b : Block} (hb : b.ph ≠ .idle) (loc : Loc) (v : Word) :
    ∃ d w e, b.writeLoc loc v = { b with done := d, werr := w, ie := e } := by
  cases loc with
  | ctrl => exact ⟨_, _, _, rfl⟩
  | status => exact ⟨_, _, _, b.writeStatus_eq v⟩
  | id => exact ⟨_, _, _, rfl⟩
  | reserved => exact ⟨_, _, _, rfl⟩
  | cmd => exact ⟨_, _, _, Block.writeLoc_of_busy .cmd v hb⟩
  | ptag => exact ⟨_, _, _, Block.writeLoc_of_busy .ptag v hb⟩
  | wide r j => exact ⟨_, _, _, Block.writeLoc_of_busy (.wide r j) v hb⟩

/-- Settles O52: such an access answers, or writes to a busy block. -/
theorem onlyAResetAbandonsACommand : Obligations.OnlyAResetAbandonsACommand := by
  intro s acc rest _ hb h
  refine ⟨_, step_withAccess s acc rest, ?_⟩
  rcases hostAccess_cases_of_not_srst (s := { s with inputs := rest }) acc h with
    ⟨o, n, e⟩ | ⟨loc, v, e⟩ <;> rw [e]
  · exact ⟨rfl, rfl⟩
  · obtain ⟨d, w, ie, e⟩ := Block.writeLoc_flags_of_busy (s.blk.busy_eq_true_iff.1 hb) loc v
    refine ⟨?_, rfl⟩
    simp only [e]

end Sys2Proof.Machine
end

section
/-! PROOFS. The validator and PCHK (41_validator.md): the requests the validator sends, and what its one
engine step leaves behind. -/

namespace Sys2Proof.Machine

variable {s : State} {a b p : Wide} {P : Point} {ra : Reg}

/-- The validator's requests are those of R134, whatever its answer. -/
theorem ops_onCurve : ops (onCurve a b p P).log = validatorOps p P := by
  cases P with
  | inf => rfl
  | aff x y =>
    by_cases h : x.toNat < p.toNat ∧ y.toNat < p.toNat
    · rw [onCurve_in h, validatorOps, if_pos h]
      rfl
    · rw [onCurve_out h, validatorOps, if_neg h]
      rfl

/-- Settles O25: the validator's requests, case by case on the point. -/
theorem validatorRequestSequence : Obligations.ValidatorRequestSequence := by
  intro a b p P
  cases P with
  | inf => exact ops_onCurve
  | aff x y => exact ops_onCurve

theorem readsPointsByFields : ReadsPointsByFields :=
  ⟨fun _ => rfl, fun _ _ => rfl⟩

theorem Block.finishCheck_ok_eq_completed (b : Block) (v : Bool) :
    b.finishCheck (.ok v) = b.completed b.pr v .none := rfl

/-- With the validator's answer `v`, PCHK in EXEC completes with ONC = `v` and the validator's requests
sent (R136). -/
theorem exec_pchk {v : Bool} (hph : s.blk.ph = .exec)
    (hv : (onCurve s.blk.ca s.blk.cb s.blk.cp (s.blk.point ra)).res = .ok v) :
    exec (.pchk ra) s = .next (s.engine (s.blk.completed s.blk.pr v .none)
      (onCurve s.blk.ca s.blk.cb s.blk.cp (s.blk.point ra)).log) := by
  rw [exec_of_executes (.pchk ra s hph), hv, Block.finishCheck_ok_eq_completed]

/-- Settles O24: the validator answers, its answer is the curve equation, and the step carries it to
ONC. -/
theorem pchkAnswersWhetherOnCurve : Obligations.PchkAnswersWhetherOnCurve := by
  refine ⟨readsPointsByFields, by decide, fun ra s hph => ?_⟩
  obtain ⟨v, hv, hiff⟩ := onCurve_answers s.blk.ca s.blk.cb s.blk.cp (s.blk.point ra)
  exact ⟨v, _, hiff, ops_onCurve, exec_pchk hph hv⟩

end Sys2Proof.Machine
end

section
/-! PROOFS. The addition engine and PADD (42_point_add.md): its answer in plain arithmetic, its requests
case by case, the prime modulus and the exchange of the operands. -/

namespace Sys2Proof.Machine

variable {a b p x y lam xR yR xP yP xQ yQ : Wide} {P Q : Point}

/-! ## Residues modulo CP -/

/-- An inverse the coprocessor answers is one among the residues (40_coprocessor_ops.md R115). -/
theorem copInv_cast {i : Wide} (hp : p ≠ 0) (h : copInv x p = some i) :
    (x.toNat : ZMod p.toNat) * i.toNat = 1 := by
  have hmod := congrArg (Nat.cast : Nat → ZMod p.toNat) (copInv_some hp h).2
  rwa [ZMod.natCast_mod, ZMod.natCast_mod, Nat.cast_mul, Nat.cast_one] at hmod

/-- A difference has no inverse exactly when it has a factor in common with the modulus. -/
theorem copInv_copSub_none_iff (hp : p ≠ 0) : copInv (copSub x y p) p = none ↔
    Int.gcd ((x.toNat : Int) - y.toNat) p.toNat ≠ 1 := by
  rw [copInv_none_iff _ hp, Nat.mod_eq_of_lt (copSub_lt x y hp), ← Int.gcd_natCast_natCast,
    copSub_toNat x y hp, Int.gcd_emod]

theorem copInv_copSub_none_comm (hp : p ≠ 0) :
    copInv (copSub x y p) p = none ↔ copInv (copSub y x p) p = none := by
  rw [copInv_copSub_none_iff hp, copInv_copSub_none_iff hp, ← Int.neg_sub, Int.neg_gcd]

theorem copAdd_comm (hp : p ≠ 0) : copAdd x y p = copAdd y x p := by
  rw [copAdd, copAdd, if_neg hp, if_neg hp, Nat.add_comm]

/-- A number below p is the remainder of every integer with its residue. -/
theorem toNat_eq_emod_of_cast {z : Int} (hx : x.toNat < p.toNat) (h : (x.toNat : ZMod p.toNat) = z) :
    (x.toNat : Int) = z % p.toNat := by
  have hmod := (ZMod.intCast_eq_intCast_iff' x.toNat z p.toNat).1 (by rwa [Int.cast_natCast])
  rwa [Int.emod_eq_of_lt (Int.natCast_nonneg _) (Int.ofNat_lt.2 hx)] at hmod

/-! ## The chord (R145) -/

/-- `lam` is a slope of the chord through (xP, yP) and (xQ, yQ) modulo p, and (xR, yR) the reduced point
it gives (R145). -/
structure Chord (p xP yP xQ yQ lam xR yR : Wide) : Prop where
  x_lt  : xR.toNat < p.toNat
  y_lt  : yR.toNat < p.toNat
  slope : (lam.toNat : ZMod p.toNat) * (xQ.toNat - xP.toNat) = yQ.toNat - yP.toNat
  x_eq  : (xR.toNat : ZMod p.toNat) = lam.toNat ^ 2 - xP.toNat - xQ.toNat
  y_eq  : (yR.toNat : ZMod p.toNat) = lam.toNat * (xP.toNat - xR.toNat) - yP.toNat

/-- The chord does not depend on which point comes first (R151). -/
theorem Chord.swap (h : Chord p xP yP xQ yQ lam xR yR) : Chord p xQ yQ xP yP lam xR yR where
  x_lt := h.x_lt
  y_lt := h.y_lt
  slope := by linear_combination -h.slope
  x_eq := by linear_combination h.x_eq
  y_eq := by linear_combination h.y_eq - h.slope

/-- Where the x difference has an inverse, the chord gives one point. -/
theorem Chord.point_unique {i lam' xR' yR' : Wide} (hp : p ≠ 0)
    (hi : copInv (copSub xQ xP p) p = some i) (h : Chord p xP yP xQ yQ lam xR yR)
    (h' : Chord p xP yP xQ yQ lam' xR' yR') : xR = xR' ∧ yR = yR' := by
  have hinv := copInv_cast hp hi
  rw [copSub_cast _ _ hp] at hinv
  have hlam : (lam.toNat : ZMod p.toNat) = lam'.toNat := by
    linear_combination (i.toNat : ZMod p.toNat) * (h.slope - h'.slope) -
      (lam.toNat - lam'.toNat : ZMod p.toNat) * hinv
  have hx : xR = xR' := eq_of_cast_eq h.x_lt h'.x_lt (by rw [h.x_eq, h'.x_eq, hlam])
  exact ⟨hx, eq_of_cast_eq h.y_lt h'.y_lt (by rw [h.y_eq, h'.y_eq, hlam, hx])⟩

/-- Where the x difference has an inverse, PAdd answers the chord's point. -/
theorem pAdd_res_chord {i : Wide} (hP : Valid a b p (.aff xP yP)) (hQ : Valid a b p (.aff xQ yQ))
    (hne : ¬ (xP = xQ ∧ yP = yQ)) (hs : ¬ (xP = xQ ∧ copAdd yP yQ p = 0))
    (hi : copInv (copSub xQ xP p) p = some i) :
    ∃ lam xR yR, (pAdd a b p (.aff xP yP) (.aff xQ yQ)).res = .ok (.aff xR yR) ∧
      Chord p xP yP xQ yQ lam xR yR := by
  have hp := ne_zero_of_lt hP.1
  have hinv := copInv_cast hp hi
  rw [copSub_cast _ _ hp] at hinv
  refine ⟨copMul (copSub yQ yP p) i p, _, _, by rw [pAdd_chord hP hQ hne hs hi rfl rfl rfl],
    copSub_lt _ _ hp, copSub_lt _ _ hp, ?_, ?_, ?_⟩
  · rw [copMul_cast _ _ hp, copSub_cast _ _ hp]
    linear_combination (yQ.toNat - yP.toNat : ZMod p.toNat) * hinv
  · rw [copSub_cast _ _ hp, copSub_cast _ _ hp, copMul_cast _ _ hp, pow_two]
  · rw [copSub_cast _ _ hp, copMul_cast _ _ hp, copSub_cast _ _ hp]

/-! ## The answer (R141 to R146) -/

theorem pAdd_res_invalid (h : ¬ (Valid a b p P ∧ Valid a b p Q)) :
    (pAdd a b p P Q).res = .fault .invalidPoint := by
  by_cases hP : Valid a b p P
  · rw [pAdd_invalid_right hP fun hQ => h ⟨hP, hQ⟩]
  · rw [pAdd_invalid_left hP]

/-- PAdd answers as the addition law in plain arithmetic does. -/
theorem pAdd_answers : AddAnswers a b p P Q (pAdd a b p P Q).res := by
  refine ⟨pAdd_res_invalid, fun ⟨hP, hQ⟩ => ?_⟩
  match P, Q with
  | .inf, Q => exact congrArg Run.res (pAdd_inf_left hQ)
  | .aff _ _, .inf => exact congrArg Run.res (pAdd_inf_right hP)
  | .aff xP yP, .aff xQ yQ =>
    have hp := ne_zero_of_lt hP.1
    simp only [← copAdd_eq_zero_iff hp, ← copInv_copSub_none_iff hp]
    split_ifs with heq hs hi
    · obtain ⟨rfl, rfl⟩ := heq
      rw [pAdd_equal hP]
    · obtain ⟨rfl, hs⟩ := hs
      rw [pAdd_inverse hP hQ (fun e => heq ⟨rfl, e⟩) hs]
    · rw [pAdd_arith hP hQ heq hs hi]
    · obtain ⟨i, hi⟩ := Option.ne_none_iff_exists'.1 hi
      obtain ⟨lam, xR, yR, hres, hc⟩ := pAdd_res_chord hP hQ heq hs hi
      refine ⟨lam.toNat, xR, yR, hres, ?_, toNat_eq_emod_of_cast hc.x_lt ?_,
        toNat_eq_emod_of_cast hc.y_lt ?_⟩
      · rw [← ZMod.intCast_eq_intCast_iff']
        exact_mod_cast hc.slope
      · exact_mod_cast hc.x_eq
      · exact_mod_cast hc.y_eq

theorem Block.finish_eq_completedWith (b : Block) (rd : Reg) (r : Result Point) :
    b.finish rd r = b.completedWith rd r := by
  match r with
  | .ok .inf | .ok (.aff _ _) | .fault _ => rfl

/-- Settles O26: the step finishes with PAdd's result, which is the addition law's. -/
theorem paddAddsPoints : Obligations.PaddAddsPoints := by
  refine ⟨readsPointsByFields, by decide, fun rd ra rb s hph => ⟨_, pAdd_answers, ?_⟩⟩
  rw [exec_of_executes (.padd rd ra rb s hph), Block.finish_eq_completedWith]
  rfl

/-! ## The requests (R147) -/

theorem ops_append (l m : List Request) : ops (l ++ m) = ops l ++ ops m := List.map_append

theorem validatorOps_of_valid (h : Valid a b p (.aff x y)) :
    validatorOps p (.aff x y) = [2, 2, 2, 2, 0, 0] :=
  if_pos ⟨h.1, h.2.1⟩

/-- Two affine points of the curve are validated by six requests each, before any other. -/
theorem ops_validations_append (hP : Valid a b p (.aff xP yP)) (hQ : Valid a b p (.aff xQ yQ))
    (l : List Request) :
    ops ((onCurve a b p (.aff xP yP)).log ++ ((onCurve a b p (.aff xQ yQ)).log ++ l)) =
      [2, 2, 2, 2, 0, 0, 2, 2, 2, 2, 0, 0] ++ ops l := by
  rw [ops_append, ops_append, ops_onCurve, ops_onCurve, validatorOps_of_valid hP, validatorOps_of_valid hQ]
  rfl

/-- Settles O27: the validator's requests, and after them those of the case. -/
theorem paddRequestSequences : Obligations.PaddRequestSequences := by
  refine fun a b p P Q => ⟨fun hP => ?_, fun hP hQ => ?_, fun hP hQ hinf => ?_,
    fun xP yP xQ yQ eP eQ hP hQ => ?_⟩
  · rw [pAdd_invalid_left hP, ops_onCurve]
  · rw [pAdd_invalid_right hP hQ, ops_append, ops_onCurve, ops_onCurve]
  · obtain rfl | rfl := hinf
    · rw [pAdd_inf_left hQ, ops_onCurve]
      rfl
    · rw [pAdd_inf_right hP, ops_onCurve]
      exact (List.append_nil _).symm
  subst eP eQ
  have hp := ne_zero_of_lt hP.1
  have hne_iff : Point.aff xP yP ≠ .aff xQ yQ ↔ ¬ (xP = xQ ∧ yP = yQ) := by rw [Ne, Point.aff.injEq]
  simp only [hne_iff, ← copAdd_eq_zero_iff hp]
  refine ⟨fun e => ?_, fun hne hx hs => ?_, fun hne hs => ⟨fun hg => ?_, fun hg => ?_⟩⟩
  · cases e
    rw [pAdd_equal hP, ops_append, ops_onCurve, validatorOps_of_valid hP]
    rfl
  · subst hx
    rw [pAdd_inverse hP hQ (fun e => hne ⟨rfl, e⟩) hs, ops_validations_append hP hQ]
    rfl
  · obtain ⟨i, hi⟩ := Option.ne_none_iff_exists'.1 fun h => (copInv_copSub_none_iff hp).1 h hg
    rw [pAdd_chord hP hQ hne hs hi rfl rfl rfl, ops_validations_append hP hQ]
    rfl
  · rw [pAdd_arith hP hQ hne hs ((copInv_copSub_none_iff hp).2 hg), ops_validations_append hP hQ]
    rfl

/-! ## A prime modulus (R148) -/

/-- Modulo a prime two points of the curve with the same x are equal or an inverse pair: the difference of
their equations is the product of y's difference and y's sum. -/
theorem inverse_of_same_x (hprime : p.toNat.Prime) (hP : Valid a b p (.aff x yP))
    (hQ : Valid a b p (.aff x yQ)) (hne : yP ≠ yQ) : (yP.toNat + yQ.toNat) % p.toNat = 0 := by
  have := Fact.mk hprime
  obtain ⟨-, hyP, eP⟩ := hP
  obtain ⟨-, hyQ, eQ⟩ := hQ
  have hsq := (ZMod.natCast_eq_natCast_iff' _ _ _).2 (eP.trans eQ.symm)
  push_cast at hsq
  have hmul : ((yP.toNat : ZMod p.toNat) - yQ.toNat) * (yP.toNat + yQ.toNat) = 0 := by
    linear_combination hsq
  rcases mul_eq_zero.1 hmul with h | h
  · exact absurd (eq_of_cast_eq hyP hyQ (sub_eq_zero.1 h)) hne
  · exact Nat.mod_eq_zero_of_dvd ((ZMod.natCast_eq_zero_iff _ _).1 (by rwa [Nat.cast_add]))

/-- Settles O28: the x differ, so modulo a prime their difference has an inverse. -/
theorem paddSucceedsForPrimeModulus : Obligations.PaddSucceedsForPrimeModulus := by
  intro a b p xP yP xQ yQ hprime hP hQ hne hs
  have := Fact.mk hprime
  have hp := ne_zero_of_lt hP.1
  have hx : xP ≠ xQ := by
    rintro rfl
    exact hs ⟨rfl, inverse_of_same_x hprime hP hQ fun e => hne ⟨rfl, e⟩⟩
  obtain ⟨i, hi, -⟩ := copInv_of_prime (x := copSub xQ xP p) hp (by
    rw [copSub_cast _ _ hp, sub_ne_zero]
    exact fun e => hx (eq_of_cast_eq hQ.1 hP.1 e).symm)
  obtain ⟨lam, xR, yR, hres, -⟩ := pAdd_res_chord hP hQ hne (fun h => hx h.1) hi
  exact ⟨hx, _, hres⟩

/-! ## The operands exchanged (R151) -/

/-- Two affine points of the curve have the same sum in either order. -/
theorem pAdd_res_comm_affine (hP : Valid a b p (.aff xP yP)) (hQ : Valid a b p (.aff xQ yQ)) :
    (pAdd a b p (.aff xP yP) (.aff xQ yQ)).res = (pAdd a b p (.aff xQ yQ) (.aff xP yP)).res := by
  have hp := ne_zero_of_lt hP.1
  by_cases heq : xP = xQ ∧ yP = yQ
  · obtain ⟨rfl, rfl⟩ := heq
    rfl
  have heq' : ¬ (xQ = xP ∧ yQ = yP) := fun h => heq ⟨h.1.symm, h.2.symm⟩
  by_cases hs : xP = xQ ∧ copAdd yP yQ p = 0
  · obtain ⟨rfl, hs⟩ := hs
    have hne : yP ≠ yQ := fun e => heq ⟨rfl, e⟩
    rw [pAdd_inverse hP hQ hne hs, pAdd_inverse hQ hP hne.symm ((copAdd_comm hp).trans hs)]
  have hs' : ¬ (xQ = xP ∧ copAdd yQ yP p = 0) := fun h => hs ⟨h.1.symm, (copAdd_comm hp).trans h.2⟩
  cases hi : copInv (copSub xQ xP p) p with
  | none =>
    rw [pAdd_arith hP hQ heq hs hi, pAdd_arith hQ hP heq' hs' ((copInv_copSub_none_comm hp).1 hi)]
  | some i =>
    obtain ⟨j, hj⟩ := Option.ne_none_iff_exists'.1
      (mt (copInv_copSub_none_comm hp).1 (Option.ne_none_iff_exists'.2 ⟨i, hi⟩))
    obtain ⟨lam, xR, yR, hres, hc⟩ := pAdd_res_chord hP hQ heq hs hi
    obtain ⟨lam', xR', yR', hres', hc'⟩ := pAdd_res_chord hQ hP heq' hs' hj
    obtain ⟨rfl, rfl⟩ := hc.point_unique hp hi hc'.swap
    rw [hres, hres']

/-- Settles O29: either order fails validation, has the identity as an operand, or adds two affine
points. -/
theorem paddIsCommutative : Obligations.PaddIsCommutative := by
  intro a b p P Q
  by_cases h : Valid a b p P ∧ Valid a b p Q
  case neg => rw [pAdd_res_invalid h, pAdd_res_invalid fun h' => h h'.symm]
  obtain ⟨hP, hQ⟩ := h
  match P, Q with
  | .inf, Q => rw [pAdd_inf_left hQ, pAdd_inf_right hQ]
  | .aff _ _, .inf => rw [pAdd_inf_right hP, pAdd_inf_left hP]
  | .aff _ _, .aff _ _ => exact pAdd_res_comm_affine hP hQ

end Sys2Proof.Machine
end

section
/-! PROOFS. The doubling engine and PDBL (43_point_double.md): its answer in plain arithmetic, its requests
case by case, and an odd prime modulus. -/

namespace Sys2Proof.Machine

variable {a b p x y lam xR yR : Wide} {P : Point}

/-- 2y has no inverse exactly when it has a factor in common with the modulus (R167). -/
theorem copInv_copAdd_self_none_iff (hp : p ≠ 0) :
    copInv (copAdd y y p) p = none ↔ Nat.gcd (2 * y.toNat) p.toNat ≠ 1 := by
  rw [copInv_none_iff _ hp, copAdd_toNat _ _ hp, Nat.mod_mod, ← two_mul, ← Nat.gcd_rec,
    Nat.gcd_comm]

/-! ## The tangent (R164) -/

/-- `lam` is a slope of the tangent at (x, y) modulo p, and (xR, yR) the reduced point it gives (R164). -/
structure Tangent (a p x y lam xR yR : Wide) : Prop where
  x_lt  : xR.toNat < p.toNat
  y_lt  : yR.toNat < p.toNat
  slope : (lam.toNat : ZMod p.toNat) * (2 * y.toNat) = 3 * x.toNat ^ 2 + a.toNat
  x_eq  : (xR.toNat : ZMod p.toNat) = lam.toNat ^ 2 - 2 * x.toNat
  y_eq  : (yR.toNat : ZMod p.toNat) = lam.toNat * (x.toNat - xR.toNat) - y.toNat

/-- The slope's numerator as PDbl forms it: x² added three times, then CA (R164). -/
def tangentNum (a p x : Wide) : Wide :=
  copAdd (copAdd (copAdd (copMul x x p) (copMul x x p) p) (copMul x x p) p) a p

theorem tangentNum_cast (hp : p ≠ 0) :
    ((tangentNum a p x).toNat : ZMod p.toNat) = 3 * x.toNat ^ 2 + a.toNat := by
  rw [tangentNum, copAdd_cast _ _ hp, copAdd_cast _ _ hp, copAdd_cast _ _ hp, copMul_cast _ _ hp]
  ring

/-- Where 2y has an inverse, PDbl answers the tangent's point. -/
theorem pDbl_res_tangent {i : Wide} (h : Valid a b p (.aff x y)) (hy : y ≠ 0)
    (hi : copInv (copAdd y y p) p = some i) :
    ∃ lam xR yR, (pDbl a b p (.aff x y)).res = .ok (.aff xR yR) ∧ Tangent a p x y lam xR yR := by
  have hp := ne_zero_of_lt h.1
  have hinv := copInv_cast hp hi
  rw [copAdd_cast _ _ hp] at hinv
  refine ⟨copMul (tangentNum a p x) i p, _, _,
    by rw [pDbl_tangent (num := tangentNum a p x) h hy hi rfl rfl rfl rfl],
    copSub_lt _ _ hp, copSub_lt _ _ hp, ?_, ?_, ?_⟩
  · rw [copMul_cast _ _ hp, tangentNum_cast hp]
    linear_combination (3 * x.toNat ^ 2 + a.toNat : ZMod p.toNat) * hinv
  · rw [copSub_cast _ _ hp, copSub_cast _ _ hp, copMul_cast _ _ hp]
    ring
  · rw [copSub_cast _ _ hp, copMul_cast _ _ hp, copSub_cast _ _ hp]

/-! ## The answer (R161 to R166) -/

/-- PDbl answers as the tangent law in plain arithmetic does. -/
theorem pDbl_answers : DoubleAnswers a b p P (pDbl a b p P).res := by
  refine ⟨fun h => by rw [pDbl_invalid h], fun h => ?_⟩
  match P with
  | .inf => rfl
  | .aff x y =>
    simp only [← copInv_copAdd_self_none_iff (ne_zero_of_lt h.1)]
    split_ifs with hy hi
    · rw [pDbl_vertical h hy]
    · rw [pDbl_arith h hy hi]
    · obtain ⟨i, hi⟩ := Option.ne_none_iff_exists'.1 hi
      obtain ⟨lam, xR, yR, hres, ht⟩ := pDbl_res_tangent h hy hi
      refine ⟨lam.toNat, xR, yR, hres, ?_, toNat_eq_emod_of_cast ht.x_lt ?_,
        toNat_eq_emod_of_cast ht.y_lt ?_⟩
      · rw [← ZMod.intCast_eq_intCast_iff']
        exact_mod_cast ht.slope
      · exact_mod_cast ht.x_eq
      · exact_mod_cast ht.y_eq

/-- For y = 0 nothing is sent after the validator's requests, on the curve or off it (R163). -/
theorem ops_pDbl_y_zero : ops (pDbl a b p (.aff x 0)).log = validatorOps p (.aff x 0) := by
  by_cases h : Valid a b p (.aff x 0)
  · rw [pDbl_vertical h rfl, ops_onCurve]
  · rw [pDbl_invalid h, ops_onCurve]

/-- Settles O30: the step finishes with PDbl's result, which is the tangent law's. -/
theorem pdblDoublesAPoint : Obligations.PdblDoublesAPoint := by
  refine ⟨readsPointsByFields, by decide, fun rd ra s hph => ⟨_, _, pDbl_answers, rfl,
    fun e => by rw [e, pDbl_inf, Run.ret_log], fun x e => by rw [e, ops_pDbl_y_zero], ?_⟩⟩
  rw [exec_of_executes (.pdbl rd ra s hph), Block.finish_eq_completedWith]
  rfl

/-! ## The requests (R168) -/

/-- An affine point of the curve is validated by six requests, before any other. -/
theorem ops_validation_append (h : Valid a b p (.aff x y)) (l : List Request) :
    ops ((onCurve a b p (.aff x y)).log ++ l) = [2, 2, 2, 2, 0, 0] ++ ops l := by
  rw [ops_append, ops_onCurve, validatorOps_of_valid h]

/-- Settles O31: the validator's requests, and after them those of the case. -/
theorem pdblRequestSequences : Obligations.PdblRequestSequences := by
  refine fun a b p P => ⟨fun e => by rw [e, pDbl_inf, Run.ret_log],
    fun h => by rw [pDbl_invalid h, ops_onCurve], fun x y e h => ?_⟩
  subst e
  have hnone := copInv_copAdd_self_none_iff (y := y) (ne_zero_of_lt h.1)
  refine ⟨fun hy => ?_, fun hy hg => ?_, fun hy hg => ?_⟩
  · rw [pDbl_vertical h hy, ops_onCurve, validatorOps_of_valid h]
  · obtain ⟨i, hi⟩ := Option.ne_none_iff_exists'.1 fun hi => hnone.1 hi hg
    rw [pDbl_tangent h hy hi rfl rfl rfl rfl, ops_validation_append h]
    rfl
  · rw [pDbl_arith h hy (hnone.2 hg), ops_validation_append h]
    rfl

/-! ## An odd prime modulus (R165) -/

/-- An odd prime has no factor in common with the double of a nonzero number below it. -/
theorem gcd_two_mul_eq_one (hprime : p.toNat.Prime) (h2 : p.toNat ≠ 2) (hlt : y.toNat < p.toNat)
    (hy : y ≠ 0) : Nat.gcd (2 * y.toNat) p.toNat = 1 := by
  have hpos : y.toNat ≠ 0 := fun e => hy (BitVec.eq_of_toNat_eq (e.trans wide_zero_toNat.symm))
  exact Nat.Coprime.mul_left ((Nat.coprime_primes Nat.prime_two hprime).2 h2.symm)
    (Nat.coprime_of_lt_prime hpos hlt hprime).symm

/-- Modulo an odd prime 2y has an inverse, so a valid affine point with y not 0 doubles. -/
theorem pDbl_ok_of_odd_prime (hprime : p.toNat.Prime) (h2 : p.toNat ≠ 2) (h : Valid a b p (.aff x y))
    (hy : y ≠ 0) : ∃ R, (pDbl a b p (.aff x y)).res = .ok R := by
  have hlt : y.toNat < p.toNat := h.2.1
  obtain ⟨i, hi⟩ := Option.ne_none_iff_exists'.1 fun hi =>
    (copInv_copAdd_self_none_iff (ne_zero_of_lt hlt)).1 hi (gcd_two_mul_eq_one hprime h2 hlt hy)
  obtain ⟨lam, xR, yR, hres, -⟩ := pDbl_res_tangent h hy hi
  exact ⟨_, hres⟩

/-- Settles O32: with the tangent always there, validation and y = 0 are the only checks that fault. -/
theorem pdblSucceedsForOddPrimeModulus : Obligations.PdblSucceedsForOddPrimeModulus := by
  refine fun a b p hprime h2 => ⟨fun x y => pDbl_ok_of_odd_prime hprime h2, fun P c hc => ?_⟩
  by_cases h : Valid a b p P
  case neg =>
    rw [pDbl_invalid h] at hc
    cases hc
    exact .inl rfl
  match P with
  | .inf => cases hc
  | .aff x y =>
    by_cases hy : y = 0
    · rw [pDbl_vertical h hy] at hc
      cases hc
      exact .inr rfl
    · obtain ⟨R, hR⟩ := pDbl_ok_of_odd_prime hprime h2 h hy
      cases hc.symm.trans hR

end Sys2Proof.Machine
end

section
/-! PROOFS. The engine steps of LADDER (44_ladder.md R181, R185 to R187, R200): the early exit, the
addition and the doubling, each with its answer in plain arithmetic. -/

namespace Sys2Proof.Machine

variable {s : State} {b : Block} {rd ra : Reg} {r : Result Point}

/-! ## The early exit (R181, R185) -/

theorem ladder_inf (a b p : Wide) (k : Nat) : ladder a b p .inf k = .ret .inf := if_pos (.inl rfl)

theorem ladder_zero (a b p : Wide) (P : Point) : ladder a b p P 0 = .ret .inf := if_pos (.inr rfl)

theorem exec_ladder_early (h : s.blk.ph = .exec) :
    exec (.ladder rd ra) s = .next (s.engine (s.blk.completedWith rd (.ok .inf)) []) := by
  rw [exec_of_executes (.early rd ra s h), Block.finish_eq_completedWith]

/-- Settles O33: the step finishes with the identity and no request, as the function does. -/
theorem ladderEarlyExit : Obligations.LadderEarlyExit := by
  refine ⟨fun rd ra s hph => ?_, fun a b p P => ?_, fun a b p k => ?_⟩
  · rw [exec_ladder_early hph, State.engine, List.append_nil]
  · rw [ladder_zero]
    exact ⟨rfl, rfl⟩
  · rw [ladder_inf]
    exact ⟨rfl, rfl⟩

/-! ## The addition (R186) -/

theorem exec_ladder_add (hph : s.blk.ph = .lAdd)
    (hr : (pAdd s.blk.ca s.blk.cb s.blk.cp s.blk.lr0 s.blk.lr1).res = r) :
    exec (.ladder rd ra) s = .next { s with
      blk := s.blk.afterAdd r, mrsp := none
      reqLog := s.reqLog ++ (pAdd s.blk.ca s.blk.cb s.blk.cp s.blk.lr0 s.blk.lr1).log
      subOps := s.subOps ++ [.add] } := by
  subst hr
  exact exec_of_executes (.add rd ra s hph)

/-- Settles O34: the sum goes where the bit says, a fault completes. -/
theorem ladderAdditionStep : Obligations.LadderAdditionStep := by
  intro rd ra s hph
  refine ⟨_, _, pAdd_answers, rfl, fun c hr => ?_, fun T hr hbit => ?_, fun T hr hbit => ?_⟩ <;>
    rw [exec_ladder_add hph hr]
  · rfl
  · rw [Block.afterAdd_ok, Block.scalarBit, hbit]
    rfl
  · rw [Block.afterAdd_ok, Block.scalarBit, hbit]
    rfl

/-! ## The doubling (R187) -/

theorem exec_ladder_dbl (hph : s.blk.ph = .lDbl)
    (hr : (pDbl s.blk.ca s.blk.cb s.blk.cp s.blk.doubleOperand).res = r) :
    exec (.ladder rd ra) s = .next { s with
      blk := s.blk.afterDbl rd r, mrsp := none
      reqLog := s.reqLog ++ (pDbl s.blk.ca s.blk.cb s.blk.cp s.blk.doubleOperand).log
      subOps := s.subOps ++ [.dbl] } := by
  subst hr
  exact exec_of_executes (.dbl rd ra s hph)

/-- Above index 0 the double goes back where it was read and the next lower bit is due. -/
theorem Block.afterDbl_goesOn (rd : Reg) (T : Point) (hli : b.li ≠ 0) :
    b.afterDbl rd (.ok T) = { b with
      lr0 := if b.scalarBit then b.lr0 else T, lr1 := if b.scalarBit then T else b.lr1
      li := b.li - 1, ph := .lAdd } := by
  rw [Block.afterDbl_ok, if_neg hli]

/-- At index 0 the command completes with LR0 as just updated. -/
theorem Block.afterDbl_completes (rd : Reg) (T : Point) (hli : b.li = 0) :
    b.afterDbl rd (.ok T) = b.completedWith rd (.ok (if b.scalarBit then b.lr0 else T)) := by
  rw [Block.afterDbl_ok, if_pos hli, ← Block.finish_ok, Block.finish_eq_completedWith]

/-- Settles O35: the double goes on with the next bit, or completes at index 0; a fault completes. -/
theorem ladderDoublingStep : Obligations.LadderDoublingStep := by
  intro rd ra s hph
  refine ⟨_, (pDbl s.blk.ca s.blk.cb s.blk.cp s.blk.doubleOperand).log, pDbl_answers, rfl, ?_⟩
  rintro _ rfl
  refine ⟨fun c hr => ?_, fun T hr hli hbit => ?_, fun T hr hli hbit => ?_,
    fun T hr hli hbit => ?_, fun T hr hli hbit => ?_⟩ <;> rw [exec_ladder_dbl hph hr]
  · rfl
  · rw [Block.afterDbl_goesOn rd T hli, Block.scalarBit, hbit]
    rfl
  · rw [Block.afterDbl_goesOn rd T hli, Block.scalarBit, hbit]
    rfl
  · rw [Block.afterDbl_completes rd T hli, Block.scalarBit, hli, hbit]
    rfl
  · rw [Block.afterDbl_completes rd T hli, Block.scalarBit, hli, hbit]
    rfl

end Sys2Proof.Machine
end

section
/-! PROOFS. The function Ladder (44_ladder.md R180 to R182, R195, R196, R198): its loop bit by bit,
leading zero bits, and the points it rejects. -/

namespace Sys2Proof.Machine

variable {a b p x : Wide} {P : Point} {k : Nat}

/-! ## The loop -/

theorem Run.bind_assoc {α β γ : Type} (r : Run α) (f : α → Run β) (g : β → Run γ) :
    (r.bind f).bind g = r.bind fun v => (f v).bind g := by
  cases h : r.res with
  | fault c => rw [Run.bind_of_fault h, Run.bind_of_fault h, Run.bind_of_fault rfl]
  | ok v =>
    rw [Run.bind_of_ok h, Run.bind_of_ok h]
    cases hf : (f v).res with
    | fault c => rw [Run.bind_of_fault rfl, Run.bind_of_fault hf]
    | ok w => rw [Run.bind_of_ok rfl, Run.bind_of_ok hf, List.append_assoc]

/-- A pair is an addition and a doubling whatever the bit, which says only which accumulator each writes
(R180, R192). -/
theorem ladderPair_eq (a b p : Wide) (bit : Bool) (R0 R1 : Point) :
    ladderPair a b p bit R0 R1 = (pAdd a b p R0 R1).bind fun T =>
      (pDbl a b p (if bit then R1 else R0)).bind fun U =>
        .ret (if bit then T else U, if bit then U else T) := by
  cases bit <;> rfl

/-- One bit of the loop. -/
theorem ladderLoop_succ (a b p : Wide) (k n : Nat) (R0 R1 : Point) :
    ladderLoop a b p k (n + 1) R0 R1 = (pAdd a b p R0 R1).bind fun T =>
      (pDbl a b p (if k.testBit n then R1 else R0)).bind fun U =>
        ladderLoop a b p k n (if k.testBit n then T else U) (if k.testBit n then U else T) := by
  simp only [ladderLoop, ladderPair_eq, Run.bind_assoc, Run.ret_bind]

/-! ## The length of the scalar (R182) -/

theorem bitlen_of_pos (hk : 0 < k) : bitlen k = k.log2 + 1 := if_neg hk.ne'

theorem lt_two_pow_bitlen (k : Nat) : k < 2 ^ bitlen k := by
  rcases Nat.eq_zero_or_pos k with rfl | hk
  · exact Nat.two_pow_pos _
  · rw [bitlen_of_pos hk]
    exact Nat.lt_log2_self

theorem testBit_of_bitlen_le {n : Nat} (h : bitlen k ≤ n) : k.testBit n = false :=
  Nat.testBit_lt_two_pow ((lt_two_pow_bitlen k).trans_le (Nat.pow_le_pow_right Nat.two_pos h))

/-! ## Leading zero bits (R196) -/

theorem pAdd_inf_res (h : Valid a b p P) : (pAdd a b p .inf P).res = .ok P := by
  rw [pAdd_inf_left h]

/-- A leading zero bit leaves the accumulators `Inf` and P. -/
theorem ladderLoop_zero_bit {n : Nat} (hP : Valid a b p P) (hbit : k.testBit n = false) :
    (ladderLoop a b p k (n + 1) .inf P).res = (ladderLoop a b p k n .inf P).res := by
  rw [ladderLoop_succ, Run.bind_of_ok (pAdd_inf_res hP), hbit]
  rfl

theorem ladderLoop_leading_zeros {n : Nat} (hP : Valid a b p P) (hn : bitlen k ≤ n) :
    (ladderLoop a b p k n .inf P).res = (ladderLoop a b p k (bitlen k) .inf P).res := by
  induction n, hn using Nat.le_induction with
  | base => rfl
  | succ n hn ih => rw [ladderLoop_zero_bit hP (testBit_of_bitlen_le hn), ih]

/-- From two identities the loop ends in the identity. -/
theorem ladderLoop_inf_inf (a b p : Wide) (k n : Nat) : (ladderLoop a b p k n .inf .inf).res = .ok .inf := by
  induction n with
  | zero => rfl
  | succ n ih =>
    rw [ladderLoop_succ, Run.bind_of_ok (pAdd_inf_res (P := .inf) trivial)]
    cases k.testBit n <;> exact ih

/-- The early exit gives what the loop would. -/
theorem ladder_res_eq_ladderLoop (a b p : Wide) (P : Point) (k : Nat) :
    (ladder a b p P k).res = (ladderLoop a b p k (bitlen k) .inf P).res := by
  by_cases h : P = .inf ∨ k = 0
  · obtain rfl | rfl := h
    · rw [ladder_inf, ladderLoop_inf_inf, Run.ret_res]
    · rw [ladder_zero]
      rfl
  · rw [ladder, if_neg h]

/-- Settles O39: every bit from bitlen(k) up is a leading zero. -/
theorem ladderLeadingZerosChangeNothing : Obligations.LadderLeadingZerosChangeNothing := by
  intro a b p P k n hP hn
  refine ⟨pAdd_inf_res hP, rfl, ?_⟩
  rw [ladder_res_eq_ladderLoop, ladderLoop_leading_zeros hP hn]

/-! ## Points that fault with the first bit (R195, R198) -/

/-- The first bit of a scalar above 0 is 1: the first pair adds `Inf` and P and doubles P. -/
theorem ladder_res_first_pair (hk : 0 < k) : (ladder a b p P k).res =
    ((pAdd a b p .inf P).bind fun T => (pDbl a b p P).bind fun U =>
      ladderLoop a b p k k.log2 T U).res := by
  rw [ladder_res_eq_ladderLoop, bitlen_of_pos hk, ladderLoop_succ, Nat.testBit_log2 hk.ne']
  rfl

/-- Settles O38: the first addition validates P, in the function and in the controller. -/
theorem ladderRejectsAnInvalidPoint : Obligations.LadderRejectsAnInvalidPoint := by
  refine ⟨fun a b p P k hP hk => ?_, fun rd ra s hph hinf hP => ?_⟩
  · rw [ladder_res_first_pair hk, Run.bind_of_fault (pAdd_res_invalid fun h => hP h.2)]
  · exact ⟨_, exec_ladder_add hph (pAdd_res_invalid fun h => hP h.2), rfl⟩

/-- Settles O40: P is its own first sum, and then it is doubled. -/
theorem ladderFaultsOnTwoTorsion : Obligations.LadderFaultsOnTwoTorsion := by
  intro a b p x k hP hk
  rw [ladder_res_first_pair hk, Run.bind_of_ok (pAdd_inf_res hP), pDbl_vertical hP rfl]
  rfl

end Sys2Proof.Machine
end

section
/-! PROOFS. The ladder in the curve's group (44_ladder.md R197, R198; log 19): the accumulators are two
neighbouring multiples of the point, so a result is the scalar's multiple. -/

namespace Sys2Proof.Machine

variable {a b p : Wide} [Fact p.toNat.Prime] {M : (curveOf a b p).Point} {R0 R1 : Point} {m : Nat}

/-- The accumulators when the bits of the scalar read so far are m: m·M and (m+1)·M (R197). -/
def Accumulates (M : (curveOf a b p).Point) (m : Nat) (R : Point × Point) : Prop :=
  Represents R.1 (m • M) ∧ Represents R.2 ((m + 1) • M)

/-- How an evaluation of the ladder ends on a valid curve: with a value that meets `post`, or, only
where the order of `M` is even, with DOUBLING_UNDEFINED (R198). -/
def EndsInGroup {α : Type} (M : (curveOf a b p).Point) (post : α → Prop) (r : Result α) : Prop :=
  (∃ v, r = .ok v ∧ post v) ∨ (r = .fault .doublingUndefined ∧ ¬ Odd (addOrderOf M))

/-- Neighbouring multiples are equal only when both are the identity, so their addition never meets
equal points (R198 (3)). -/
theorem pAdd_accumulators (h0 : Represents R0 (m • M)) (h1 : Represents R1 ((m + 1) • M)) :
    ∃ T, (pAdd a b p R0 R1).res = .ok T ∧ Represents T ((2 * m + 1) • M) := by
  have hsum : m • M + (m + 1) • M = (2 * m + 1) • M := by rw [← add_nsmul]; congr 1; omega
  rcases pAdd_group h0 h1 with ⟨heq, hinf, -⟩ | ⟨-, T, hT, hr⟩
  · have hM : m • M = (m + 1) • M := (heq ▸ h0).element_unique h1
    have hzero : M = 0 := by rwa [succ_nsmul, left_eq_add] at hM
    rw [hzero, nsmul_zero] at h0
    exact absurd (represents_zero_iff.1 h0) hinf
  · exact ⟨T, hT, hsum ▸ hr⟩

/-- A multiple whose double is the identity is the identity where the order is odd. -/
theorem nsmul_eq_zero_of_odd_order (hodd : Odd (addOrderOf M)) (h : m • M + m • M = 0) : m • M = 0 := by
  rw [← two_nsmul, smul_smul] at h
  exact addOrderOf_dvd_iff_nsmul_eq_zero.1
    (hodd.coprime_two_right.dvd_of_dvd_mul_left (addOrderOf_dvd_iff_nsmul_eq_zero.2 h))

theorem pDbl_multiple (h2 : p.toNat ≠ 2) (h : Represents R0 (m • M)) :
    EndsInGroup M (Represents · ((2 * m) • M)) (pDbl a b p R0).res := by
  rcases pDbl_group h2 h with ⟨hinf, hzero, hr⟩ | ⟨-, U, hU, hr⟩
  · refine .inr ⟨hr, fun hodd => hinf ?_⟩
    rw [nsmul_eq_zero_of_odd_order hodd hzero] at h
    exact represents_zero_iff.1 h
  · refine .inl ⟨U, hU, ?_⟩
    rwa [← two_nsmul, smul_smul] at hr

/-- A pair takes the accumulators at m to those at 2 m + bit (R197). -/
theorem ladderPair_accumulates (h2 : p.toNat ≠ 2) (bit : Bool) (h0 : Represents R0 (m • M))
    (h1 : Represents R1 ((m + 1) • M)) :
    EndsInGroup M (Accumulates M (2 * m + bit.toNat)) (ladderPair a b p bit R0 R1).res := by
  obtain ⟨T, hT, hrT⟩ := pAdd_accumulators h0 h1
  rw [ladderPair_eq, Run.bind_of_ok hT]
  have hop : Represents (if bit then R1 else R0) ((m + bit.toNat) • M) := by
    cases bit
    · exact h0
    · exact h1
  rcases pDbl_multiple h2 hop with ⟨U, hU, hrU⟩ | ⟨hf, ho⟩
  · refine .inl ⟨_, congrArg Run.res (Run.bind_of_ok hU _), ?_⟩
    cases bit
    · exact ⟨hrU, hrT⟩
    · exact ⟨hrT, hrU⟩
  · exact .inr ⟨congrArg Run.res (Run.bind_of_fault hf _), ho⟩

/-- The bits from n up are those from n + 1 up with bit n appended. -/
theorem div_two_pow_eq_append_bit (k n : Nat) : k / 2 ^ n = 2 * (k / 2 ^ (n + 1)) + (k.testBit n).toNat := by
  rw [Nat.toNat_testBit, pow_succ, ← Nat.div_div_eq_div_mul, Nat.div_add_mod]

/-- From the accumulators at the bits of k from n up the loop ends in k·M. -/
theorem ladderLoop_multiple (h2 : p.toNat ≠ 2) (k n : Nat) {R : Point × Point}
    (hR : Accumulates M (k / 2 ^ n) R) :
    EndsInGroup M (Represents · (k • M)) (ladderLoop a b p k n R.1 R.2).res := by
  induction n generalizing R with
  | zero =>
    rw [pow_zero, Nat.div_one] at hR
    exact .inl ⟨R.1, rfl, hR.1⟩
  | succ n ih =>
    have hpair := ladderPair_accumulates h2 (k.testBit n) hR.1 hR.2
    rw [← div_two_pow_eq_append_bit] at hpair
    rw [ladderLoop]
    rcases hpair with ⟨R', hres, hacc⟩ | ⟨hf, ho⟩
    · rw [Run.bind_of_ok hres]
      exact ih hacc
    · rw [Run.bind_of_fault hf]
      exact .inr ⟨rfl, ho⟩

theorem ladder_multiple (h2 : p.toNat ≠ 2) (k : Nat) {P : Point} (hP : Represents P M) :
    EndsInGroup M (Represents · (k • M)) (ladder a b p P k).res := by
  rw [ladder_res_eq_ladderLoop]
  refine ladderLoop_multiple h2 k (bitlen k) (R := (.inf, P)) ?_
  rw [Nat.div_eq_of_lt (lt_two_pow_bitlen k), Accumulates, zero_nsmul, zero_add, one_nsmul]
  exact ⟨represents_inf_zero, hP⟩

/-- Settles O54: a pair keeps the accumulators' invariant, the loop carries it to k, and the only fault
left is a doubling that no odd order has. -/
theorem ladderComputesTheMultiple : Obligations.LadderComputesTheMultiple := by
  intro a b p _ hc P hP
  obtain ⟨M, hM⟩ := exists_represents hc hP
  obtain ⟨-, h2, -⟩ := hc
  refine ⟨M, hM, fun bit m R0 R1 R h0 h1 hR => ?_, fun k => ?_⟩
  · rcases ladderPair_accumulates h2 bit h0 h1 with ⟨R', hR', hacc⟩ | ⟨hf, -⟩
    · cases hR.symm.trans hR'
      exact hacc
    · cases hR.symm.trans hf
  · rcases ladder_multiple h2 k hM with ⟨R, hR, hrep⟩ | ⟨hf, hodd⟩
    · rw [hR]
      exact ⟨fun R' e => Result.ok.inj e ▸ hrep, nofun, fun _ => ⟨R, rfl⟩⟩
    · rw [hf]
      exact ⟨fun R' e => (by cases e), by decide, fun ho => absurd ho hodd⟩

end Sys2Proof.Machine
end

section
/-! PROOFS. Every command completes (44_ladder.md R191, 60_exceptions.md R225): the steps a busy block
still has before it are counted by its phase and LI, and each step leaves fewer. -/

namespace Sys2Proof.Machine

variable {s t : State} {b : Block} {i : Instr}

/-- How many engine steps the running command can still take: one in EXEC, two for each bit of the
ladder from LI down, one less when the addition of bit LI is done. -/
def Block.stepsLeft (b : Block) : Nat :=
  match b.ph with
  | .idle => 0
  | .exec => 1
  | .lAdd => 2 * b.li + 2
  | .lDbl => 2 * b.li + 1

theorem Block.stepsLeft_pos (hb : b.ph ≠ .idle) : 0 < b.stepsLeft := by
  unfold Block.stepsLeft
  split
  · exact absurd ‹_› hb
  · exact Nat.one_pos
  · exact Nat.succ_pos _
  · exact Nat.succ_pos _

/-- `t` has completed, or is still busy with fewer steps left than `b`. -/
def Block.Advances (b t : Block) : Prop :=
  t.ph = .idle ∧ t.done = true ∨ t.ph ≠ .idle ∧ t.stepsLeft < b.stepsLeft

theorem Block.advances_complete (b c : Block) (e : Err) : b.Advances (c.complete e) := .inl ⟨rfl, rfl⟩

theorem Block.advances_finish (b : Block) (rd : Reg) (r : Result Point) : b.Advances (b.finish rd r) := by
  cases r <;> exact Block.advances_complete _ _ _

theorem Block.advances_finishCheck (b : Block) (r : Result Bool) : b.Advances (b.finishCheck r) := by
  cases r <;> exact .inl ⟨rfl, rfl⟩

theorem Block.advances_afterAdd (hph : b.ph = .lAdd) (r : Result Point) : b.Advances (b.afterAdd r) := by
  cases r with
  | fault c => exact b.advances_complete b c
  | ok T =>
    rw [Block.afterAdd_ok]
    refine .inr ⟨nofun, ?_⟩
    simp only [Block.stepsLeft, hph]
    omega

theorem Block.advances_afterDbl (hph : b.ph = .lDbl) (rd : Reg) (r : Result Point) :
    b.Advances (b.afterDbl rd r) := by
  cases r with
  | fault c => exact b.advances_complete b c
  | ok T =>
    rw [Block.afterDbl_ok]
    split
    · exact b.advances_complete _ .none
    · refine .inr ⟨nofun, ?_⟩
      simp only [Block.stepsLeft, hph]
      omega

theorem Executes.advances (h : Executes i s t) (hi : IsCommand i) : s.blk.Advances t.blk := by
  cases h with
  | pchk => exact s.blk.advances_finishCheck _
  | padd rd => exact s.blk.advances_finish rd _
  | pdbl rd => exact s.blk.advances_finish rd _
  | early rd => exact s.blk.advances_finish rd (.ok .inf)
  | add _ _ _ hph => exact Block.advances_afterAdd hph _
  | dbl rd _ _ hph => exact Block.advances_afterDbl hph rd _
  | madd | msub | mmul | minv => exact hi.elim

/-- The block is on, its port is quiet and nothing from outside is to come: every step is its own. -/
structure State.OnItsOwn (s : State) : Prop where
  on    : s.rstN = true
  quiet : s.mreq = none
  alone : s.inputs = []

/-- A command's engine step leaves the block on its own. -/
theorem Executes.onItsOwn (h : Executes i s t) (hi : IsCommand i) (hs : s.OnItsOwn) : t.OnItsOwn := by
  cases h with
  | madd | msub | mmul | minv => exact hi.elim
  | _ => exact ⟨hs.on, hs.quiet, hs.alone⟩

/-- On its own a busy block takes the engine step of the command in CMDR (60_exceptions.md R225). -/
theorem State.OnItsOwn.step_command (hs : s.OnItsOwn) (hb : s.blk.ph ≠ .idle)
    (hd : decodeCommand s.blk.cmdr = .ok i) : step s = exec i s := by
  rw [step_nil hs.alone, advance_command hs.on hs.quiet (s.blk.busy_eq_true_iff.2 hb) hd]

theorem isCommand_of_decodeCommand {w : Word} (h : decodeCommand w = .ok i) : IsCommand i := by
  rcases decodeCommand_cases w with e | e | e | e | e <;> cases h.symm.trans e <;> trivial

/-- On its own a busy block in order takes a step forward and stays in order. -/
theorem State.Inv.step_advances (h : s.Inv) (hs : s.OnItsOwn) (hb : s.blk.ph ≠ .idle) :
    ∃ t, step s = .next t ∧ t.Inv ∧ t.OnItsOwn ∧ s.blk.Advances t.blk := by
  obtain ⟨i, t, hd, hwf, he⟩ := exec_command_goesOn h.sequenced hb
  have hx := exec_inversion he
  have hi := isCommand_of_decodeCommand hd
  exact ⟨t, (hs.step_command hb hd).trans he, hx.keeps_inv h hs.on hwf, hx.onItsOwn hi hs, hx.advances hi⟩

/-- On its own a busy block in order completes within the steps left to it. -/
theorem State.Inv.completes_within {k : Nat} (h : s.Inv) (hs : s.OnItsOwn) (hb : s.blk.ph ≠ .idle)
    (hk : s.blk.stepsLeft ≤ k) :
    ∃ n t, 1 ≤ n ∧ n ≤ k ∧ Host.Core.run Sys2Proof.core n s = .next t ∧ t.blk.ph = .idle ∧
      t.blk.done = true := by
  induction k generalizing s with
  | zero => exact absurd hk (Block.stepsLeft_pos hb).not_ge
  | succ k ih =>
    obtain ⟨t, hstep, ht, hts, ⟨hidle, hdone⟩ | ⟨hbt, hlt⟩⟩ := h.step_advances hs hb
    · exact ⟨1, t, le_rfl, by omega, run_succ_of_step hstep, hidle, hdone⟩
    · obtain ⟨n, u, -, hnk, hrun, hu⟩ := ih ht hts hbt (by omega)
      exact ⟨n + 1, u, by omega, by omega, (run_succ_of_step hstep).trans hrun, hu⟩

/-- The scalar has at most KW bits (10_state.md R20). -/
theorem Block.Fits.scalarLength_le {c : Config} (h : b.Fits c) : b.scalarLength ≤ c.kw := by
  unfold Block.scalarLength bitlen
  split
  · exact Nat.zero_le _
  · rename_i hk
    exact (Nat.log2_lt hk).2 h.k

/-- LI is below the number of bits of the scalar, so at most 2 KW steps are left. -/
theorem State.Inv.stepsLeft_le (h : s.Inv) : s.blk.stepsLeft ≤ 2 * s.cfg.kw := by
  have hkw := h.fits.scalarLength_le
  have hlegal : 1 ≤ s.cfg.kw := by
    have := WideReg.one_le_words h.cfg .k
    simp only [WideReg.words, Config.kw] at this ⊢
    omega
  unfold Block.stepsLeft
  split
  · omega
  · omega
  · have := (h.sequenced.inLadder (.inl ‹_›)).2
    omega
  · have := (h.sequenced.inLadder (.inr ‹_›)).2
    omega

/-- Settles O41: the steps left are at most 2 KW, and each step leaves fewer. -/
theorem everyCommandCompletes : Obligations.EveryCommandCompletes :=
  fun _ h hr hq hin hb => h.completes_within ⟨hr, hq, hin⟩ hb h.stepsLeft_le

end Sys2Proof.Machine
end

section
/-! PROOFS. The stepped controller and the function Ladder (44_ladder.md R186 to R189): the engine steps
run through the loop, bit by bit, to the completion with its result. -/

namespace Sys2Proof.Machine

variable {s s' t : State} {b b' b'' : Block} {rd ra : Reg} {e : SubOp} {ev full : List SubOp} {n : Nat}
  {l : List Request} {r : Run Point} {c : Err} {R : Point}

/-! ## Blocks that differ in the hidden sequencer alone -/

/-- `b'` is `b` but for the accumulators, LI and PH (10_state.md R34 to R36). -/
def Block.SameButSequencer (b b' : Block) : Prop :=
  b' = { b with lr0 := b'.lr0, lr1 := b'.lr1, li := b'.li, ph := b'.ph }

theorem Block.SameButSequencer.trans (h : b.SameButSequencer b') (h' : b'.SameButSequencer b'') :
    b.SameButSequencer b'' := by
  unfold Block.SameButSequencer at h h'
  rw [h', h]
  rfl

/-- A completion sets the flags and clears the sequencer, whatever they were (60_exceptions.md R226). -/
theorem Block.completedWith_eq (b : Block) (d : Bool) (e : Err) (P Q : Point) (n : Nat) (ph : Phase)
    (rd : Reg) (r : Result Point) :
    { b with done := d, err := e, lr0 := P, lr1 := Q, li := n, ph := ph }.completedWith rd r =
      b.completedWith rd r := by
  match r with
  | .ok .inf | .ok (.aff _ _) | .fault _ => rfl

theorem Block.SameButSequencer.completedWith_eq (h : b.SameButSequencer b') (rd : Reg) (r : Result Point) :
    b'.completedWith rd r = b.completedWith rd r := by
  rw [h]
  exact b.completedWith_eq b.done b.err _ _ _ _ rd r

/-! ## Runs of the controller -/

/-- From `s` the block is busy for `n` steps, in which only the sequencer changes, and then in `t` the
command has completed with the result of `r`, its requests sent and the events `ev` recorded (R189). -/
structure State.RunsTo (s : State) (rd : Reg) (r : Run Point) (ev : List SubOp) (n : Nat) (t : State) :
    Prop where
  pos  : 1 ≤ n
  run  : Host.Core.run Sys2Proof.core n s = .next t
  blk  : t.blk = s.blk.completedWith rd r.res
  log  : t.reqLog = s.reqLog ++ r.log
  ops  : t.subOps = s.subOps ++ ev
  busy : ∀ m, m < n → ∃ u, Host.Core.run Sys2Proof.core m s = .next u ∧ u.blk.ph ≠ .idle ∧
    s.blk.SameButSequencer u.blk

/-- The step that completes. -/
theorem State.runsTo_of_completes (hb : s.blk.ph ≠ .idle) (hstep : step s = .next t)
    (hblk : t.blk = s.blk.completedWith rd r.res) (hlog : t.reqLog = s.reqLog ++ r.log)
    (hops : t.subOps = s.subOps ++ ev) : s.RunsTo rd r ev 1 t where
  pos := le_rfl
  run := run_succ_of_step hstep
  blk := hblk
  log := hlog
  ops := hops
  busy m hm := by
    obtain rfl : m = 0 := Nat.lt_one_iff.1 hm
    exact ⟨s, rfl, hb, rfl⟩

/-- A step before it, in which only the sequencer changes. -/
theorem State.RunsTo.cons (h : s'.RunsTo rd r ev n t) (hb : s.blk.ph ≠ .idle) (hstep : step s = .next s')
    (hseq : s.blk.SameButSequencer s'.blk) (hlog : s'.reqLog = s.reqLog ++ l)
    (hops : s'.subOps = s.subOps ++ [e]) : s.RunsTo rd ⟨r.res, l ++ r.log⟩ (e :: ev) (n + 1) t where
  pos := Nat.le_add_left _ _
  run := (run_succ_of_step hstep).trans h.run
  blk := by rw [h.blk, hseq.completedWith_eq]
  log := by rw [h.log, hlog, List.append_assoc]
  ops := by rw [h.ops, hops, List.append_assoc, List.singleton_append]
  busy m hm := by
    cases m with
    | zero => exact ⟨s, rfl, hb, rfl⟩
    | succ m =>
      obtain ⟨u, hrun, hu, hsame⟩ := h.busy m (Nat.lt_of_succ_lt_succ hm)
      exact ⟨u, (run_succ_of_step hstep).trans hrun, hu, hseq.trans hsame⟩

/-! ## The ladder's steps (R186, R187) -/

/-- The events of `n` bits: an addition and a doubling each (R192). -/
def ladderEvents (n : Nat) : List SubOp := (List.replicate n [SubOp.add, SubOp.dbl]).flatten

theorem ladderEvents_succ (n : Nat) : ladderEvents (n + 1) = .add :: .dbl :: ladderEvents n := rfl

theorem length_ladderEvents (n : Nat) : (ladderEvents n).length = 2 * n := by
  induction n with
  | zero => rfl
  | succ n ih => rw [ladderEvents_succ, List.length_cons, List.length_cons, ih]; omega

/-- From `s` one step per event leads to the completion with `r`; the events are the first of `full`, and
all of it when `r` does not fault. -/
def State.LaddersTo (s : State) (rd : Reg) (r : Run Point) (full : List SubOp) : Prop :=
  ∃ ev t, s.RunsTo rd r ev ev.length t ∧ ev <+: full ∧ ∀ R, r.res = .ok R → ev = full

theorem State.laddersTo_of_fault (hb : s.blk.ph ≠ .idle) (hstep : step s = .next t)
    (hblk : t.blk = s.blk.completedWith rd (.fault c)) (hlog : t.reqLog = s.reqLog ++ l)
    (hops : t.subOps = s.subOps ++ [e]) : s.LaddersTo rd ⟨.fault c, l⟩ (e :: full) :=
  ⟨[e], t, State.runsTo_of_completes hb hstep hblk hlog hops, ⟨full, rfl⟩, fun _ hR => by cases hR⟩

theorem State.laddersTo_of_completes (hb : s.blk.ph ≠ .idle) (hstep : step s = .next t)
    (hblk : t.blk = s.blk.completedWith rd (.ok R)) (hlog : t.reqLog = s.reqLog ++ l)
    (hops : t.subOps = s.subOps ++ [e]) : s.LaddersTo rd ⟨.ok R, l⟩ [e] :=
  ⟨[e], t, State.runsTo_of_completes hb hstep hblk hlog hops, ⟨[], rfl⟩, fun _ _ => rfl⟩

theorem State.LaddersTo.cons (h : s'.LaddersTo rd r full) (hb : s.blk.ph ≠ .idle) (hstep : step s = .next s')
    (hseq : s.blk.SameButSequencer s'.blk) (hlog : s'.reqLog = s.reqLog ++ l)
    (hops : s'.subOps = s.subOps ++ [e]) : s.LaddersTo rd ⟨r.res, l ++ r.log⟩ (e :: full) := by
  obtain ⟨ev, t, hrun, ⟨rest, hrest⟩, hall⟩ := h
  exact ⟨e :: ev, t, hrun.cons hb hstep hseq hlog hops, ⟨rest, congrArg _ hrest⟩,
    fun R hR => congrArg _ (hall R hR)⟩

/-- On its own the block runs a LADDER in phase `ph`. -/
structure State.InLadder (s : State) (rd ra : Reg) (ph : Phase) : Prop extends s.OnItsOwn where
  command : decodeCommand s.blk.cmdr = .ok (.ladder rd ra)
  phase   : s.blk.ph = ph

/-- What is left of the function when the addition of bit LI is next (R180). -/
def Block.ladderFromAdd (b : Block) : Run Point :=
  ladderLoop b.ca b.cb b.cp b.k.toNat (b.li + 1) b.lr0 b.lr1

/-- What is left of the function when the doubling of bit LI is next (R180). -/
def Block.ladderFromDbl (b : Block) : Run Point :=
  (pDbl b.ca b.cb b.cp b.doubleOperand).bind fun U => ladderLoop b.ca b.cb b.cp b.k.toNat b.li
    (if b.scalarBit then b.lr0 else U) (if b.scalarBit then U else b.lr1)

/-- The L_ADD step keeps what is left of the function. -/
theorem Block.ladderFromAdd_eq (b : Block) : b.ladderFromAdd =
    (pAdd b.ca b.cb b.cp b.lr0 b.lr1).bind fun T => (b.afterAdd (.ok T)).ladderFromDbl := by
  rw [Block.ladderFromAdd, ladderLoop_succ]
  congr 1
  funext T
  have hbit : b.k.toNat.testBit b.li = b.scalarBit := rfl
  have hafter (P Q : Point) : { b with lr0 := P, lr1 := Q, ph := .lDbl }.scalarBit = b.scalarBit := rfl
  simp only [Block.afterAdd_ok, Block.ladderFromDbl, Block.doubleOperand, hafter, hbit]
  cases b.scalarBit <;> rfl

/-- Above index 0 so does the L_DBL step. -/
theorem Block.ladderFromDbl_goesOn (rd : Reg) (hli : b.li ≠ 0) : b.ladderFromDbl =
    (pDbl b.ca b.cb b.cp b.doubleOperand).bind fun U => (b.afterDbl rd (.ok U)).ladderFromAdd := by
  simp only [Block.afterDbl_goesOn rd _ hli, Block.ladderFromAdd, Nat.sub_one_add_one hli,
    Block.ladderFromDbl]

/-- At index 0 nothing is left after it. -/
theorem Block.ladderFromDbl_completes (hli : b.li = 0) : b.ladderFromDbl =
    (pDbl b.ca b.cb b.cp b.doubleOperand).bind fun U => .ret (if b.scalarBit then b.lr0 else U) := by
  rw [Block.ladderFromDbl, hli]
  rfl

theorem State.InLadder.add_laddersTo (h : s.InLadder rd ra .lAdd)
    (hnext : ∀ s' : State, s'.InLadder rd ra .lDbl → s'.blk.li = s.blk.li →
      s'.LaddersTo rd s'.blk.ladderFromDbl full) :
    s.LaddersTo rd s.blk.ladderFromAdd (.add :: full) := by
  have hb : s.blk.ph ≠ .idle := by rw [h.phase]; nofun
  have hstep := h.step_command hb h.command
  rw [Block.ladderFromAdd_eq]
  cases hr : (pAdd s.blk.ca s.blk.cb s.blk.cp s.blk.lr0 s.blk.lr1).res with
  | fault c =>
    rw [Run.bind_of_fault hr]
    exact State.laddersTo_of_fault hb (hstep.trans (exec_ladder_add h.phase hr)) rfl rfl rfl
  | ok T =>
    rw [exec_ladder_add h.phase hr] at hstep
    rw [Run.bind_of_ok hr]
    rw [Block.afterAdd_ok] at hstep ⊢
    refine State.LaddersTo.cons ?_ hb hstep rfl rfl rfl
    exact hnext _ ⟨⟨h.on, h.quiet, h.alone⟩, h.command, rfl⟩ rfl

theorem State.InLadder.dbl_laddersTo (h : s.InLadder rd ra .lDbl)
    (hnext : ∀ s' : State, s'.InLadder rd ra .lAdd → s'.blk.li + 1 = s.blk.li →
      s'.LaddersTo rd s'.blk.ladderFromAdd (ladderEvents s.blk.li)) :
    s.LaddersTo rd s.blk.ladderFromDbl (.dbl :: ladderEvents s.blk.li) := by
  have hb : s.blk.ph ≠ .idle := by rw [h.phase]; nofun
  have hstep := h.step_command hb h.command
  cases hr : (pDbl s.blk.ca s.blk.cb s.blk.cp s.blk.doubleOperand).res with
  | fault c =>
    rw [Block.ladderFromDbl, Run.bind_of_fault hr]
    exact State.laddersTo_of_fault hb (hstep.trans (exec_ladder_dbl h.phase hr)) rfl rfl rfl
  | ok U =>
    rw [exec_ladder_dbl h.phase hr] at hstep
    by_cases hli : s.blk.li = 0
    · rw [Block.afterDbl_completes rd U hli] at hstep
      rw [Block.ladderFromDbl_completes hli, Run.bind_of_ok hr, hli, Run.ret_log, List.append_nil]
      exact State.laddersTo_of_completes hb hstep rfl rfl rfl
    · rw [Block.ladderFromDbl_goesOn rd hli, Run.bind_of_ok hr]
      rw [Block.afterDbl_goesOn rd U hli] at hstep ⊢
      refine State.LaddersTo.cons ?_ hb hstep rfl rfl rfl
      exact hnext _ ⟨⟨h.on, h.quiet, h.alone⟩, h.command, rfl⟩ (Nat.sub_one_add_one hli)

/-- From an L_ADD step the controller runs through the rest of the loop (R189). -/
theorem State.InLadder.laddersTo (h : s.InLadder rd ra .lAdd) :
    s.LaddersTo rd s.blk.ladderFromAdd (ladderEvents (s.blk.li + 1)) := by
  induction hn : s.blk.li using Nat.strong_induction_on generalizing s with
  | _ n ih =>
    subst hn
    refine h.add_laddersTo fun s' h' hli => ?_
    rw [← hli]
    refine h'.dbl_laddersTo fun s'' h'' hli' => ?_
    have hlt : s''.blk.li < s.blk.li := by omega
    simpa only [hli'] using ih _ hlt h'' rfl

end Sys2Proof.Machine
end

section
/-! PROOFS. LADDER from the host's write to its completion (44_ladder.md R183, R184, R189, R192): the
launch, and the run of the controller after it. -/

namespace Sys2Proof.Machine

variable {s : State} {b : Block} {rd ra : Reg} {w : Word}

/-! ## The launch (R184) -/

/-- The block after the launch of the LADDER word `w` (60_exceptions.md R223). -/
def Block.ladderLaunched (b : Block) (w : Word) (ra : Reg) : Block :=
  { b.clearFlags with cmdr := w }.launchLadder ra

theorem Block.launch_of_ladder (b : Block) (hd : decodeCommand w = .ok (.ladder rd ra)) :
    b.launch w = b.ladderLaunched w ra := by
  rw [Block.launch, hd]
  rfl

/-- The early exit is taken: a step in EXEC is due. -/
theorem Block.ladderLaunched_early (h : b.point ra = .inf ∨ b.k = 0) :
    b.ladderLaunched w ra =
      { b with cmdr := w, done := false, err := .none, onc := false, ph := .exec } :=
  if_pos h

/-- It is not: the ladder starts at the highest bit of K. -/
theorem Block.ladderLaunched_starts (h : ¬ (b.point ra = .inf ∨ b.k = 0)) :
    b.ladderLaunched w ra =
      { b with
        cmdr := w, done := false, err := .none, onc := false
        lr0 := .inf, lr1 := b.point ra, li := b.scalarLength - 1, ph := .lAdd } :=
  if_neg h

/-- The launch clears the flags and sets CMDR and the sequencer, and no more (60_exceptions.md R223). -/
theorem Block.sameButSequencer_ladderLaunched (b : Block) (w : Word) (ra : Reg) :
    { b with cmdr := w, done := false, err := .none, onc := false }.SameButSequencer
      (b.ladderLaunched w ra) := by
  by_cases h : b.point ra = .inf ∨ b.k = 0
  · rw [Block.ladderLaunched_early h]
    rfl
  · rw [Block.ladderLaunched_starts h]
    rfl

/-- The machine after the host wrote the LADDER word `w` to an idle block, with nothing more to come. -/
def State.ladderLaunched (s : State) (w : Word) (ra : Reg) : State :=
  s.written (s.blk.ladderLaunched w ra) []

/-- The function LADDER computes, on the registers of the block (R183). -/
def Block.ladderRun (b : Block) (ra : Reg) : Run Point := ladder b.ca b.cb b.cp (b.point ra) b.k.toNat

/-- An idle block the host writes the word of a LADDER to, and nothing after it. -/
structure State.TakesLadder (s : State) (w : Word) (rd ra : Reg) : Prop where
  legal   : s.cfg.legal = true
  on      : s.rstN = true
  quiet   : s.mreq = none
  idle    : s.blk.ph = .idle
  command : encode (.ladder rd ra) = .command w

theorem State.TakesLadder.decode (h : s.TakesLadder w rd ra) : decodeCommand w = .ok (.ladder rd ra) :=
  decodeCommand_eq_ok_iff.2 h.command

theorem State.TakesLadder.step_launches (h : s.TakesLadder w rd ra) :
    step (s.withWrite 0x000 w []) = .next (s.ladderLaunched w ra) := by
  rw [step_withWrite_writeLoc [] h.legal h.on (by decide) (by decide) (locate_cmd _) nofun,
    Block.writeLoc_cmd_of_idle w h.idle, s.blk.launch_of_ladder h.decode]
  rfl

theorem State.TakesLadder.onItsOwn (h : s.TakesLadder w rd ra) : (s.ladderLaunched w ra).OnItsOwn :=
  ⟨h.on, h.quiet, rfl⟩

/-- With the early exit the run is one step without a sub-operation (R185). -/
theorem State.TakesLadder.runs_early (h : s.TakesLadder w rd ra)
    (he : s.blk.point ra = .inf ∨ s.blk.k = 0) :
    ∃ t, (s.ladderLaunched w ra).RunsTo rd (s.blk.ladderRun ra) [] 1 t := by
  have hown := h.onItsOwn
  have hrun : s.blk.ladderRun ra = .ret .inf := if_pos (he.imp_right fun hk => by rw [hk, wide_zero_toNat])
  rw [State.ladderLaunched, Block.ladderLaunched_early he] at hown ⊢
  rw [hrun]
  have hstep := (hown.step_command nofun h.decode).trans (exec_ladder_early rfl)
  exact ⟨_, State.runsTo_of_completes nofun hstep rfl rfl (List.append_nil _).symm⟩

/-- Without it the run is through bitlen(K) pairs, or a first part of them that ends in a fault (R189). -/
theorem State.TakesLadder.ladders (h : s.TakesLadder w rd ra)
    (he : ¬ (s.blk.point ra = .inf ∨ s.blk.k = 0)) :
    (s.ladderLaunched w ra).LaddersTo rd (s.blk.ladderRun ra) (ladderEvents s.blk.scalarLength) := by
  have hown := h.onItsOwn
  have hpos : s.blk.scalarLength ≠ 0 := (Block.scalarLength_pos fun hk => he (.inr hk)).ne'
  have hk : ¬ (s.blk.point ra = .inf ∨ s.blk.k.toNat = 0) :=
    fun hn => he (hn.imp_right fun hk => BitVec.eq_of_toNat_eq (hk.trans wide_zero_toNat.symm))
  have hrun : s.blk.ladderRun ra = ladderLoop s.blk.ca s.blk.cb s.blk.cp s.blk.k.toNat
    s.blk.scalarLength .inf (s.blk.point ra) := if_neg hk
  rw [State.ladderLaunched, Block.ladderLaunched_starts he] at hown ⊢
  have hin := State.InLadder.laddersTo (rd := rd) (ra := ra) ⟨hown, h.decode, rfl⟩
  rw [hrun]
  simpa only [Block.ladderFromAdd, State.written, Nat.sub_one_add_one hpos] using hin

/-! ## The settled statements -/

/-- The length of the run in every case: one step on the early exit, at most two for each bit of K, and
all of those when nothing faults (R183). -/
theorem State.TakesLadder.runs (h : s.TakesLadder w rd ra) :
    ∃ ev n t, (s.ladderLaunched w ra).RunsTo rd (s.blk.ladderRun ra) ev n t ∧
      (s.blk.point ra = .inf ∨ s.blk.k = 0 → n = 1) ∧
      n ≤ max 1 (2 * s.blk.scalarLength) ∧
      (s.blk.point ra ≠ .inf → s.blk.k ≠ 0 → (∃ R, (s.blk.ladderRun ra).res = .ok R) →
        n = 2 * s.blk.scalarLength) := by
  by_cases he : s.blk.point ra = .inf ∨ s.blk.k = 0
  · obtain ⟨t, hrun⟩ := h.runs_early he
    exact ⟨[], 1, t, hrun, fun _ => rfl, le_max_left _ _, fun hP hk => absurd he (not_or.2 ⟨hP, hk⟩)⟩
  · obtain ⟨ev, t, hrun, hpre, hall⟩ := h.ladders he
    have hle := hpre.length_le
    rw [length_ladderEvents] at hle
    refine ⟨ev, ev.length, t, hrun, fun e => absurd e he, hle.trans (le_max_right _ _), fun _ _ hok => ?_⟩
    obtain ⟨R, hR⟩ := hok
    rw [hall R hR, length_ladderEvents]

/-- Settles O36: the write launches, and the run from there is the function's. -/
theorem ladderStepsRefineTheFunction : Obligations.LadderStepsRefineTheFunction := by
  refine ⟨readsPointsByFields, by decide, fun s rd ra w hc hr hq hi he => ?_⟩
  have h : s.TakesLadder w rd ra := ⟨hc, hr, hq, hi, he⟩
  have hlaunch := s.blk.sameButSequencer_ladderLaunched w ra
  obtain ⟨ev, n, t, hrun, hearly, hle, hfull⟩ := h.runs
  refine ⟨n, t, hrun.pos, (run_succ_of_step h.step_launches).trans hrun.run, ?_, hrun.log, fun m hm => ?_,
    hearly, hle, hfull⟩
  · refine hrun.blk.trans ((hlaunch.completedWith_eq rd _).trans ?_)
    exact Block.completedWith_eq { s.blk with cmdr := w, onc := false } false .none _ _ _ _ rd _
  · obtain ⟨u, hu, hbusy, hsame⟩ := hrun.busy m hm
    exact ⟨u, (run_succ_of_step h.step_launches).trans hu, u.blk.busy_eq_true_iff.2 hbusy, hlaunch.trans hsame⟩

theorem Block.completedWith_ph (b : Block) (rd : Reg) (r : Result Point) : (b.completedWith rd r).ph = .idle := by
  match r with
  | .ok .inf | .ok (.aff _ _) | .fault _ => rfl

/-- Settles O37: without a fault the run's events are those of bitlen(K) bits. -/
theorem ladderEventsDependOnBitLengthAlone : Obligations.LadderEventsDependOnBitLengthAlone := by
  refine ⟨readsPointsByFields, fun s rd ra w hc hr hq hi he hP hk hok => ?_⟩
  have h : s.TakesLadder w rd ra := ⟨hc, hr, hq, hi, he⟩
  obtain ⟨R, hR⟩ := hok
  obtain ⟨ev, t, hrun, -, hall⟩ := h.ladders (not_or.2 ⟨hP, hk⟩)
  obtain rfl := hall R hR
  rw [length_ladderEvents] at hrun
  refine ⟨t, (run_succ_of_step h.step_launches).trans hrun.run, ?_, hrun.ops⟩
  rw [hrun.blk, Block.completedWith_ph]

end Sys2Proof.Machine
end

section
/-! PROOFS. The reference function Binary (45_reference_binary.md R210 to R214; log 19): the early exit, the
scalar 1, and the loop in the curve's group, where below the order its additions meet no equal points. -/

namespace Sys2Proof.Machine

/-! ## The identity, the scalars 0 and 1 (R210, R214) -/

theorem binary_inf (a b p : Wide) (k : Nat) : binary a b p .inf k = .ret .inf := if_pos (.inl rfl)

theorem binary_zero (a b p : Wide) (P : Point) : binary a b p P 0 = .ret .inf := if_pos (.inr rfl)

/-- For the scalar 1 both functions add `Inf` and P and double P, and the sum is the result. -/
theorem binary_one_res (a b p : Wide) (P : Point) : (binary a b p P 1).res = (ladder a b p P 1).res := by
  by_cases hP : P = .inf
  · rw [hP, binary_inf, ladder_inf]
  · rw [ladder_res_first_pair Nat.one_pos, binary, if_neg (by simp [hP])]
    rfl

/-- Settles O42: the early exit, and the one bit of the scalar 1. -/
theorem binaryAgreesWithLadderBelowTwo : Obligations.BinaryAgreesWithLadderBelowTwo := by
  refine ⟨fun a b p P => ?_, fun a b p k => ?_, binary_one_res⟩
  · rw [binary_zero]
    exact ⟨rfl, rfl⟩
  · rw [binary_inf, Run.ret_res]

/-! ## The loop in the group (R212, R213) -/

variable {a b p : Wide} [Fact p.toNat.Prime] {M : (curveOf a b p).Point} {P Q T : Point} {k i r s : Nat}

/-- Two different multiples below the order are different points, so their addition never meets equal
points (R212). -/
theorem pAdd_below_order (hrs : r < s) (hs : s < addOrderOf M) (hQ : Represents Q (r • M))
    (hT : Represents T (s • M)) : ∃ R, (pAdd a b p Q T).res = .ok R ∧ Represents R ((r + s) • M) := by
  rcases pAdd_group hQ hT with ⟨heq, -, -⟩ | ⟨-, R, hR, hrep⟩
  · have hM : r • M = s • M := (heq ▸ hQ).element_unique hT
    exact absurd (nsmul_injOn_Iio_addOrderOf (hrs.trans hs) hs hM) hrs.ne
  · exact ⟨R, hR, (add_nsmul M r s).symm ▸ hrep⟩

/-- Bit i takes the accumulator from the bits of k below i to those below i + 1. -/
theorem binary_addition_multiple (hk : k < addOrderOf M) (hQ : Represents Q ((k % 2 ^ i) • M))
    (hT : Represents T (2 ^ i • M)) :
    ∃ R, (if k.testBit i then pAdd a b p Q T else .ret Q).res = .ok R ∧
      Represents R ((k % 2 ^ (i + 1)) • M) := by
  rw [Nat.mod_pow_succ, ← Nat.toNat_testBit]
  cases hbit : k.testBit i with
  | false => exact ⟨Q, rfl, hQ⟩
  | true =>
    have hlt : 2 ^ i < addOrderOf M := (Nat.ge_two_pow_of_testBit hbit).trans_lt hk
    rw [Bool.toNat_true, mul_one]
    exact pAdd_below_order (Nat.mod_lt k (Nat.two_pow_pos i)) hlt hQ hT

/-- From the accumulator at the bits of k below i, and T = 2^i·M, n more bits end in the bits below
i + n. -/
theorem binaryLoop_multiple (h2 : p.toNat ≠ 2) (hk : k < addOrderOf M) (n : Nat)
    (hQ : Represents Q ((k % 2 ^ i) • M)) (hT : Represents T (2 ^ i • M)) :
    EndsInGroup M (Represents · ((k % 2 ^ (i + n)) • M)) (binaryLoop a b p k n i Q T).res := by
  induction n generalizing i Q T with
  | zero => exact .inl ⟨Q, rfl, hQ⟩
  | succ n ih =>
    obtain ⟨Q', hres, hQ'⟩ := binary_addition_multiple hk hQ hT
    rw [binaryLoop, Run.bind_of_ok hres]
    rcases pDbl_multiple h2 hT with ⟨T', hdbl, hT'⟩ | ⟨hf, hodd⟩
    · rw [Run.bind_of_ok hdbl, Nat.add_comm n 1, ← Nat.add_assoc]
      rw [← pow_succ'] at hT'
      exact ih hQ' hT'
    · rw [Run.bind_of_fault hf]
      exact .inr ⟨rfl, hodd⟩

theorem binary_multiple (h2 : p.toNat ≠ 2) (hk : k < addOrderOf M) (hP : Represents P M) :
    EndsInGroup M (Represents · (k • M)) (binary a b p P k).res := by
  by_cases h : P = .inf ∨ k = 0
  · have hzero : k • M = 0 := by
      obtain rfl | rfl := h
      · rw [hP.element_unique represents_inf_zero, nsmul_zero]
      · exact zero_nsmul M
    rw [binary, if_pos h, hzero]
    exact .inl ⟨.inf, rfl, represents_inf_zero⟩
  · have hloop := binaryLoop_multiple (Q := .inf) (i := 0) h2 hk (bitlen k)
      (by rw [pow_zero, Nat.mod_one, zero_nsmul]; exact represents_inf_zero)
      (by rwa [pow_zero, one_nsmul])
    rw [Nat.zero_add, Nat.mod_eq_of_lt (lt_two_pow_bitlen k)] at hloop
    rwa [binary, if_neg h]

/-- Below an odd order both functions answer the scalar's multiple, which has one point value (R213). -/
theorem binary_ladder_agree (h2 : p.toNat ≠ 2) (hk : k < addOrderOf M) (hodd : Odd (addOrderOf M))
    (hP : Represents P M) : ∃ R, Represents R (k • M) ∧
      (binary a b p P k).res = .ok R ∧ (ladder a b p P k).res = .ok R := by
  rcases binary_multiple h2 hk hP with ⟨R, hR, hrep⟩ | ⟨-, heven⟩
  · rcases ladder_multiple h2 k hP with ⟨R', hR', hrep'⟩ | ⟨-, heven⟩
    · exact ⟨R, hrep, hR, hrep.value_unique hrep' ▸ hR'⟩
    · exact absurd hodd heven
  · exact absurd hodd heven

theorem binary_ne_equalPoints (h2 : p.toNat ≠ 2) (hk : k < addOrderOf M) (hP : Represents P M) :
    (binary a b p P k).res ≠ .fault .equalPoints := by
  rcases binary_multiple h2 hk hP with ⟨R, hR, -⟩ | ⟨hf, -⟩
  · rw [hR]
    nofun
  · rw [hf]
    decide

/-- Settles O53: below the order the loop's invariant leaves no fault but the doubling that no odd order
has, and the examples are evaluated. -/
theorem binaryAgreesWithLadderBelowTheOrder : Obligations.BinaryAgreesWithLadderBelowTheOrder := by
  refine ⟨fun a b p _ hc P hP => ?_, by decide +kernel, by decide +kernel⟩
  obtain ⟨M, hM⟩ := exists_represents hc hP
  obtain ⟨-, h2, -⟩ := hc
  exact ⟨M, hM, fun k hk => ⟨fun hodd => binary_ladder_agree h2 hk hodd hM, binary_ne_equalPoints h2 hk hM⟩⟩

end Sys2Proof.Machine
end

section
/-! PROOFS. The launch of a command by a write to CMD (60_exceptions.md R223, R224, 44_ladder.md R184). -/

namespace Sys2Proof.Machine

variable {s : State} {b : Block} {w : Word} {i : Instr}

/-- A write to CMD of an idle block is a launch. -/
theorem step_writeCmd_of_idle (w : Word) (rest : List Input) (hc : s.cfg.legal = true)
    (hr : s.rstN = true) (hi : s.blk.ph = .idle) :
    step (s.withWrite 0x000 w rest) = .next (s.written (s.blk.launch w) rest) := by
  rw [step_withWrite_writeLoc rest hc hr (by decide) (by decide) (locate_cmd _) nofun,
    Block.writeLoc_cmd_of_idle w hi]

/-- Every command but LADDER has its single step in EXEC. -/
theorem Block.launch_of_not_ladder (b : Block) (hd : decodeCommand w = .ok i)
    (hi : ∀ rd ra, i ≠ .ladder rd ra) :
    b.launch w = { b with cmdr := w, done := false, err := .none, onc := false, ph := .exec } := by
  rcases b.launch_cases w with ⟨-, e⟩ | ⟨rd, ra, hl, -⟩ | ⟨hx, -⟩
  · exact e
  · exact absurd (Decoded.ok.inj (hd.symm.trans hl)) (hi rd ra)
  · cases hd.symm.trans hx

/-- The launch of a command clears DONE (R223). -/
theorem Block.launch_done_of_command (b : Block) (hd : decodeCommand w = .ok i) :
    (b.launch w).done = false := by
  rcases b.launch_cases w with ⟨-, e⟩ | ⟨_, _, -, -, -, e⟩ | ⟨hx, -⟩
  · rw [e]
    rfl
  · rw [e]
    rfl
  · cases hd.symm.trans hx

/-- The index the ladder starts at is that of the scalar's highest 1 (44_ladder.md R182). -/
theorem Block.scalar_between_powers (hk : b.k ≠ 0) :
    2 ^ (b.scalarLength - 1) ≤ b.k.toNat ∧ b.k.toNat < 2 ^ (b.scalarLength - 1 + 1) := by
  have hpos : 0 < b.k.toNat := toNat_pos hk
  have hlen : b.scalarLength - 1 = b.k.toNat.log2 := by
    rw [Block.scalarLength, bitlen_of_pos hpos, Nat.add_sub_cancel]
  rw [hlen]
  exact ⟨Nat.log2_self_le hpos.ne', Nat.lt_log2_self⟩

/-- Settles O14: the write launches, and each kind of word has its launch. -/
theorem launchByCommand : Obligations.LaunchByCommand := by
  refine ⟨readsPointsByFields, fun s w rest hc hr hi => ?_⟩
  rw [step_writeCmd_of_idle w rest hc hr hi]
  refine ⟨fun ra hd => ?pchk, fun rd ra rb hd => ?padd, fun rd ra hd => ?pdbl, fun rd ra hd he => ?early,
    fun rd ra hd hP hk => ?ladder, fun hd => ?illegal⟩
  case pchk => rw [s.blk.launch_of_not_ladder hd nofun]
  case padd => rw [s.blk.launch_of_not_ladder hd nofun]
  case pdbl => rw [s.blk.launch_of_not_ladder hd nofun]
  case early => rw [s.blk.launch_of_ladder hd, Block.ladderLaunched_early he]
  case ladder =>
    obtain ⟨hlo, hhi⟩ := Block.scalar_between_powers hk
    refine ⟨s.blk.scalarLength - 1, hlo, hhi, ?_⟩
    rw [s.blk.launch_of_ladder hd, Block.ladderLaunched_starts (not_or.2 ⟨hP, hk⟩)]
  case illegal => rw [s.blk.launch_of_illegal hd]

end Sys2Proof.Machine
end

section
/-! PROOFS. The completion of a command, its faults and the interrupt (60_exceptions.md R226, R228, R230):
what one engine step of a command can do to the block, said once. -/

namespace Sys2Proof.Machine

/-! ## The engines' faults (R220) -/

section

variable {a b p : Wide} {P Q : Point} {r : Result Point}

/-- A fault of the addition is INVALID_POINT, EQUAL_POINTS or ARITH. -/
theorem AddAnswers.ne_illegalCmd (h : AddAnswers a b p P Q r) : r ≠ .fault .illegalCmd := by
  obtain ⟨hinvalid, hvalid⟩ := h
  by_cases hv : Valid a b p P ∧ Valid a b p Q
  · specialize hvalid hv
    match P, Q with
    | .inf, _ => rw [hvalid]; nofun
    | .aff _ _, .inf => rw [hvalid]; nofun
    | .aff _ _, .aff _ _ =>
      dsimp only at hvalid
      split_ifs at hvalid
      · rw [hvalid]; nofun
      · rw [hvalid]; nofun
      · rw [hvalid]; nofun
      · obtain ⟨_, _, _, hr, -⟩ := hvalid
        rw [hr]; nofun
  · rw [hinvalid hv]; nofun

/-- A fault of the doubling is INVALID_POINT, DOUBLING_UNDEFINED or ARITH. -/
theorem DoubleAnswers.ne_illegalCmd (h : DoubleAnswers a b p P r) : r ≠ .fault .illegalCmd := by
  obtain ⟨hinvalid, hvalid⟩ := h
  by_cases hv : Valid a b p P
  · specialize hvalid hv
    match P with
    | .inf => rw [hvalid]; nofun
    | .aff _ _ =>
      dsimp only at hvalid
      split_ifs at hvalid
      · rw [hvalid]; nofun
      · rw [hvalid]; nofun
      · obtain ⟨_, _, _, hr, -⟩ := hvalid
        rw [hr]; nofun
  · rw [hinvalid hv]; nofun

end

variable {s t : State} {b b' : Block} {i : Instr} {P : Point} {r : Result Point}

/-! ## The engine steps of a command -/

/-- What an engine step of a command can make of the block: the completion, with a register written only
when ERR is 0 (R226, R228), or another step of the ladder. -/
inductive Block.CommandStep (b b' : Block) : Prop where
  | completes (pr : Vector PointReg 4) (onc : Bool) (e : Err) : e ≠ .illegalCmd →
      (e ≠ .none → pr = b.pr ∧ onc = b.onc) → b' = b.completed pr onc e → CommandStep b b'
  | goesOn : b.SameButSequencer b' → b'.ph ≠ .idle → CommandStep b b'

/-- A fault of the engines completes and writes no register. -/
theorem Block.commandStep_complete (b : Block) {e : Err} (he : e ≠ .illegalCmd) :
    b.CommandStep (b.complete e) :=
  .completes b.pr b.onc e he (fun _ => ⟨rfl, rfl⟩) rfl

/-- A completion with the destination written. -/
theorem Block.commandStep_setPoint (b : Block) (rd : Reg) (P : Point) :
    b.CommandStep ((b.setPoint rd P).complete .none) :=
  .completes (b.setPoint rd P).pr b.onc .none nofun (absurd rfl) rfl

theorem Block.commandStep_finish (b : Block) (rd : Reg) (hr : r ≠ .fault .illegalCmd) :
    b.CommandStep (b.finish rd r) := by
  cases r with
  | ok P => exact b.commandStep_setPoint rd P
  | fault e => exact b.commandStep_complete fun he => hr (congrArg _ he)

/-- PCHK's end: ONC is written and ERR is 0. -/
theorem Block.commandStep_check (b : Block) (v : Bool) : b.CommandStep (b.finishCheck (.ok v)) :=
  .completes b.pr v .none nofun (absurd rfl) rfl

theorem Block.commandStep_afterAdd (b : Block) (hr : r ≠ .fault .illegalCmd) :
    b.CommandStep (b.afterAdd r) := by
  cases r with
  | ok T =>
    rw [Block.afterAdd_ok]
    exact .goesOn rfl nofun
  | fault e => exact b.commandStep_complete fun he => hr (congrArg _ he)

theorem Block.commandStep_afterDbl (b : Block) (rd : Reg) (hr : r ≠ .fault .illegalCmd) :
    b.CommandStep (b.afterDbl rd r) := by
  cases r with
  | ok T =>
    rw [Block.afterDbl_ok]
    split
    · exact b.commandStep_setPoint rd _
    · exact .goesOn rfl nofun
  | fault e => exact b.commandStep_complete fun he => hr (congrArg _ he)

/-- Every engine step of a command is of this kind. -/
theorem Executes.commandStep (h : Executes i s t) (hi : IsCommand i) : s.blk.CommandStep t.blk := by
  cases h with
  | pchk ra =>
    obtain ⟨v, hv, -⟩ := onCurve_answers s.blk.ca s.blk.cb s.blk.cp (s.blk.point ra)
    rw [State.engine_blk, hv]
    exact s.blk.commandStep_check v
  | padd rd => exact s.blk.commandStep_finish rd pAdd_answers.ne_illegalCmd
  | pdbl rd => exact s.blk.commandStep_finish rd pDbl_answers.ne_illegalCmd
  | early rd => exact s.blk.commandStep_setPoint rd .inf
  | add => exact s.blk.commandStep_afterAdd pAdd_answers.ne_illegalCmd
  | dbl rd => exact s.blk.commandStep_afterDbl rd pDbl_answers.ne_illegalCmd
  | madd | msub | mmul | minv => exact hi.elim

/-! ## Completion and faults -/

/-- The sequencer aside, a block keeps the flags and the point registers. -/
theorem Block.SameButSequencer.keeps (h : b.SameButSequencer b') :
    b'.done = b.done ∧ b'.pr = b.pr ∧ b'.onc = b.onc ∧ b'.err = b.err := by
  rw [h]
  exact ⟨rfl, rfl, rfl, rfl⟩

/-- DONE is set exactly by the step that makes PH idle. -/
theorem Block.CommandStep.done_iff (h : b.CommandStep b') (hb : b.done = false) :
    b'.done = true ↔ b'.ph = .idle := by
  rcases h with ⟨pr, onc, e, -, -, rfl⟩ | ⟨hseq, hn⟩
  · exact iff_of_true rfl rfl
  · have hdone : b'.done = false := hseq.keeps.1.trans hb
    exact iff_of_false (Bool.eq_false_iff.1 hdone) hn

/-- What a completion leaves behind. -/
theorem Block.CommandStep.of_idle (h : b.CommandStep b') (hph : b'.ph = .idle) :
    b'.err ≠ .illegalCmd ∧ b'.lr0 = .inf ∧ b'.lr1 = .inf ∧ b'.li = 0 ∧
      (b'.err ≠ .none → b'.pr = b.pr ∧ b'.onc = b.onc) := by
  rcases h with ⟨pr, onc, e, he, hfault, rfl⟩ | ⟨-, hn⟩
  · exact ⟨he, rfl, rfl, rfl, hfault⟩
  · exact absurd hph hn

/-- What the ladder keeps while it goes on. -/
theorem Block.CommandStep.of_busy (h : b.CommandStep b') (hph : b'.ph ≠ .idle) :
    b'.pr = b.pr ∧ b'.onc = b.onc ∧ b'.err = b.err := by
  rcases h with ⟨pr, onc, e, -, -, rfl⟩ | ⟨hseq, -⟩
  · exact absurd rfl hph
  · exact hseq.keeps.2

/-- Settles O15, from what the engine step of a command can do and the frame of an instruction. -/
theorem completionIsOneTransition : Obligations.CompletionIsOneTransition := by
  intro i s t hi hdone h
  have hx := exec_inversion h
  have hs := hx.commandStep hi
  have hf := hx.keepsAllBut_dest
  exact ⟨hs.done_iff hdone, hs.of_idle, hs.of_busy, hf.cmdr, hf.k, hf.ca, hf.cb, hf.cp, hf.werr, hf.ie⟩

/-- A completion with a fault writes neither a point register nor ONC (R228). -/
theorem Block.CommandStep.eq_completed_of_fault (h : b.CommandStep b') (hb : b.done = false)
    (hdone : b'.done = true) (herr : b'.err ≠ .none) : b' = b.completed b.pr b.onc b'.err := by
  rcases h with ⟨pr, onc, e, -, hfault, rfl⟩ | ⟨hseq, -⟩
  · obtain ⟨rfl, rfl⟩ := hfault herr
    rfl
  · cases (hseq.keeps.1.trans hb).symm.trans hdone

/-- Settles O16, for the completion and for the launch of an illegal word. -/
theorem faultsArePrecise : Obligations.FaultsArePrecise := by
  refine ⟨fun i s t hi hb h hdone herr => ?_, fun s w rest hc hr hidle hd => ?_⟩
  · exact ((exec_inversion h).commandStep hi).eq_completed_of_fault hb hdone herr
  · refine ⟨_, step_writeCmd_of_idle w rest hc hr hidle, ?_⟩
    rw [s.blk.launch_of_illegal hd]
    rfl

/-! ## The interrupt -/

theorem Block.irq_of_done (h : b.done = true) : b.irq = b.ie := by
  rw [Block.irq, h, Bool.and_true]

theorem Block.irq_of_not_done (h : b.done = false) : b.irq = false := by
  rw [Block.irq, h, Bool.and_false]

/-- A completion raises `irq` while IE is 1. -/
theorem Block.CommandStep.irq_eq_of_idle (h : b.CommandStep b') (hph : b'.ph = .idle) :
    b'.irq = b.ie := by
  rcases h with ⟨pr, onc, e, -, -, rfl⟩ | ⟨-, hn⟩
  · exact Block.irq_of_done rfl
  · exact absurd hph hn

/-- An illegal launch raises `irq` while IE is 1. -/
theorem Block.launch_illegal_irq (b : Block) {w : Word} (hd : decodeCommand w = .reject .illegalCommand) :
    (b.launch w).irq = b.ie := by
  rw [b.launch_of_illegal hd]
  exact Block.irq_of_done rfl

/-- An acknowledgement lowers `irq`. -/
theorem Block.writeStatus_irq (b : Block) {v : Word} (hv : v.getLsbD 1 = true) :
    (b.writeStatus v).irq = false := by
  rw [Block.writeStatus_eq, hv]
  exact Block.irq_of_not_done rfl

/-- A write to CTRL: a soft reset lowers `irq`, and any other write makes it DONE under the new IE. -/
theorem State.writeCtrl_irq (s : State) (v : Word) :
    (s.writeOffset 0x008 v).blk.irq = (!v.getLsbD 1 && v.getLsbD 0 && s.blk.done) := by
  cases hv : v.getLsbD 1 with
  | true =>
    rw [writeOffset_srst s hv]
    rfl
  | false =>
    have hns : ¬ (locate s.cfg 0x008 = .ctrl ∧ v.getLsbD 1 = true) := fun h => by cases hv.symm.trans h.2
    rw [State.writeOffset, if_neg hns]
    rfl

/-- Settles O17: each event sets IE or DONE. -/
theorem irqIsALevel : Obligations.IrqIsALevel := by
  refine ⟨fun _ => rfl, fun i s t hi h hph => ?completion, fun s w rest hc hr hidle => ?launch,
    fun s v rest hc hr hv => ?status, fun s v rest hc hr => ?ctrl, fun s rest => ?reset⟩
  case completion => exact ((exec_inversion h).commandStep hi).irq_eq_of_idle hph
  case launch =>
    refine ⟨_, step_writeCmd_of_idle w rest hc hr hidle, s.blk.launch_illegal_irq, fun ⟨i, hd⟩ => ?_⟩
    exact Block.irq_of_not_done (s.blk.launch_done_of_command hd)
  case status =>
    exact ⟨_, step_withWrite_writeLoc rest hc hr (by decide) (by decide) (locate_status _) nofun,
      s.blk.writeStatus_irq hv⟩
  case ctrl =>
    exact ⟨_, step_withWrite v rest hc hr (by decide) (by decide),
      State.writeCtrl_irq { s with inputs := rest } v⟩
  case reset => exact ⟨_, step_resetLow rfl, rfl⟩

end Sys2Proof.Machine
end

section
/-! PROOFS. Where the machine stops (60_exceptions.md R225, 40_coprocessor_ops.md R116; logs 8 and 9). -/

namespace Sys2Proof.Machine

variable {s : State} {q : Request}

/-- A busy block whose CMDR holds no command has no step to take. -/
theorem advance_illegalCommand (hr : s.rstN = true) (hq : s.mreq = none) (hb : s.blk.busy = true)
    (hd : decodeCommand s.blk.cmdr = .reject .illegalCommand) : s.advance = .fault .noEngineStep := by
  simp [State.advance, State.fetch, hr, hq, hb, hd]

/-- A reserved request on the port has no answer. -/
theorem advance_reservedRequest (hr : s.rstN = true) (hq : s.mreq = some q)
    (hd : decodeRequest q = .reject .reservedRequest) : s.advance = .fault .reservedRequest := by
  simp [State.advance, State.fetch, hr, hq, hd]

/-- The opcodes 4 to 7 are reserved (40_coprocessor_ops.md R116). -/
theorem decodeRequest_of_four_le (h : 4 ≤ q.op.toNat) : decodeRequest q = .reject .reservedRequest := by
  rcases decodeRequest_cases q with ⟨e, -⟩ | ⟨e, -⟩ | ⟨e, -⟩ | ⟨e, -⟩ | ⟨-, hd⟩
  case inr.inr.inr.inr => exact hd
  all_goals
    rw [e] at h
    exact absurd h (by decide)

/-- Settles O44: a phase the command has no step for, or a word the decoder rejects. -/
theorem whereTheMachineStops : Obligations.WhereTheMachineStops := by
  refine ⟨fun ra s h => if_neg h, fun rd ra rb s h => if_neg h, fun rd ra s h => if_neg h,
    fun rd ra s h => ?ladder, fun s rest hr hin hq hph hd => ?command, fun s rest q hr hin hq hop => ?request⟩
  case ladder => rw [exec, execLadder, h]
  case command =>
    rw [step_advance hin]
    exact advance_illegalCommand hr hq (s.blk.busy_eq_true_iff.2 hph) hd
  case request =>
    rw [step_advance hin]
    exact advance_reservedRequest hr hq (decodeRequest_of_four_le hop)

end Sys2Proof.Machine
end

section
/-! PROOFS. Reset (70_reset_and_hazards.md R260, R261, R263): a soft reset by a write to CTRL, the block
held in reset, and the first command after it. -/

namespace Sys2Proof.Machine

variable {s : State} {b : Block} {i : Instr} {w : Word}

/-! ## The soft reset (R261) -/

/-- A write to CTRL with bit 1 set is a soft reset, in any phase. -/
theorem step_writeSrst {v : Word} (rest : List Input) (hc : s.cfg.legal = true) (hr : s.rstN = true)
    (hv : v.getLsbD 1 = true) :
    step (s.withWrite 0x008 v rest) =
      .next { s with blk := Block.reset, mreq := none, mrsp := none, inputs := rest, bus := some .written } := by
  rw [step_withWrite v rest hc hr (by decide) (by decide), writeOffset_srst _ hv]
  rfl

/-- Settles O6: the step is a soft reset, which leaves a reset block and a quiet port. -/
theorem softResetAbandonsEverything : Obligations.SoftResetAbandonsEverything := by
  intro s v rest hc hr hv
  have hctrl : Block.reset.ctrlWord = 0 := by decide
  exact ⟨_, step_writeSrst rest hc hr hv, holdsResetValues_of_reset rfl rfl, rfl, rfl, hctrl, rfl⟩

/-! ## The reset pin (R260) -/

/-- A block held in reset takes no access (log 12). -/
theorem hostAccess_held (h : s.rstN = false) (acc : Access) : s.hostAccess acc = { s with bus := none } := by
  cases acc <;> simp [State.hostAccess, h]

/-- Settles O7: the pin resets the block, held it does not move, and released it is idle. -/
theorem hardwareResetHoldsTheBlock : Obligations.HardwareResetHoldsTheBlock := by
  refine ⟨fun s rest => (step_resetLow rfl).trans rfl, fun s rest hr => ?held, fun s rest hr hb hq => ?released⟩
  case held =>
    refine ⟨fun acc => ⟨{ s with inputs := rest, bus := none }, ?_, rfl, hr, rfl⟩, ?_, ?_, step_resetHigh rfl⟩
    · refine (step_withAccess s acc rest).trans (congrArg _ ?_)
      exact hostAccess_held (s := { s with inputs := rest }) hr acc
    · exact (step_advance rfl).trans (advance_held hr)
    · exact (step_nil rfl).trans (advance_held hr)
  case released =>
    have hidle : s.blk.busy = false := by rw [hb]; rfl
    exact ⟨(step_advance rfl).trans (advance_idle hq hidle), (step_nil rfl).trans (advance_idle hq hidle)⟩

/-! ## The first command (R263) -/

theorem Block.point_of_reset_pr (h : b.pr = Block.reset.pr) (r : Reg) : b.point r = .inf := by
  rw [Block.point, h]
  exact Block.reset_point r

/-- With the identity in every point register each command, LADDER included, is launched into EXEC. -/
theorem Block.launch_of_reset_pr (hpr : b.pr = Block.reset.pr) (hd : decodeCommand w = .ok i) :
    b.launch w = { b with cmdr := w, done := false, err := .none, onc := false, ph := .exec } := by
  by_cases hi : ∃ rd ra, i = .ladder rd ra
  · obtain ⟨rd, ra, rfl⟩ := hi
    rw [b.launch_of_ladder hd, Block.ladderLaunched_early (.inl (Block.point_of_reset_pr hpr ra))]
  · exact b.launch_of_not_ladder hd fun rd ra e => hi ⟨rd, ra, e⟩

/-- The identity written over an identity leaves the point registers at their reset contents. -/
theorem Block.completedWith_inf_of_reset_pr (hpr : b.pr = Block.reset.pr) (rd : Reg) :
    b.completedWith rd (.ok .inf) = b.completed Block.reset.pr b.onc .none := by
  have hset : Block.reset.pr.set rd { inf := true, x := 0, y := 0 } = Block.reset.pr := Vector.set_replicate_self
  rw [Block.completedWith, hpr, hset]

/-- With the identity in every point register a command's step in EXEC completes it with ERR = 0 and no
request: PCHK with ONC = 1, the others with the identity. -/
theorem exec_of_reset_pr (hi : IsCommand i) (hph : s.blk.ph = .exec) (honc : s.blk.onc = false)
    (hpr : s.blk.pr = Block.reset.pr) :
    exec i s = .next (s.engine (s.blk.completed Block.reset.pr (decide (dest i = none)) .none) []) := by
  have hP := Block.point_of_reset_pr hpr
  have hend : ∀ rd, s.blk.completedWith rd (.ok .inf) = s.blk.completed Block.reset.pr false .none := by
    rw [← honc]
    exact Block.completedWith_inf_of_reset_pr hpr
  cases i with
  | pchk ra =>
    rw [exec_pchk (v := true) hph (by rw [hP]; rfl), hP, hpr]
    rfl
  | padd rd ra rb =>
    rw [exec_of_executes (.padd rd ra rb s hph), hP, hP, pAdd_inf_left (Q := .inf) trivial,
      Block.finish_eq_completedWith, hend]
    rfl
  | pdbl rd ra =>
    rw [exec_of_executes (.pdbl rd ra s hph), hP, pDbl_inf, Run.ret_res, Block.finish_eq_completedWith, hend]
    rfl
  | ladder rd ra =>
    rw [exec_ladder_early hph, hend]
    rfl
  | madd | msub | mmul | minv => exact hi.elim

/-- On its own such a block takes that step. -/
theorem State.OnItsOwn.step_of_reset_pr (hs : s.OnItsOwn) (hd : decodeCommand s.blk.cmdr = .ok i)
    (hph : s.blk.ph = .exec) (honc : s.blk.onc = false) (hpr : s.blk.pr = Block.reset.pr) :
    step s = .next (s.engine (s.blk.completed Block.reset.pr (decide (dest i = none)) .none) []) := by
  have hbusy : s.blk.ph ≠ .idle := by rw [hph]; nofun
  rw [hs.step_command hbusy hd, exec_of_reset_pr (isCommand_of_decodeCommand hd) hph honc hpr]

/-- From an idle block with the identity in every point register, a command written to CMD is complete
after two steps: the first launches it into EXEC, the second runs it. -/
theorem run_command_of_reset_pr (hd : decodeCommand w = .ok i) (hc : s.cfg.legal = true)
    (hr : s.rstN = true) (hq : s.mreq = none) (hidle : s.blk.ph = .idle) (hpr : s.blk.pr = Block.reset.pr) :
    Host.Core.run Sys2Proof.core 2 (s.withWrite 0x000 w []) =
      .next ((s.written s.blk []).engine
        ({ s.blk with cmdr := w }.completed Block.reset.pr (decide (dest i = none)) .none) []) := by
  have hlaunch := step_writeCmd_of_idle w [] hc hr hidle
  rw [s.blk.launch_of_reset_pr hpr hd] at hlaunch
  refine (run_succ_of_step hlaunch).trans (run_succ_of_step ?_)
  exact State.OnItsOwn.step_of_reset_pr ⟨hr, hq, rfl⟩ hd rfl rfl hpr

/-- Settles O8: the reset block is idle with the identity in every point register, whatever CA, CB and CP
hold. -/
theorem everyCommandRunsFromReset : Obligations.EveryCommandRunsFromReset := by
  intro c i w a b p hc hw
  have hrun := run_command_of_reset_pr (decodeCommand_eq_ok_iff.2 hw)
    (s := { State.resetOf c with blk := { Block.reset with ca := a, cb := b, cp := p } }) hc rfl rfl rfl rfl
  exact ⟨_, hrun, rfl, rfl, rfl⟩

end Sys2Proof.Machine
end
